-- ==== Sys2Proof/Word.lean ====
section
/-! DEFINITION. The words of the block: bytes, 32-bit command and response words, address containers. -/

namespace Sys2Proof

/-- `u8` of rule R9: one sample, one output channel, one byte of memory. -/
abbrev Byte := BitVec 8

/-- A command word `CW` (R80) or a response word `RSP` (R92); also the width `LW` of the pixel count (R8). -/
abbrev Word := BitVec 32

/-- The container of an `AW`-bit address (R86): `AW` is at most 64 (R8), so an address fits 64 bits, and the
bits above `AW` are 0 in every well-formed operand (log 8). -/
abbrev Addr := BitVec 64

end Sys2Proof
end

