-- ==== Sys2Proof/Config.lean ====
section
/-! DEFINITION. The configuration record of rule R8 (constants of one piece of hardware), and the free values. -/

namespace Sys2Proof

/-- The eight hardwired coefficients (R27, R111), under the spec's names. Which sets are admissible is
rule R113 with R127 (`Coef.admissible`, Machine/Datapath.lean). -/
structure Coef where
  /-- V to R weight. -/
  tCon1 : Int
  /-- V to G weight. -/
  tCon2 : Int
  /-- U to G weight. -/
  tCon3 : Int
  /-- U to B weight. -/
  tCon4 : Int
  /-- Y scale. -/
  tCon5 : Int
  /-- R rounding constant. -/
  tCon6 : Int
  /-- G rounding constant. -/
  tCon7 : Int
  /-- B rounding constant. -/
  tCon8 : Int
deriving DecidableEq, Repr

/-- An interval of addresses that exist: `[base, base + size)`. -/
structure Region where
  base : Nat
  size : Nat
deriving DecidableEq, Repr

/-- The configuration record of R8, with the set `MAP` of accessible addresses (R34, R52) as a list of
intervals. -/
structure Config where
  /-- `AW`, the width of an address in bits (8 to 64). -/
  aw : Nat
  /-- `NT`, the number of implementation tiers (1 to 256). -/
  nt : Nat
  /-- `CAP`, a Boolean vector: bit `t` is `CAP[t]`. The bits from `NT` up are not read. -/
  cap : BitVec 256
  /-- `NP`, the number of command ports. -/
  np : Nat
  /-- `COEF`. -/
  coef : Coef
  /-- `MAP`. -/
  map : List Region
deriving DecidableEq, Repr

/-- FREE VALUE (log 6). What latch `a[j]` holds after the `k`-th completed conversion: R25 says the latches'
value after completion is unspecified, so nothing is known of it. -/
opaque Config.freeLatch (k j : Nat) : Addr

end Sys2Proof
end

