-- ==== Sys2Proof/Syntax.lean ====
section
/-! DEFINITION. The commands: layouts, operand bundles, the six instructions, and what a host presents on a port. -/

namespace Sys2Proof

/-- The pixel layouts (R11). -/
inductive Layout where
  | rgb
  | rgba
  | bgr
  | bgra
deriving DecidableEq, Repr

/-- The operand bundle (R86), which is also what the five operand latches `a[0..4]` hold (R24): the luma,
chroma-U, chroma-V and destination addresses and the pixel count, in the spec's order. -/
structure Opnd where
  /-- `o0`, `a[0]`, `YPTR`. -/
  y : Addr
  /-- `o1`, `a[1]`, `UPTR`. -/
  u : Addr
  /-- `o2`, `a[2]`, `VPTR`. -/
  v : Addr
  /-- `o3`, `a[3]`, `DPTR`. -/
  d : Addr
  /-- `o4`, `a[4]`, `LEN`. -/
  n : Word
deriving DecidableEq, Repr

/-- The six commands (R2), one constructor per row of the opcode table. The operand bundle belongs to the four
conversions only: `INIT` and `LOOKUP` ignore it (R80). -/
inductive Instr where
  /-- `INIT t` (R88, R172). -/
  | init (t : Byte)
  /-- `LOOKUP L` (R89, R175). -/
  | lookup (l : Layout)
  /-- `CONV.RGB t, y, u, v, d, n` (R90, R149). -/
  | convRgb (t : Byte) (o : Opnd)
  /-- `CONV.RGBA t, y, u, v, d, n` (R90, R150). -/
  | convRgba (t : Byte) (o : Opnd)
  /-- `CONV.BGR t, y, u, v, d, n` (R90, R151). -/
  | convBgr (t : Byte) (o : Opnd)
  /-- `CONV.BGRA t, y, u, v, d, n` (R90, R152). -/
  | convBgra (t : Byte) (o : Opnd)
deriving DecidableEq, Repr

/-- What the host presents on a port: a command word and an operand bundle (R80). -/
structure Command where
  cw : Word
  opnd : Opnd
deriving DecidableEq, Repr

/-- Where the command word of an entry of a command list comes from (R30, R98). -/
inductive Source where
  /-- The word is written in the program. -/
  | word (cw : Word)
  /-- `CALL` (R98): the word is the response that command `j` of port `p`'s list has returned. -/
  | response (p j : Nat)
deriving DecidableEq, Repr

/-- One entry of the host's command list of a port (R30): a command to issue, and what the host waits for first. -/
structure Issue where
  src : Source
  opnd : Opnd
  /-- The `WAIT`s before it (R98; log 19): for each port, how many of its commands must have completed. -/
  need : List Nat
deriving DecidableEq, Repr

/-- Why the decoder gives a command no meaning. All but the last are the reserved words of R94. -/
inductive Reject where
  /-- `OPC` is 0 or 4 to 15. -/
  | opcode
  /-- `Z0` is not zero. -/
  | fieldZ0
  /-- `Z1` is not zero. -/
  | fieldZ1
  /-- `INIT` with `LAYOUT` not zero. -/
  | initLayout
  /-- `LOOKUP` with `TIER` not zero. -/
  | lookupTier
  /-- `INIT` or `CONV` with `TIER >= NT`. -/
  | tierRange
  /-- MODEL'S OWN (log 8): an address of a conversion has a bit above `AW`, which no `AW`-bit operand has. -/
  | operandWidth
deriving DecidableEq, Repr

end Sys2Proof
end

