-- ==== Sys2Proof/Machine/Params.lean ====
section
/-! DEFINITION. The constants the spec fixes, its reference coefficients, and the configuration State.reset carries. -/

namespace Sys2Proof

/-- `SHIFT` (R8, R27): the right shift of the saturating shift, 9 bits. -/
def shift : Nat := 9

/-- `ACCW` (R8): the width of the accumulators, 32 bits. -/
def accw : Nat := 32

/-- `CFG_REF` (R114), the spec's reference coefficient set. -/
def Coef.ref : Coef :=
  { tCon1 := 817, tCon2 := -416, tCon3 := 200, tCon4 := 1033, tCon5 := 596,
    tCon6 := -113856, tCon7 := -69568, tCon8 := -141504 }

/-- DESIGN CHOICE (log 2), unsafe for a claim about the reset state alone: the configuration that `State.reset` and
`decodeTableWord` use. `AW = 32` and `NP = 1` as in all the spec's examples, `NT = 256` with every tier capable (so that
no `TIER` value is reserved), `CFG_REF`, and all of the address space mapped. -/
def Config.reset : Config :=
  { aw := 32, nt := 256, cap := BitVec.allOnes 256, np := 1, coef := Coef.ref, map := [⟨0, 2 ^ 32⟩] }

end Sys2Proof
end

