-- ==== Sys2Proof/WellFormed.lean ====
section
/-! DEFINITION. Which instructions exist in a configuration: the tier exists and the addresses are `AW` bits wide. -/

namespace Sys2Proof

/-- The four addresses of a bundle are `AW`-bit values (R86); the count is 32 bits by its type. -/
def Opnd.fits (aw : Nat) (o : Opnd) : Bool :=
  decide (o.y.toNat < 2 ^ aw) && decide (o.u.toNat < 2 ^ aw) && decide (o.v.toNat < 2 ^ aw) &&
    decide (o.d.toNat < 2 ^ aw)

/-- The constraint column of the opcode table: `TIER < NT` in `INIT` and `CONV` (R84, R94), and operands of the
width R86 gives them. -/
def Instr.wellFormed (c : Config) : Instr → Bool
  | .init t => decide (t.toNat < c.nt)
  | .lookup _ => true
  | .convRgb t o => decide (t.toNat < c.nt) && o.fits c.aw
  | .convRgba t o => decide (t.toNat < c.nt) && o.fits c.aw
  | .convBgr t o => decide (t.toNat < c.nt) && o.fits c.aw
  | .convBgra t o => decide (t.toNat < c.nt) && o.fits c.aw

end Sys2Proof
end

