-- ==== Sys2Proof/Decode.lean ====
section
/-! DEFINITION. The decoder of rule R99, the encoder of rules R88 to R90, and the opcode table's mask and match. -/

namespace Sys2Proof

/-- The layout of a `LAYOUT` field (R83): every value of the field is legal. -/
def Layout.ofField (f : BitVec 2) : Layout :=
  if f = 0 then .rgb else if f = 1 then .rgba else if f = 2 then .bgr else .bgra

/-- The number of a layout (R11, R83). -/
def Layout.field : Layout → BitVec 2
  | .rgb => 0
  | .rgba => 1
  | .bgr => 2
  | .bgra => 3

/-- Field `OPC`, bits 3:0 (R81). -/
def opcField (w : Word) : BitVec 4 := w.extractLsb' 0 4

/-- Field `LAYOUT`, bits 5:4 (R81). -/
def layoutField (w : Word) : BitVec 2 := w.extractLsb' 4 2

/-- Field `Z0`, bits 7:6 (R81). -/
def z0Field (w : Word) : BitVec 2 := w.extractLsb' 6 2

/-- Field `TIER`, bits 15:8 (R81). -/
def tierField (w : Word) : Byte := w.extractLsb' 8 8

/-- Field `Z1`, bits 31:16 (R81). -/
def z1Field (w : Word) : BitVec 16 := w.extractLsb' 16 16

/-- The conversion of a layout, `CONV.<name(L)> t` of R99. -/
def Instr.conv (l : Layout) (t : Byte) (o : Opnd) : Instr :=
  match l with
  | .rgb => .convRgb t o
  | .rgba => .convRgba t o
  | .bgr => .convBgr t o
  | .bgra => .convBgra t o

/-- The decoder of R99, total on every command; a reserved word (R94) is refused by name. The operands of a
conversion are taken as they stand (R87) once they are `AW` bits wide (log 8). -/
def decode (c : Config) (k : Command) : Except Reject Instr :=
  if z1Field k.cw ≠ 0 then .error .fieldZ1
  else if z0Field k.cw ≠ 0 then .error .fieldZ0
  else if opcField k.cw = 1 then
    if layoutField k.cw ≠ 0 then .error .initLayout
    else if c.nt ≤ (tierField k.cw).toNat then .error .tierRange
    else .ok (.init (tierField k.cw))
  else if opcField k.cw = 2 then
    if tierField k.cw ≠ 0 then .error .lookupTier
    else .ok (.lookup (Layout.ofField (layoutField k.cw)))
  else if opcField k.cw = 3 then
    if c.nt ≤ (tierField k.cw).toNat then .error .tierRange
    else if !k.opnd.fits c.aw then .error .operandWidth
    else .ok (Instr.conv (Layout.ofField (layoutField k.cw)) (tierField k.cw) k.opnd)
  else .error .opcode

/-- The command word laid out as R81 draws it: `Z1`, `TIER`, `Z0`, `LAYOUT`, `OPC` from bit 31 down. -/
def commandWord (opc : BitVec 4) (l : BitVec 2) (t : Byte) : Word :=
  ((((0 : BitVec 16) ++ t) ++ (0 : BitVec 2)) ++ l) ++ opc

/-- A bundle of zeros: what the encoder puts beside a word whose command ignores its operands (R80). -/
def Opnd.zero : Opnd := { y := 0, u := 0, v := 0, d := 0, n := 0 }

/-- The kernel reference of layout `l` and tier `t` (R93): the command word of that conversion (R90). -/
def kernelRef (l : Layout) (t : Byte) : Word := commandWord 3 l.field t

/-- The encoder (R88, R89, R90). -/
def encode : Instr → Command
  | .init t => { cw := commandWord 1 0 t, opnd := Opnd.zero }
  | .lookup l => { cw := commandWord 2 l.field 0, opnd := Opnd.zero }
  | .convRgb t o => { cw := kernelRef .rgb t, opnd := o }
  | .convRgba t o => { cw := kernelRef .rgba t, opnd := o }
  | .convBgr t o => { cw := kernelRef .bgr t, opnd := o }
  | .convBgra t o => { cw := kernelRef .bgra t, opnd := o }

/-- Column `mask` of the opcode table (R88, R89, R90). -/
def Instr.tableMask : Instr → Word
  | .init _ => 0xFFFF00FF
  | .lookup _ => 0xFFFFFFCF
  | .convRgb _ _ => 0xFFFF00FF
  | .convRgba _ _ => 0xFFFF00FF
  | .convBgr _ _ => 0xFFFF00FF
  | .convBgra _ _ => 0xFFFF00FF

/-- Column `match` of the opcode table (R88, R89, R90). -/
def Instr.tableMatch : Instr → Word
  | .init _ => 0x00000001
  | .lookup _ => 0x00000002
  | .convRgb _ _ => 0x00000003
  | .convRgba _ _ => 0x00000013
  | .convBgr _ _ => 0x00000023
  | .convBgra _ _ => 0x00000033

/-- The command whose command word is the 32 bits `w`, with operand words of zeros: no source lays a command out as
bytes (R55), so the table's bit numbers are the word's own (log 16). -/
def tableCommand (w : Nat) : Command := { cw := BitVec.ofNat 32 w, opnd := Opnd.zero }

/-- What the decoder reads from a table row's word. Every row has 32 bits (R96), so another width, or a number that
does not fit it, is no command. -/
def decodeTableWord (nbits w : Nat) : Option Instr :=
  if nbits = 32 ∧ w < 2 ^ 32 then
    match decode Config.reset (tableCommand w) with
    | .ok i => some i
    | .error _ => none
  else none

end Sys2Proof
end

