-- ==== Sys2Proof/Machine/Datapath.lean ====
section
/-! DEFINITION. The kernel datapath: the matrix transform, the saturating shift, PIX, and the admissible coefficients. -/

namespace Sys2Proof

/-- `asr(x, k)` of R10: `floor(x / 2^k)` (Lean's integer division rounds down for a positive divisor). -/
def asr (x : Int) (k : Nat) : Int := x / 2 ^ k

/-- `clamp(x, lo, hi)` of R10. -/
def clamp (x lo hi : Int) : Int := if x < lo then lo else if hi < x then hi else x

/-- `satshift(x)` of R120, as an integer in 0..255. -/
def satshift (x : Int) : Int := clamp (asr x shift) 0 255

/-- R115. -/
def Coef.rBias (c : Coef) (v : Int) : Int := c.tCon1 * v + c.tCon6

/-- R116: the first printed formula, literally (90_conflicts C3). -/
def Coef.gBias (c : Coef) (u v : Int) : Int := c.tCon3 * u - (c.tCon2 * v - c.tCon7)

/-- R117. -/
def Coef.bBias (c : Coef) (u : Int) : Int := c.tCon4 * u + c.tCon8

/-- R118. -/
def Coef.yScaled (c : Coef) (y : Int) : Int := c.tCon5 * y

/-- `Racc` of R119. -/
def Coef.rAcc (c : Coef) (y v : Int) : Int := c.yScaled y + c.rBias v

/-- `Gacc` of R119: the minus sign is green's alone. -/
def Coef.gAcc (c : Coef) (y u v : Int) : Int := c.yScaled y - c.gBias u v

/-- `Bacc` of R119. -/
def Coef.bAcc (c : Coef) (y u : Int) : Int := c.yScaled y + c.bBias u

/-- The three channel bytes of one pixel. -/
structure Rgb where
  r : Byte
  g : Byte
  b : Byte
deriving DecidableEq, Repr

/-- `zext` of R10: a sample enters the arithmetic as its unsigned value. -/
def zext (x : Byte) : Int := (x.toNat : Int)

/-- `PIX(Y, U, V)` of R121, computed in the integers. -/
def Coef.pix (c : Coef) (y u v : Byte) : Rgb :=
  { r := BitVec.ofInt 8 (satshift (c.rAcc (zext y) (zext v)))
    g := BitVec.ofInt 8 (satshift (c.gAcc (zext y) (zext u) (zext v)))
    b := BitVec.ofInt 8 (satshift (c.bAcc (zext y) (zext u))) }

/-- `MIDGREY` of R127, a number derived from the coefficients. -/
def Coef.midgrey (c : Coef) : Int := satshift (128 * c.tCon5 + 128 * c.tCon1 + c.tCon6)

/-- A value the `ACCW`-bit signed datapath can hold: it lies in `[-M, M-1]` with `M = 2^(ACCW-1)` (R113). -/
def inAcc (x : Int) : Bool := decide (-(2 ^ (accw - 1)) ≤ x) && decide (x < 2 ^ (accw - 1))

/-- The expressions R113 bounds, at one triple of samples. -/
def Coef.expressions (c : Coef) (y u v : Int) : List Int :=
  [c.tCon1, c.tCon2, c.tCon3, c.tCon4, c.tCon5, c.tCon6, c.tCon7, c.tCon8,
   c.tCon1 * v, c.tCon2 * v, c.tCon3 * u, c.tCon4 * u, c.tCon5 * y, c.tCon2 * v - c.tCon7,
   c.rBias v, c.gBias u v, c.bBias u, c.yScaled y + c.rBias v, c.yScaled y - c.gBias u v, c.yScaled y + c.bBias u]

/-- The eight corners `{0, 255}^3` of R113. -/
def corners : List (Int × Int × Int) :=
  [(0, 0, 0), (0, 0, 255), (0, 255, 0), (0, 255, 255), (255, 0, 0), (255, 0, 255), (255, 255, 0), (255, 255, 255)]

/-- The overflow check of R113: every expression fits at every corner. -/
def Coef.noOverflow (c : Coef) : Bool :=
  corners.all fun k => (c.expressions k.1 k.2.1 k.2.2).all inAcc

/-- The mid-grey check of R127: the three components of `PIX(128, 128, 128)` are equal. -/
def Coef.midgreyNeutral (c : Coef) : Bool :=
  decide ((c.pix 128 128 128).r = (c.pix 128 128 128).g) && decide ((c.pix 128 128 128).g = (c.pix 128 128 128).b)

/-- An admissible coefficient set (R113, R127). -/
def Coef.admissible (c : Coef) : Bool := c.noOverflow && c.midgreyNeutral

/-- A region of `MAP` lies in the address space: `MAP` is a set of `AW`-bit addresses (R50, R52; log 10). -/
def Region.inSpace (aw : Nat) (r : Region) : Bool := decide (r.base + r.size ≤ 2 ^ aw)

/-- An admissible configuration (R8, R203): everything else is class U12. -/
def Config.admissible (c : Config) : Bool :=
  decide (8 ≤ c.aw) && decide (c.aw ≤ 64) && decide (1 ≤ c.nt) && decide (c.nt ≤ 256) &&
    c.cap.getLsbD 0 && decide (1 ≤ c.np) && c.coef.admissible && c.map.all (Region.inSpace c.aw)

/-! The same pixel as an `ACCW`-bit two's-complement datapath computes it (R113, R120, R122). -/

/-- A constant or a sample in the datapath: 32 bits, two's complement. -/
def acc (x : Int) : BitVec 32 := BitVec.ofInt 32 x

/-- The bit-level form of the saturating shift that R120 gives. -/
def satshiftBits (x : BitVec 32) : Byte :=
  if x.extractLsb' 17 15 = 0 then x.extractLsb' 9 8 else if x.msb then 0 else 255

/-- PIX by 32-bit multipliers, adders and the bit-level saturating shift (R122). -/
def Coef.pixBits (c : Coef) (y u v : Byte) : Rgb :=
  let ys := acc c.tCon5 * y.setWidth 32
  let rb := acc c.tCon1 * v.setWidth 32 + acc c.tCon6
  let gb := acc c.tCon3 * u.setWidth 32 - (acc c.tCon2 * v.setWidth 32 - acc c.tCon7)
  let bb := acc c.tCon4 * u.setWidth 32 + acc c.tCon8
  { r := satshiftBits (ys + rb), g := satshiftBits (ys - gb), b := satshiftBits (ys + bb) }

end Sys2Proof
end

