-- ==== Sys2Proof/Machine/State.lean ====
section
/-! DEFINITION. The state of the block, its memory and its host as plain data; faults, refusals, events; the state after reset. -/

namespace Sys2Proof.Machine

/-- Memory: the bytes whose value is not the one an unlisted address reads as, by rising address. -/
abbrev Memory := List Host.Cell

/-- What an address with no entry reads as. DESIGN CHOICE (log 7), unsafe for a claim about reset memory alone: the
spec says memory holds whatever the host left (R35). -/
def Memory.unlisted : Byte := 0

/-- The canonical form: addresses strictly rising, no entry equal to what an unlisted address reads as. -/
abbrev Memory.wf (m : Memory) : Prop :=
  List.Pairwise (fun c d => c.1 < d.1) m ∧ ∀ c ∈ m, c.2 ≠ Memory.unlisted

/-- One registry slot as the 9-bit register of R22. `KREF(t)` is `v = true` with `tier = t`; `EMPTY` is `v = false`,
whatever `tier` holds. -/
structure Slot where
  v : Bool
  tier : Byte
deriving DecidableEq, Repr

/-- The Sampler Registry `SR[0..3]` (R20), each slot under the name of its layout. -/
structure Registry where
  rgb : Slot
  rgba : Slot
  bgr : Slot
  bgra : Slot
deriving DecidableEq, Repr

/-- The condition of a command port (R31). `written` is the progress of a conversion: the offsets from the
destination address of the bytes already written, rising. It is empty for `INIT` and `LOOKUP`. -/
inductive PortCond where
  | idle
  | busy (cmd : Instr) (written : List Nat)
deriving DecidableEq, Repr

/-- A command port and its host side. -/
structure Port where
  /-- `IDLE` or `BUSY(cmd)` (R31). -/
  cond : PortCond
  /-- The operand latches `a[0..4]` (R24). -/
  a : Opnd
  /-- The host's command list for this port (R30). -/
  prog : List Issue
  /-- `cidx`, the index of the next command to issue (R30). -/
  cidx : Nat
  /-- The responses sent on this port, oldest first (R92, R232). -/
  rsps : List Word
  /-- MODEL'S OWN (log 13): how many of the responses were sent before the last reset event. -/
  before : Nat
deriving DecidableEq, Repr

/-- What happens next, chosen by the schedule (log 9). -/
inductive Event where
  /-- Port `p` accepts the command the host presents and executes it as one big step (R91, R230). -/
  | run (p : Nat)
  /-- Port `p` accepts the command the host presents (R91). -/
  | accept (p : Nat)
  /-- The engine of port `p` writes byte `k` of its write set (R31, R60, R65). -/
  | store (p k : Nat)
  /-- The command of port `p` completes (R92). -/
  | complete (p : Nat)
  /-- The host writes a byte of memory (R52, R67). -/
  | hostWrite (addr : Nat) (val : Byte)
  /-- The host reads a byte of memory (R64, R67). -/
  | hostRead (addr : Nat)
  /-- The reset event (R220, R221). -/
  | reset
deriving DecidableEq, Repr

/-- The whole machine state (R36), the configuration it was built with, and the schedule. -/
structure State where
  /-- The configuration record (R8): an argument of the step that no step changes (R34; log 1). -/
  cfg : Config
  /-- The Sampler Registry (R20). -/
  sr : Registry
  /-- The `NP` command ports, port 0 first (R209). -/
  ports : List Port
  /-- Memory (R50). It belongs to the host (R52). -/
  mem : Memory
  /-- Ghost `USED` (R32). -/
  used : Bool
  /-- MODEL'S OWN (log 9): the port the command being executed was presented on. -/
  cur : Nat
  /-- MODEL'S OWN (log 9): the events to come, next first. -/
  sched : List Event
  /-- MODEL'S OWN (log 9): the bytes the host has read, oldest first. -/
  seen : List Host.Cell
  /-- MODEL'S OWN (log 6): how many times the latches have taken free values. -/
  fresh : Nat
deriving DecidableEq, Repr

/-- The classes of R191 whose outcome is a fault. `Outcome.fault` ends the run, which is the stickiness of R206
(log 15). -/
inductive Fault where
  /-- U1 (R192): a `LOOKUP l` with slot `l` EMPTY. Raised by `LOOKUP`. Safe. -/
  | lookupEmpty (l : Layout)
  /-- U2 (R193): an `INIT` accepted while another `INIT` is BUSY. Raised by `INIT`. Safe. -/
  | concurrentInit
  /-- U3 (R194): `INIT` and `LOOKUP` in flight together. Raised by whichever is accepted second. Safe. -/
  | initWithLookup
  /-- U6 (R197): a conversion would touch an address outside `MAP`. Raised by `CONV.*`. Safe. -/
  | unmapped
  /-- U7 (R198): a data race. Raised by `CONV.*`, by a host write, by a host read. Safe. -/
  | race
  /-- U8 (R199): a conversion's write set meets its own read set. Raised by `CONV.*`. Safe. -/
  | selfOverlap
  /-- U10 (R202): tier `t` is not capable. Raised by `INIT` and `CONV.*`. Safe. -/
  | noCapability (t : Byte)
  /-- U11 with `NP > 1` (R201): an `INIT` accepted after the first `LOOKUP`. Raised by `INIT`. Safe. -/
  | lateInit
  /-- MODEL'S OWN (log 11): the host itself writes or reads an address outside `MAP`. Raised by host events. Safe. -/
  | hostUnmapped (addr : Nat)
deriving DecidableEq, Repr

/-- The classes of R191 whose outcome is a refusal, and the model's own. -/
inductive Refusal where
  /-- An instruction with no meaning yet: used by no arm of `exec`. Safe. -/
  | notModelled (mnemonic : String)
  /-- U4 (R195): a conversion whose address ranges pass the top of the address space. Raised by `CONV.*`, and for a
  whole program before it runs (R232). Safe. -/
  | wraps
  /-- U9 (R200): the decoder rejects a command. Raised for a whole program before it runs (R232). Safe. -/
  | reserved (why : Reject)
  /-- U9 for `exec` called on a term that no command word encodes (a tier that does not exist, an address wider than
  `AW`). Raised by every command but `LOOKUP`. Safe. -/
  | illFormed
  /-- U11 with `NP = 1` (R201): an `INIT` after the first `LOOKUP`. Raised by `INIT`, and for a whole program before it
  runs (R232). Safe. -/
  | lateInit
  /-- U12 (R203): no machine exists for this configuration. Raised by every step. Safe. -/
  | inadmissibleConfig
  /-- MODEL'S OWN (log 11): a command is presented on a port the machine does not have, or an assembler line is loaded for
  one. Raised by events and by the loader. Safe. -/
  | noSuchPort (p : Nat)
  /-- MODEL'S OWN (log 19): an assembler line calls a name that no `LOOKUP` line before it gives. Raised by the loader,
  never by a step. Safe. -/
  | unknownName (k : Nat)
deriving DecidableEq, Repr

/-- One step's outcome. -/
abbrev Out := Host.Outcome State Fault Refusal

/-- An EMPTY slot at reset (R35). Its `TIER` bits are unspecified: DESIGN CHOICE 0 (log 4), unsafe. -/
def Slot.empty : Slot := { v := false, tier := 0 }

/-- The registry after reset (R35). -/
def Registry.empty : Registry := { rgb := Slot.empty, rgba := Slot.empty, bgr := Slot.empty, bgra := Slot.empty }

/-- The latches at reset are unspecified (R35): DESIGN CHOICE 0 (log 5), unsafe. -/
def latchesAtReset : Opnd := { y := 0, u := 0, v := 0, d := 0, n := 0 }

/-- A port after reset, with nothing loaded by the host and nothing answered. -/
def Port.reset : Port := { cond := .idle, a := latchesAtReset, prog := [], cidx := 0, rsps := [], before := 0 }

/-- The machine of configuration `c` right after reset (R35, R220). -/
def State.resetOf (c : Config) : State :=
  { cfg := c, sr := Registry.empty, ports := List.replicate c.np Port.reset, mem := [], used := false,
    cur := 0, sched := [], seen := [], fresh := 0 }

/-- The machine right after reset, in the configuration of log 2. -/
def State.reset : State := State.resetOf Config.reset

end Sys2Proof.Machine
end

