-- ==== Sys2Proof/Machine/Ops.lean ====
section
/-! DEFINITION. The named operations over memory, registry and ports, and the one acceptance every command goes through. The
block raises no exception and returns from none (R190, R206, R207). -/

namespace Sys2Proof

/-- The operand bundle a command loads into the latches (R25: conversions only). -/
def Instr.opnd : Instr → Option Opnd
  | .init _ => none
  | .lookup _ => none
  | .convRgb _ o => some o
  | .convRgba _ o => some o
  | .convBgr _ o => some o
  | .convBgra _ o => some o

/-- The layout of a conversion (R90). -/
def Instr.layout : Instr → Option Layout
  | .init _ => none
  | .lookup _ => none
  | .convRgb _ _ => some .rgb
  | .convRgba _ _ => some .rgba
  | .convBgr _ _ => some .bgr
  | .convBgra _ _ => some .bgra

/-- The command is a `LOOKUP`. -/
def Instr.isLookup : Instr → Bool
  | .lookup _ => true
  | _ => false

/-- The command is an `INIT`. -/
def Instr.isInit : Instr → Bool
  | .init _ => true
  | _ => false

/-- The address is in `MAP` (R52). -/
def mapped (map : List Region) (a : Nat) : Bool :=
  map.any fun r => decide (r.base ≤ a) && decide (a < r.base + r.size)

end Sys2Proof

namespace Sys2Proof.Machine

/-- `MemRead(addr, 1)` of R53. That the address is in `MAP` is checked when the command is accepted (R197). -/
def Memory.read (m : Memory) (a : Nat) : Byte :=
  match m with
  | [] => Memory.unlisted
  | (b, v) :: rest => if a = b then v else Memory.read rest a

/-- `MemWrite(addr, 1, v)` of R54, keeping the canonical form. -/
def Memory.write (m : Memory) (a : Nat) (v : Byte) : Memory :=
  match m with
  | [] => if v = Memory.unlisted then [] else [(a, v)]
  | (b, w) :: rest =>
    if a < b then (if v = Memory.unlisted then (b, w) :: rest else (a, v) :: (b, w) :: rest)
    else if a = b then (if v = Memory.unlisted then rest else (a, v) :: rest)
    else (b, w) :: Memory.write rest a v

/-- A slot holds `KREF(t)` (R20, R22). -/
def Slot.kref (t : Byte) : Slot := { v := true, tier := t }

/-- `SR[L]` (R10, R20). -/
def Registry.get (r : Registry) : Layout → Slot
  | .rgb => r.rgb
  | .rgba => r.rgba
  | .bgr => r.bgr
  | .bgra => r.bgra

/-- All four slots at once: what `INIT` writes (R172). No command writes one slot alone (R22). -/
def Registry.all (s : Slot) : Registry := { rgb := s, rgba := s, bgr := s, bgra := s }

/-- The command a port is executing, if it is `BUSY` (R31). -/
def PortCond.cmd : PortCond → Option Instr
  | .idle => none
  | .busy i _ => some i

/-- The port is `IDLE` (R31). -/
def PortCond.isIdle : PortCond → Bool
  | .idle => true
  | .busy _ _ => false

/-- The entry of a port's list that the host issues next (R30). -/
def Port.pending (q : Port) : Option Issue := q.prog[q.cidx]?

/-- How many commands of a port have completed since the last reset: each gives one response (R92). -/
def Port.answered (q : Port) : Nat := q.rsps.length - q.before

/-- The response to command `j` of a port's list, once it has come (R92). -/
def Port.response (q : Port) (j : Nat) : Option Word := q.rsps[q.before + j]?

/-- The `WAIT`s before an entry are over (R98): each port has completed the commands they wait for. -/
def waitOver (ports : List Port) (need : List Nat) : Bool := (need.zip ports).all fun x => decide (x.1 ≤ x.2.answered)

/-- The word of an entry, once it is known: that of a `CALL` is known when its response has come (R98). -/
def sourceWord (ports : List Port) : Source → Option Word
  | .word w => some w
  | .response p j => ports[p]?.bind fun q => q.response j

/-- The command the host presents on a port, if it presents one: its next entry, once nothing holds the entry back
(R30, R98). -/
def State.offered (s : State) (q : Port) : Option Command :=
  match q.pending with
  | none => none
  | some x =>
    if waitOver s.ports x.need then (sourceWord s.ports x.src).map fun w => { cw := w, opnd := x.opnd } else none

/-- Changes port `p` and nothing else; a port that does not exist cannot be changed. -/
def State.updPort (s : State) (p : Nat) (f : Port → Port) : State := { s with ports := s.ports.modify p f }

/-- Some port is executing an `INIT`. -/
def State.initBusy (s : State) : Bool := s.ports.any fun q => q.cond.cmd.any Instr.isInit

/-- Some port is executing a `LOOKUP`. -/
def State.lookupBusy (s : State) : Bool := s.ports.any fun q => q.cond.cmd.any Instr.isLookup

/-- The port after it accepts `i`: `BUSY`, latches loaded by a conversion, `cidx` moved past the command
(R91, R25, R30). -/
def Port.accept (i : Instr) (q : Port) : Port :=
  { q with cond := .busy i [], a := i.opnd.getD q.a, cidx := q.cidx + 1 }

/-- The acceptance event on the current port (R91); the first `LOOKUP` sets ghost `USED` (R32). -/
def State.accept (i : Instr) (s : State) : State :=
  { s.updPort s.cur (Port.accept i) with used := s.used || i.isLookup }

/-- `respond(v)` on the current port: the response is sent and the port becomes `IDLE` in the same event (R92). -/
def State.respond (s : State) (v : Word) : State :=
  s.updPort s.cur fun q => { q with cond := .idle, rsps := q.rsps ++ [v] }

/-- Unspecified latch values (R25, log 6): free values, cut to the width of an address. -/
def freeLatches (aw k : Nat) : Opnd :=
  { y := ((Config.freeLatch k 0).setWidth aw).setWidth 64
    u := ((Config.freeLatch k 1).setWidth aw).setWidth 64
    v := ((Config.freeLatch k 2).setWidth aw).setWidth 64
    d := ((Config.freeLatch k 3).setWidth aw).setWidth 64
    n := (Config.freeLatch k 4).setWidth 32 }

/-- After a conversion completes, the latches of its port are unspecified (R25, log 6). -/
def State.releaseLatches (s : State) : State :=
  { s.updPort s.cur (fun q => { q with a := freeLatches s.cfg.aw s.fresh }) with fresh := s.fresh + 1 }

/-- A class of R191: the outcome the model gives it. -/
inductive Stop where
  | fault (f : Fault)
  | refuse (r : Refusal)
deriving DecidableEq, Repr

/-- The outcome of a class. -/
def Stop.out : Stop → Out
  | .fault f => .fault f
  | .refuse r => .refused r

/-- The first class that applies, in the order the list gives (R205). -/
def firstStop : List (Bool × Stop) → Option Stop
  | [] => none
  | (applies, st) :: rest => if applies then some st else firstStop rest

/-- A command is offered on the current port. An inadmissible configuration is no machine (R203); a `BUSY` port accepts
nothing and the host's attempt waits, so nothing changes (R91); otherwise the classes of undefined behaviour are decided in
the order of R205, and a command inside its contract is accepted and goes on as `go` says. -/
def offer (i : Instr) (stop : State → Option Stop) (go : State → Out) (s : State) : Out :=
  if !s.cfg.admissible then .refused .inadmissibleConfig
  else
    match s.ports[s.cur]? with
    | none => .refused (.noSuchPort s.cur)
    | some q =>
      match q.cond with
      | .busy _ _ => .next s
      | .idle =>
        if !i.wellFormed s.cfg then .refused .illFormed
        else
          match stop s with
          | some st => st.out
          | none => go (s.accept i)

end Sys2Proof.Machine
end

