-- ==== Sys2Proof/Machine/Operands.lean ====
section
/-! DEFINITION. The operands of a conversion: the layout table, read set and write set, the preconditions P1 to P5 of R143, and
races. -/

namespace Sys2Proof

/-- Column `step` of R140. -/
def Layout.step : Layout → Nat
  | .rgb => 3
  | .rgba => 4
  | .bgr => 3
  | .bgra => 4

/-- Column `offR` of R140. -/
def Layout.offR : Layout → Nat
  | .rgb => 0
  | .rgba => 0
  | .bgr => 2
  | .bgra => 2

/-- Column `offG` of R140. -/
def Layout.offG : Layout → Nat
  | .rgb => 1
  | .rgba => 1
  | .bgr => 1
  | .bgra => 1

/-- Column `offB` of R140. -/
def Layout.offB : Layout → Nat
  | .rgb => 2
  | .rgba => 2
  | .bgr => 0
  | .bgra => 0

/-- Columns `hasA` and `offA` of R140: the sentinel of R141 is `none`. -/
def Layout.offA : Layout → Option Nat
  | .rgb => none
  | .rgba => some 3
  | .bgr => none
  | .bgra => some 3

/-- An interval of addresses `[base, base + len)`. -/
structure Span where
  base : Nat
  len : Nat
deriving DecidableEq, Repr

/-- The address lies in the interval. -/
def Span.has (r : Span) (a : Nat) : Bool := decide (r.base ≤ a) && decide (a < r.base + r.len)

/-- No address lies in both intervals. -/
def Span.disjoint (r t : Span) : Bool :=
  decide (r.len = 0) || decide (t.len = 0) || decide (r.base + r.len ≤ t.base) || decide (t.base + t.len ≤ r.base)

/-- `clen = ceil(n / 2) = (n + 1) >> 1` (section 6 of 20_memory). -/
def Opnd.clen (o : Opnd) : Nat := (o.n.toNat + 1) / 2

/-- The luma bytes of the read set (R59). -/
def Opnd.ySpan (o : Opnd) : Span := { base := o.y.toNat, len := o.n.toNat }

/-- The chroma-U bytes of the read set (R59). -/
def Opnd.uSpan (o : Opnd) : Span := { base := o.u.toNat, len := o.clen }

/-- The chroma-V bytes of the read set (R59). -/
def Opnd.vSpan (o : Opnd) : Span := { base := o.v.toNat, len := o.clen }

/-- The read set (R59). -/
def Opnd.reads (o : Opnd) : List Span := [o.ySpan, o.uSpan, o.vSpan]

/-- The write set (R60): the whole interval `[d, d + n * step)`. -/
def Opnd.writes (o : Opnd) (l : Layout) : Span := { base := o.d.toNat, len := o.n.toNat * l.step }

/-- The interval ends inside the address space (R58). -/
def Span.inSpace (aw : Nat) (r : Span) : Bool := decide (r.base + r.len ≤ 2 ^ aw)

/-- P1 of R143: no range wraps (R58). -/
def noWrap (aw : Nat) (l : Layout) (o : Opnd) : Bool :=
  o.reads.all (Span.inSpace aw) && (o.writes l).inSpace aw

/-- `p` holds of every number below `n`. -/
def allBelow (p : Nat → Bool) : Nat → Bool
  | 0 => true
  | n + 1 => p n && allBelow p n

/-- Every address of the interval is in `MAP`. -/
def Span.allMapped (map : List Region) (r : Span) : Bool := allBelow (fun k => mapped map (r.base + k)) r.len

/-- P2 of R143: every address of the read set and of the write set is in `MAP` (R52). -/
def allMapped (map : List Region) (l : Layout) (o : Opnd) : Bool :=
  o.reads.all (Span.allMapped map) && (o.writes l).allMapped map

/-- P3 of R143: the write set is disjoint from the read set (R61). -/
def selfDisjoint (l : Layout) (o : Opnd) : Bool := o.reads.all (Span.disjoint (o.writes l))

/-- P5 of R143: tier `t` is capable (R202). -/
def capable (c : Config) (t : Byte) : Bool := c.cap.getLsbD t.toNat

/-- R67: each write set is disjoint from the other's write set and read set. -/
def compatible (l : Layout) (o : Opnd) (l' : Layout) (o' : Opnd) : Bool :=
  (o.writes l).disjoint (o'.writes l') && o'.reads.all (Span.disjoint (o.writes l)) &&
    o.reads.all (Span.disjoint (o'.writes l'))

end Sys2Proof

namespace Sys2Proof.Machine

/-- The conversion a port has in flight: its layout, and its operands as the latches hold them (R24, R33). -/
def Port.flight (q : Port) : Option (Layout × Opnd) :=
  match q.cond.cmd with
  | none => none
  | some i => i.layout.map fun l => (l, q.a)

/-- P4 of R143 among commands: compatible with every conversion in flight (R67). -/
def raceFree (s : State) (l : Layout) (o : Opnd) : Bool :=
  s.ports.all fun q => q.flight.all fun f => compatible l o f.1 f.2

/-- The address is in the write set of a conversion in flight. -/
def State.writing (s : State) (a : Nat) : Bool :=
  s.ports.any fun q => q.flight.any fun f => (f.2.writes f.1).has a

/-- The address is in the read set of a conversion in flight. -/
def State.reading (s : State) (a : Nat) : Bool :=
  s.ports.any fun q => q.flight.any fun f => f.2.reads.any fun r => r.has a

/-- The classes of a conversion in the order of R205: U4 (R195), U10 (R202), U6 (R197), U8 (R199), U7 (R198). -/
def convStop (l : Layout) (t : Byte) (o : Opnd) (s : State) : Option Stop :=
  firstStop
    [(!noWrap s.cfg.aw l o, .refuse .wraps),
     (!capable s.cfg t, .fault (.noCapability t)),
     (!allMapped s.cfg.map l o, .fault .unmapped),
     (!selfDisjoint l o, .fault .selfOverlap),
     (!raceFree s l o, .fault .race)]

/-- The classes of `INIT` in the order of R205: U11 (R201, a refusal with one port, a fault with more), U10 (R202),
U2 (R193), U3 (R194). -/
def initStop (t : Byte) (s : State) : Option Stop :=
  firstStop
    [(s.used && decide (s.cfg.np = 1), .refuse .lateInit),
     (s.used, .fault .lateInit),
     (!capable s.cfg t, .fault (.noCapability t)),
     (s.initBusy, .fault .concurrentInit),
     (s.lookupBusy, .fault .initWithLookup)]

/-- The classes of `LOOKUP` in the order of R205: U1 (R192), U3 (R194). -/
def lookupStop (l : Layout) (s : State) : Option Stop :=
  firstStop [(!(s.sr.get l).v, .fault (.lookupEmpty l)), (s.initBusy, .fault .initWithLookup)]

end Sys2Proof.Machine
end

