-- ==== Sys2Proof/Machine/Convert.lean ====
section
/-! DEFINITION. The four conversions: the row procedure of R144, one byte of it (R60), and CONV.RGB, CONV.RGBA, CONV.BGR, CONV.BGRA. -/

namespace Sys2Proof.Machine

/-- The pixel of column `i` (R124, R144): its own luma sample and the chroma pair of index `i >> 1`. -/
def columnPixel (c : Coef) (o : Opnd) (m : Memory) (i : Nat) : Rgb :=
  c.pix (m.read (o.y.toNat + i)) (m.read (o.u.toNat + i / 2)) (m.read (o.v.toNat + i / 2))

/-- The opacity write of R144: 255 at `offA` in a layout that has it (R141). -/
def storeOpacity (l : Layout) (p : Nat) (m : Memory) : Memory :=
  match l.offA with
  | some k => m.write (p + k) 255
  | none => m

/-- One pixel at address `p` (R144): the three colour bytes and, where there is one, the opacity byte. -/
def storePixel (l : Layout) (x : Rgb) (p : Nat) (m : Memory) : Memory :=
  storeOpacity l p (((m.write (p + l.offR) x.r).write (p + l.offG) x.g).write (p + l.offB) x.b)

/-- The body of the loop of R144 for column `i`. -/
def column (c : Coef) (l : Layout) (o : Opnd) (i : Nat) (m : Memory) : Memory :=
  storePixel l (columnPixel c o m i) (o.d.toNat + i * l.step) m

/-- Columns `0 .. n-1` in ascending order (R144). -/
def row (c : Coef) (l : Layout) (o : Opnd) : Nat → Memory → Memory
  | 0, m => m
  | i + 1, m => column c l o i (row c l o i m)

/-- The channel at offset `k` of a pixel (R140). -/
def channelAt (l : Layout) (x : Rgb) (k : Nat) : Byte :=
  if k = l.offR then x.r else if k = l.offG then x.g else if k = l.offB then x.b else 255

/-- The final value of byte `k` of the write set (R60): a byte of column `k / step`. -/
def rowByte (c : Coef) (l : Layout) (o : Opnd) (m : Memory) (k : Nat) : Byte :=
  channelAt l (columnPixel c o m (k / l.step)) (k % l.step)

/-- The first `k` pairs of FI's own loop (R145): one chroma pair is read, then the even and the odd column are written. -/
def pairs (c : Coef) (l : Layout) (o : Opnd) : Nat → Memory → Memory
  | 0, m => m
  | k + 1, m =>
    let before := pairs c l o k m
    let u := before.read (o.u.toNat + k)
    let v := before.read (o.v.toNat + k)
    let even := storePixel l (c.pix (before.read (o.y.toNat + 2 * k)) u v) (o.d.toNat + 2 * k * l.step) before
    storePixel l (c.pix (even.read (o.y.toNat + (2 * k + 1))) u v) (o.d.toNat + (2 * k + 1) * l.step) even

/-- FI's own loop structure (R145): the pairs, and then the odd last column with the chroma sample `n >> 1`. The machine runs
`row`; this is the other form the rule gives. -/
def pairedRow (c : Coef) (l : Layout) (o : Opnd) (m : Memory) : Memory :=
  let n := o.n.toNat
  let before := pairs c l o (n / 2) m
  if n % 2 = 1 then
    storePixel l
      (c.pix (before.read (o.y.toNat + (n - 1))) (before.read (o.u.toNat + n / 2)) (before.read (o.v.toNat + n / 2)))
      (o.d.toNat + (n - 1) * l.step) before
  else before

/-- The whole row of the conversion on the current port, from its latches (R142, R144). -/
def State.runRow (l : Layout) (s : State) : State :=
  match s.ports[s.cur]? with
  | none => s
  | some q => { s with mem := row s.cfg.coef l q.a q.a.n.toNat s.mem }

/-- A conversion completes (R156): response 0, and its latches are unspecified from here on (R25). -/
def convCompletes (s : State) : Out := .next (s.releaseLatches.respond 0)

/-- What the four conversions share: acceptance, the row, completion (R91, R144, R156). -/
def convert (i : Instr) (l : Layout) (t : Byte) (o : Opnd) (s : State) : Out :=
  offer i (convStop l t o) (fun s' => convCompletes (s'.runRow l)) s

/-- `CONV.RGB t, y, u, v, d, n` (R149). -/
def execConvRgb (t : Byte) (o : Opnd) (s : State) : Out := convert (.convRgb t o) .rgb t o s

/-- `CONV.RGBA t, y, u, v, d, n` (R150). -/
def execConvRgba (t : Byte) (o : Opnd) (s : State) : Out := convert (.convRgba t o) .rgba t o s

/-- `CONV.BGR t, y, u, v, d, n` (R151). -/
def execConvBgr (t : Byte) (o : Opnd) (s : State) : Out := convert (.convBgr t o) .bgr t o s

/-- `CONV.BGRA t, y, u, v, d, n` (R152). -/
def execConvBgra (t : Byte) (o : Opnd) (s : State) : Out := convert (.convBgra t o) .bgra t o s

end Sys2Proof.Machine
end

