-- ==== Sys2Proof/Machine/Registry.lean ====
section
/-! DEFINITION. The registry commands: INIT (R172) and LOOKUP (R175). -/

namespace Sys2Proof.Machine

/-- The atomic event of `INIT t` (R68, R172): all four slots become `KREF(t)`, and the command completes. -/
def initCompletes (t : Byte) (s : State) : Out :=
  .next (State.respond { s with sr := Registry.all (Slot.kref t) } 0)

/-- The atomic event of `LOOKUP L` (R68, R175): the response is the kernel reference (R93). -/
def lookupCompletes (l : Layout) (s : State) : Out :=
  if (s.sr.get l).v then .next (s.respond (kernelRef l (s.sr.get l).tier)) else .fault (.lookupEmpty l)

/-- `INIT t` (R172). -/
def execInit (t : Byte) (s : State) : Out := offer (.init t) (initStop t) (initCompletes t) s

/-- `LOOKUP L` (R175). -/
def execLookup (l : Layout) (s : State) : Out := offer (.lookup l) (lookupStop l) (lookupCompletes l) s

end Sys2Proof.Machine
end

