-- ==== Sys2Proof/Machine/Dispatch.lean ====
section
/-! DEFINITION. One arm per command, each a direct call of its meaning. -/

namespace Sys2Proof.Machine

-- Each arm is the meaning of one row of the opcode table.
def exec (i : Instr) (s : State) : Host.Outcome State Fault Refusal :=
  match i with
  | .init t => Sys2Proof.Machine.execInit t s
  | .lookup l => Sys2Proof.Machine.execLookup l s
  | .convRgb t o => Sys2Proof.Machine.execConvRgb t o s
  | .convRgba t o => Sys2Proof.Machine.execConvRgba t o s
  | .convBgr t o => Sys2Proof.Machine.execConvBgr t o s
  | .convBgra t o => Sys2Proof.Machine.execConvBgra t o s

end Sys2Proof.Machine
end

