-- ==== Sys2Proof/Machine/Schedule.lean ====
section
/-! DEFINITION. What each event of the schedule does: presenting a command, one byte of a conversion, completion, the host's
accesses, reset, and what happens when the schedule is empty. -/

namespace Sys2Proof.Machine

/-- The classes of each command, for an acceptance that is not run in the same step. -/
def stopOf (i : Instr) : State → Option Stop :=
  match i with
  | .init t => initStop t
  | .lookup l => lookupStop l
  | .convRgb t o => convStop .rgb t o
  | .convRgba t o => convStop .rgba t o
  | .convBgr t o => convStop .bgr t o
  | .convBgra t o => convStop .bgra t o

/-- Acceptance alone (R91): the port is left `BUSY`. -/
def acceptOnly (i : Instr) (s : State) : Out := offer i (stopOf i) Host.Outcome.next s

/-- The host presents its next command on port `p`, and the port takes it up as `go` says. A port that is `BUSY`, or on which
the host presents nothing (its list is exhausted, or the host waits, R98), accepts nothing and nothing changes
(R91, R210; log 12). -/
def present (go : Instr → State → Out) (p : Nat) (s : State) : Out :=
  match s.ports[p]? with
  | none => .refused (.noSuchPort p)
  | some q =>
    match q.cond with
    | .busy _ _ => .next s
    | .idle =>
      match s.offered q with
      | none => .next s
      | some k =>
        match decode s.cfg k with
        | .error e => .refused (.reserved e)
        | .ok i => go i { s with cur := p }

/-- Adds an offset to the progress of a conversion, keeping it rising. -/
def insertOffset (k : Nat) : List Nat → List Nat
  | [] => [k]
  | j :: rest => if k < j then k :: j :: rest else if k = j then j :: rest else j :: insertOffset k rest

/-- The engine of port `p` writes byte `k` of its write set (R31, R60, R65). Where it has no such byte left to write, nothing
changes: each byte of the write set is written once (R60; log 12). Its source bytes are read now (R65; log 17). -/
def storeByte (p k : Nat) (s : State) : Out :=
  match s.ports[p]? with
  | none => .refused (.noSuchPort p)
  | some q =>
    match q.cond with
    | .idle => .next s
    | .busy i w =>
      match i.layout with
      | none => .next s
      | some l =>
        if decide (k < q.a.n.toNat * l.step) && !w.contains k then
          .next { s.updPort p (fun q' => { q' with cond := .busy i (insertOffset k w) }) with
            mem := s.mem.write (q.a.d.toNat + k) (rowByte s.cfg.coef l q.a s.mem k) }
        else .next s

/-- The bytes of the write set are all written, so the conversion may complete (R156). `INIT` and `LOOKUP` have no
progress (R31). -/
def Port.finished (q : Port) : Bool :=
  match q.cond with
  | .idle => false
  | .busy i w =>
    match i.layout with
    | none => true
    | some l => w.length == q.a.n.toNat * l.step

/-- The completion event of command `i` (R92). -/
def completes (i : Instr) (s : State) : Out :=
  match i with
  | .init t => initCompletes t s
  | .lookup l => lookupCompletes l s
  | .convRgb _ _ => convCompletes s
  | .convRgba _ _ => convCompletes s
  | .convBgr _ _ => convCompletes s
  | .convBgra _ _ => convCompletes s

/-- Port `p` completes its command (R92), once a conversion has written all of its write set; before that nothing changes
(log 12). -/
def completePort (p : Nat) (s : State) : Out :=
  match s.ports[p]? with
  | none => .refused (.noSuchPort p)
  | some q =>
    match q.cond with
    | .idle => .next s
    | .busy i _ => if q.finished then completes i { s with cur := p } else .next s

/-- The host writes a byte: a race if it belongs to a conversion in flight (R67, R198). -/
def hostWrites (a : Nat) (v : Byte) (s : State) : Out :=
  if !mapped s.cfg.map a then .fault (.hostUnmapped a)
  else if s.writing a || s.reading a then .fault .race
  else .next { s with mem := s.mem.write a v }

/-- The host reads a byte: a race if a conversion in flight writes it (R67, R198). -/
def hostReads (a : Nat) (s : State) : Out :=
  if !mapped s.cfg.map a then .fault (.hostUnmapped a)
  else if s.writing a then .fault .race
  else .next { s with seen := s.seen ++ [(a, s.mem.read a)] }

/-- A port at the reset event (R220, R221): a command in flight is abandoned with no response. The host's list and the
responses it already holds stay; its index is 0 again (R35; log 13). -/
def Port.atReset (q : Port) : Port :=
  { q with cond := .idle, a := latchesAtReset, cidx := 0, before := q.rsps.length }

/-- The reset event (R220): memory is not touched. -/
def State.atReset (s : State) : State :=
  { s with sr := Registry.empty, ports := s.ports.map Port.atReset, used := false, cur := 0 }

/-- One event of the schedule. -/
def perform (e : Event) (s : State) : Out :=
  match e with
  | .run p => present exec p s
  | .accept p => present acceptOnly p s
  | .store p k => storeByte p k s
  | .complete p => completePort p s
  | .hostWrite a v => hostWrites a v s
  | .hostRead a => hostReads a s
  | .reset => .next s.atReset

/-- The lowest offset below `n` that is not yet written, counting up from `k`. -/
def nextOffset (w : List Nat) (k : Nat) : Nat → Option Nat
  | 0 => none
  | n + 1 => if w.contains k then nextOffset w (k + 1) n else some k

/-- What the engine of a port does of itself: its next unwritten byte, and when there is none, completion. -/
def Port.move (p : Nat) (q : Port) : Event :=
  match q.cond with
  | .idle => .run p
  | .busy i w =>
    match i.layout with
    | none => .complete p
    | some l =>
      match nextOffset w 0 (q.a.n.toNat * l.step) with
      | some k => .store p k
      | none => .complete p

/-- The first port, counting from `p`, that `sel` picks. -/
def findPort (sel : Port → Bool) (p : Nat) : List Port → Option (Nat × Port)
  | [] => none
  | q :: rest => if sel q then some (p, q) else findPort sel (p + 1) rest

/-- What happens when the schedule is empty (log 9): commands in flight go on, lowest port first (R92); when none is in
flight, the lowest port on which the host presents a command runs it; when there is none, the block stays as it is
(R210, R232). -/
def idleMove (s : State) : Out :=
  match findPort (fun q => !q.cond.isIdle) 0 s.ports with
  | some (p, q) => perform (q.move p) s
  | none =>
    match findPort (fun q => (s.offered q).isSome) 0 s.ports with
    | some (p, _) => perform (.run p) s
    | none => .next s

/-- The next event, or what happens without one. -/
def advance (s : State) : Out :=
  match s.sched with
  | [] => idleMove s
  | e :: rest => perform e { s with sched := rest }

end Sys2Proof.Machine
end

