-- ==== Sys2Proof/Machine/Program.lean ====
section
/-! DEFINITION. The host's side: the programs the model refuses before they run (R232), the pseudo-instructions (R98), the end of
a run (R232). -/

namespace Sys2Proof.Machine

/-- The word that command `j` of port `p` returns, as far as the lists alone show it (R92, R93): a kernel reference for a
`LOOKUP`, of a tier that only the run shows (tier 0 stands for it), and 0 otherwise. -/
def returnedWord (c : Config) (ports : List Port) (p j : Nat) : Word :=
  match ports[p]?.bind fun q => q.prog[j]? with
  | some { src := .word w, opnd := _, need := _ } =>
    match decode c { cw := w, opnd := Opnd.zero } with
    | .ok (.lookup l) => kernelRef l 0
    | _ => 0
  | _ => 0

/-- The command by which an entry is judged before the run: its own, with `returnedWord` for the word of a `CALL`. -/
def shapeOf (c : Config) (ports : List Port) (x : Issue) : Command :=
  match x.src with
  | .word w => { cw := w, opnd := x.opnd }
  | .response p j => { cw := returnedWord c ports p j, opnd := x.opnd }

/-- A port's list as the commands it is judged by. -/
def State.shapes (s : State) (q : Port) : List Command := q.prog.map fun x => shapeOf s.cfg s.ports x

/-- The commands of a port's list, decoded; a reserved one is left out (`firstReject` reports it). -/
def State.instrs (s : State) (q : Port) : List Instr := (s.shapes q).filterMap fun k => (decode s.cfg k).toOption

/-- The first command of the list that the decoder rejects. -/
def firstReject (c : Config) : List Command → Option Reject
  | [] => none
  | k :: rest =>
    match decode c k with
    | .error e => some e
    | .ok _ => firstReject c rest

/-- An `INIT` stands after a `LOOKUP` in the list (R201); `looked` says one has been seen. -/
def lateInitIn : Bool → List Instr → Bool
  | _, [] => false
  | looked, i :: rest => (looked && i.isInit) || lateInitIn (looked || i.isLookup) rest

/-- A conversion whose ranges wrap (R195). -/
def instrWraps (c : Config) (i : Instr) : Bool :=
  match i.layout, i.opnd with
  | some l, some o => !noWrap c.aw l o
  | _, _ => false

/-- The programs and configurations the model gives no meaning, before they run, in the order of R205: U12 (R203), U9
(R200), U11 where there is one port (R201), U4 (R195). They are decidable from the command lists (R232; log 14). -/
def programRefusal (s : State) : Option Refusal :=
  if !s.cfg.admissible then some .inadmissibleConfig
  else
    match firstReject s.cfg (s.ports.flatMap s.shapes) with
    | some e => some (.reserved e)
    | none =>
      if decide (s.cfg.np = 1) && s.ports.any (fun q => lateInitIn false (s.instrs q)) then some .lateInit
      else if s.ports.any (fun q => (s.instrs q).any (instrWraps s.cfg)) then some .wraps
      else none

/-- One step: a refused program has no meaning; otherwise the next thing happens. -/
def move (s : State) : Out :=
  match programRefusal s with
  | some r => .refused r
  | none => advance s

/-- The entry that issues `k` with nothing to wait for. -/
def issueOf (k : Command) : Issue := { src := .word k.cw, opnd := k.opnd, need := [] }

/-- Places command `k` on port 0 as the very next thing to run: the host's list is that one command, the port is idle, and the
schedule begins with its run (log 3). A machine without a port 0 is given one. -/
def State.place (s : State) (k : Command) : State :=
  { s with
    ports :=
      match s.ports with
      | [] => [{ Port.reset with prog := [issueOf k] }]
      | q :: rest => { q with cond := .idle, prog := [issueOf k], cidx := 0, before := q.rsps.length } :: rest
    sched := .run 0 :: s.sched }

/-! The assembler of R97 and the pseudo-instructions of R98, each a host-side sequence of commands (log 19). -/

/-- `CALL k, y, u, v, d, n` of a word (R98): it is sent back as a command word (R93, R177). -/
def callCommand (k : Word) (o : Opnd) : Command := { cw := k, opnd := o }

/-- The tiers below `n`, ascending, that are capable. -/
def capableBelow (c : Config) : Nat → List Byte
  | 0 => []
  | n + 1 => capableBelow c n ++ (if capable c (BitVec.ofNat 8 n) then [BitVec.ofNat 8 n] else [])

/-- `INITALL`: `INIT 0`, then `INIT t` for `t` = 1, 2, ..., `NT`-1 if and only if `CAP[t]` (R98, R222). On one port each
waits for the completion of the one before (R91). -/
def initAllCommands (c : Config) : List Command :=
  encode (.init 0) :: ((capableBelow c c.nt).filter (fun t => t ≠ 0)).map fun t => encode (.init t)

/-- Every port is `IDLE`. -/
def State.allIdle (s : State) : Bool := s.ports.all fun q => q.cond.isIdle

/-- An assembler form of R97 or R98, as data (log 19). The name `k` of a response word is a number. -/
inductive AsmOp where
  | init (t : Byte)
  /-- `LOOKUP L -> k`; a line may give no name. -/
  | lookup (l : Layout) (k : Option Nat)
  | conv (l : Layout) (t : Byte) (o : Opnd)
  /-- `CALL` of a word the host holds. -/
  | call (w : Word) (o : Opnd)
  /-- `CALL k` of the word that `k` names. -/
  | callName (k : Nat) (o : Opnd)
  | convl (l : Layout) (o : Opnd)
  | initAll
  | wait
deriving DecidableEq, Repr

/-- A line of R97: the port prefix (0 when absent) and the form. -/
structure AsmLine where
  port : Nat := 0
  op : AsmOp
deriving DecidableEq, Repr

/-- What the lines before leave to the lines after: which command's response each name stands for (port and place in its
list, latest first), and what the last `WAIT` waits for. -/
structure Loading where
  names : List (Nat × Nat × Nat)
  need : List Nat
deriving DecidableEq, Repr

/-- Before the first line: no names, and nothing to wait for. -/
def Loading.start : Loading := { names := [], need := [] }

/-- The entries of one line for port `p`, whose list has `j` entries. `CONVL` is a `LOOKUP` and the `CALL` of its response
(R98, R178); `WAIT` is no entry but holds back those after it (`AsmOp.leaves`). A name no line gives is no program
(log 19). -/
def AsmOp.issues (c : Config) (ld : Loading) (p j : Nat) : AsmOp → Except Refusal (List Issue)
  | .init t => .ok [{ issueOf (encode (.init t)) with need := ld.need }]
  | .lookup l _ => .ok [{ issueOf (encode (.lookup l)) with need := ld.need }]
  | .conv l t o => .ok [{ issueOf (encode (Instr.conv l t o)) with need := ld.need }]
  | .call w o => .ok [{ issueOf (callCommand w o) with need := ld.need }]
  | .callName k o =>
    match ld.names.lookup k with
    | some (p', j') => .ok [{ src := .response p' j', opnd := o, need := ld.need }]
    | none => .error (.unknownName k)
  | .convl l o =>
    .ok [{ issueOf (encode (.lookup l)) with need := ld.need }, { src := .response p j, opnd := o, need := ld.need }]
  | .initAll => .ok ((initAllCommands c).map fun k => { issueOf k with need := ld.need })
  | .wait => .ok []

/-- What a line leaves to the lines after it: the name a `LOOKUP` gives its response (R97), and after a `WAIT` that every
command in the lists must have completed (R98). -/
def AsmOp.leaves (ports : List Port) (ld : Loading) (p j : Nat) : AsmOp → Loading
  | .lookup _ (some k) => { ld with names := (k, p, j) :: ld.names }
  | .wait => { ld with need := ports.map fun q => q.prog.length }
  | _ => ld

/-- The host adds entries to the list of port `p`. A port that does not exist is the refusal `noSuchPort`: the spec gives a
line for one no meaning (DESIGN CHOICE, log 11). -/
def State.load (s : State) (p : Nat) (xs : List Issue) : Except Refusal State :=
  if p < s.ports.length then .ok (s.updPort p fun q => { q with prog := q.prog ++ xs }) else .error (.noSuchPort p)

/-- The host loads one assembler line (R97). A prefix that names a port that does not exist is the refusal `noSuchPort`
(DESIGN CHOICE, log 11). -/
def State.loadLine (s : State) (ld : Loading) (x : AsmLine) : Except Refusal (State × Loading) :=
  match s.ports[x.port]? with
  | none => .error (.noSuchPort x.port)
  | some q =>
    match x.op.issues s.cfg ld x.port q.prog.length with
    | .error r => .error r
    | .ok xs =>
      match s.load x.port xs with
      | .error r => .error r
      | .ok t => .ok (t, x.op.leaves s.ports ld x.port q.prog.length)

/-- The host loads a program's lines in turn. -/
def State.loadLines (s : State) (ld : Loading) : List AsmLine → Except Refusal State
  | [] => .ok s
  | x :: rest =>
    match s.loadLine ld x with
    | .error r => .error r
    | .ok (t, ld') => t.loadLines ld' rest

/-- The run is final (R232): every command list is exhausted and every port is `IDLE`. No fault is recorded in a state the
machine is in, since a fault ends the run (R206; log 15). -/
def State.final (s : State) : Bool := s.allIdle && s.ports.all fun q => q.pending.isNone

/-- What the host can observe of a final run (R232): the responses of each port, and memory. -/
def State.observable (s : State) : List (List Word) × Memory := (s.ports.map Port.rsps, s.mem)

end Sys2Proof.Machine
end

