-- ==== Sys2Proof/Machine/Step.lean ====
section
/-! DEFINITION. The step function and the placing of a command to run next. -/

namespace Sys2Proof.Machine

/-- One step of the machine (R7, R232). -/
def step (s : State) : Host.Outcome State Fault Refusal := move s

/-- The table word `w` placed so that the next step presents it on port 0 and runs it (log 3). -/
def State.withFetchWord (s : State) (_nbits w : Nat) : State := s.place (tableCommand w)

end Sys2Proof.Machine
end

