-- ==== Sys2Proof/Safety.lean ====
section
/-! DEFINITION. What a well-formed and safe state of the block is, and the contract of each command, in the terms the statements use. -/

namespace Sys2Proof.Machine

/-- The configuration admits a machine, and the port a command is presented on exists and is `IDLE` (R91, R203). -/
def State.readyPort (s : State) (q : Port) : Prop :=
  s.cfg.admissible = true ∧ s.ports[s.cur]? = some q ∧ q.cond = .idle

/-- The contract of `INIT t` (R172): the tier exists and is capable, the registry has not been used, and no registry
command is in flight on any port. -/
def initContract (t : Byte) (s : State) : Prop :=
  t.toNat < s.cfg.nt ∧ capable s.cfg t = true ∧ s.used = false ∧ s.initBusy = false ∧ s.lookupBusy = false

/-- The contract of `LOOKUP L` (R175): the slot is populated, and no `INIT` is in flight on any port. -/
def lookupContract (l : Layout) (s : State) : Prop :=
  (s.sr.get l).v = true ∧ s.initBusy = false

/-- The contract of a conversion: P1 to P5 of R143, for a tier that exists and operands of the width R86 gives them. P4 is
the part of R67 that concerns the conversions in flight; the host's part is the events' (`hostWrites`, `hostReads`). -/
def convContract (l : Layout) (t : Byte) (o : Opnd) (s : State) : Prop :=
  t.toNat < s.cfg.nt ∧ o.fits s.cfg.aw = true ∧ noWrap s.cfg.aw l o = true ∧ allMapped s.cfg.map l o = true ∧
    selfDisjoint l o = true ∧ raceFree s l o = true ∧ capable s.cfg t = true

/-- The contract of a command. -/
def contract (i : Instr) (s : State) : Prop :=
  match i with
  | .init t => initContract t s
  | .lookup l => lookupContract l s
  | .convRgb t o => convContract .rgb t o s
  | .convRgba t o => convContract .rgba t o s
  | .convBgr t o => convContract .bgr t o s
  | .convBgra t o => convContract .bgra t o s

/-- How many bytes a command writes: the write set of a conversion (R60), none otherwise (R172, R175). -/
def bytesWritten (i : Instr) : Nat :=
  match i.layout, i.opnd with
  | some l, some o => o.n.toNat * l.step
  | _, _ => 0

/-- Memory is canonical and holds only bytes of `MAP` (R52). -/
def MemOk (s : State) : Prop := s.mem.wf ∧ ∀ c ∈ s.mem, mapped s.cfg.map c.1 = true

/-- The four slots are populated together, and where they are they hold the same tier (R23). The `TIER` bits of an EMPTY slot
are no part of it (R22). -/
def RegistryUniform (s : State) : Prop :=
  ∀ l, (s.sr.get l).v = s.sr.rgb.v ∧ (s.sr.rgb.v = true → (s.sr.get l).tier = s.sr.rgb.tier)

/-- A populated slot names a tier that exists (R23) and that some `INIT` of a capable tier wrote (R202). -/
def RegistryLegal (s : State) : Prop :=
  s.sr.rgb.v = true → s.sr.rgb.tier.toNat < s.cfg.nt ∧ capable s.cfg s.sr.rgb.tier = true

/-- Once the registry has been used it is populated, and no `INIT` is in flight (R32, R181, R208). -/
def UsePhase (s : State) : Prop := s.used = true → s.sr.rgb.v = true ∧ s.initBusy = false

/-- What a `BUSY` port promises of the command in flight: it is inside its contract, a conversion's latches hold its
operands (R24, R31), and its progress is a rising list of offsets of its write set. -/
def FlightOk (c : Config) (r : Registry) (q : Port) : Prop :=
  match q.cond with
  | .idle => True
  | .busy i w =>
    i.wellFormed c = true ∧
      match i.layout, i with
      | some l, i =>
        i.opnd = some q.a ∧ noWrap c.aw l q.a = true ∧ allMapped c.map l q.a = true ∧ selfDisjoint l q.a = true ∧
          List.Pairwise (· < ·) w ∧ ∀ k ∈ w, k < q.a.n.toNat * l.step
      | none, .init t => capable c t = true ∧ w = []
      | none, .lookup l => (r.get l).v = true ∧ w = []
      | none, _ => True

/-- Two ports whose commands may be in flight together (R67, R68): no two `INIT`s, no `INIT` with a `LOOKUP`, and no two
conversions that are not compatible. -/
def MayOverlap (q q' : Port) : Prop :=
  (∀ f f', q.flight = some f → q'.flight = some f' → compatible f.1 f.2 f'.1 f'.2 = true) ∧
    (q.cond.cmd.any Instr.isInit = true → q'.cond.cmd.any Instr.isInit = false ∧ q'.cond.cmd.any Instr.isLookup = false) ∧
    (q.cond.cmd.any Instr.isLookup = true → q'.cond.cmd.any Instr.isInit = false)

/-- Any two commands in flight may be in flight together. -/
def RaceFreeFlights (s : State) : Prop := List.Pairwise MayOverlap s.ports

/-- Each command that a port has accepted since the last reset, but for the one in flight, has sent exactly one response
(R92). -/
def Port.oneResponseEach (q : Port) : Prop := q.rsps.length + (if q.cond.isIdle then 0 else 1) = q.before + q.cidx

/-- The ports are the `NP` of the configuration (R209), each with latches of the width R24 gives them, a host index that does
not pass the end of its list (R30) and one response for each command completed (R92), and the current port is one of
them. -/
def PortsOk (s : State) : Prop :=
  s.ports.length = s.cfg.np ∧ s.cur < s.ports.length ∧
    ∀ q ∈ s.ports, q.a.fits s.cfg.aw = true ∧ q.cidx ≤ q.prog.length ∧ q.oneResponseEach

/-- Every command in flight keeps its promise. -/
def FlightsOk (s : State) : Prop := ∀ q ∈ s.ports, FlightOk s.cfg s.sr q

/-- The invariant of the machine. -/
structure Inv (s : State) : Prop where
  mem : MemOk s
  uniform : RegistryUniform s
  legal : RegistryLegal s
  phase : UsePhase s
  ports : PortsOk s
  flights : FlightsOk s
  races : RaceFreeFlights s

/-- The work left in the ports that are `BUSY`: the completion of each, and the unwritten bytes of each conversion
(R230). -/
def Port.work (q : Port) : Nat :=
  match q.cond with
  | .idle => 0
  | .busy i w =>
    match i.layout with
    | none => 1
    | some l => 1 + (q.a.n.toNat * l.step - w.length)

/-- The work left in flight on all ports. -/
def State.work (s : State) : Nat := (s.ports.map Port.work).sum

end Sys2Proof.Machine
end

