-- ==== Sys2Proof/Certificates/Slice0/Obligations.lean ====
section
/-! DEFINITION. The statements about the block, for the provers. -/

open Sys2Proof Sys2Proof.Machine

/-! ## Encoding -/

/-- 30_encoding R99 (its round trip): every well-formed command is read back from its encoding, with every operand at every
value the encoding admits. -/
def Obligations.DecodeReadsBackEveryCommand : Prop :=
  ∀ (c : Config) (i : Instr), i.wellFormed c = true → decode c (encode i) = .ok i

/-- R99: the decoder answers a command exactly for that command's own word (and, for a conversion, its own operands), and so
answers `RESERVED` for every other word. The bundle is of the width R86 gives it. -/
def Obligations.DecoderAcceptsExactlyTheEncodings : Prop :=
  ∀ (c : Config) (k : Command) (i : Instr), k.opnd.fits c.aw = true →
    (decode c k = .ok i ↔
      i.wellFormed c = true ∧ (encode i).cw = k.cw ∧ ∀ o, i.opnd = some o → o = k.opnd)

/-- R94: the reserved words, by the fields of R81. The bundle is of the width R86 gives it. -/
def Obligations.ReservedWordsAreRejected : Prop :=
  ∀ (c : Config) (w : Word) (o : Opnd), o.fits c.aw = true →
    ((∃ e, decode c { cw := w, opnd := o } = .error e) ↔
      (w.extractLsb' 0 4 = 0 ∨ 4 ≤ (w.extractLsb' 0 4).toNat) ∨ w.extractLsb' 6 2 ≠ 0 ∨ w.extractLsb' 16 16 ≠ 0 ∨
        (w.extractLsb' 0 4 = 1 ∧ w.extractLsb' 4 2 ≠ 0) ∨ (w.extractLsb' 0 4 = 2 ∧ w.extractLsb' 8 8 ≠ 0) ∨
        ((w.extractLsb' 0 4 = 1 ∨ w.extractLsb' 0 4 = 3) ∧ c.nt ≤ (w.extractLsb' 8 8).toNat))

/-- R88: which words are `INIT`, by mask and match, and the word of `INIT t`. -/
def Obligations.InitWordsByMaskAndMatch : Prop :=
  ∀ (c : Config) (w : Word) (o : Opnd) (t : Byte),
    ((∃ t', decode c { cw := w, opnd := o } = .ok (.init t')) ↔
      w &&& 0xFFFF00FF = 0x00000001 ∧ (w.extractLsb' 8 8).toNat < c.nt) ∧
    (decode c { cw := w, opnd := o } = .ok (.init t) ↔
      w = (0x00000001 : Word) ||| (t.setWidth 32 <<< 8) ∧ t.toNat < c.nt)

/-- R89: which words are `LOOKUP`, by mask and match, and the word of `LOOKUP L` by the layout's number. -/
def Obligations.LookupWordsByMaskAndMatch : Prop :=
  ∀ (c : Config) (w : Word) (o : Opnd) (l : Layout),
    ((∃ l', decode c { cw := w, opnd := o } = .ok (.lookup l')) ↔ w &&& 0xFFFFFFCF = 0x00000002) ∧
    (decode c { cw := w, opnd := o } = .ok (.lookup l) ↔
      w = match l with | .rgb => 0x02 | .rgba => 0x12 | .bgr => 0x22 | .bgra => 0x32)

/-- R90: which words are each conversion, by mask and match, and the word of `CONV.<L> t`. The bundle is of the width R86
gives it, and becomes the operands unchanged (R87). -/
def Obligations.ConversionWordsByMaskAndMatch : Prop :=
  ∀ (c : Config) (w : Word) (o : Opnd) (t : Byte) (l : Layout), o.fits c.aw = true →
    ((∃ t', decode c { cw := w, opnd := o } = .ok (Instr.conv l t' o)) ↔
      (w &&& 0xFFFF00FF = match l with | .rgb => 0x03 | .rgba => 0x13 | .bgr => 0x23 | .bgra => 0x33) ∧
        (w.extractLsb' 8 8).toNat < c.nt) ∧
    (decode c { cw := w, opnd := o } = .ok (Instr.conv l t o) ↔
      w = (0x00000003 : Word) ||| (l.field.setWidth 32 <<< 4) ||| (t.setWidth 32 <<< 8) ∧ t.toNat < c.nt)

/-- 95_test_vectors B7: words written out from the spec's table, in a machine of two tiers. -/
def Obligations.SampleWordsOfEachCommandDecode : Prop :=
  let c : Config := { Config.reset with nt := 2 }
  let z : Opnd := { y := 0x1000, u := 0x2000, v := 0x3000, d := 0x4000, n := 3 }
  decode c { cw := 0x00000101, opnd := z } = .ok (.init 1) ∧
    decode c { cw := 0x00000032, opnd := z } = .ok (.lookup .bgra) ∧
    decode c { cw := 0x00000103, opnd := z } = .ok (.convRgb 1 z) ∧
    decode c { cw := 0x00000013, opnd := z } = .ok (.convRgba 0 z) ∧
    decode c { cw := 0x00000123, opnd := z } = .ok (.convBgr 1 z) ∧
    decode c { cw := 0x00000133, opnd := z } = .ok (.convBgra 1 z) ∧
    decode c { cw := 0x00000201, opnd := z } = .error .tierRange

/-! ## One step -/

/-- When the schedule says that port `p` runs its next command, and that command decodes, the step is `exec` of it on that
port, with the event taken off the schedule (logs 3, 9). -/
def Obligations.StepRunsTheDecodedCommand : Prop :=
  ∀ (s : State) (p : Nat) (rest : List Event) (q : Port) (k : Command) (i : Instr),
    programRefusal s = none → s.sched = .run p :: rest → s.ports[p]? = some q → q.cond = .idle →
    s.offered q = some k → decode s.cfg k = .ok i →
    step s = exec i { s with sched := rest, cur := p }

/-- With an empty schedule and every port idle, the step is `exec` of the command on the lowest port on which the host presents
one (the order is the model's, log 9), and when it presents none the block stays as it is (R210). -/
def Obligations.StepWithoutScheduleTakesTheLowestPort : Prop :=
  ∀ (s : State), programRefusal s = none → s.sched = [] → s.allIdle = true →
    (∀ (p : Nat) (q : Port) (k : Command) (i : Instr),
      s.ports[p]? = some q → (∀ j < p, ∀ q', s.ports[j]? = some q' → s.offered q' = none) → s.offered q = some k →
      decode s.cfg k = .ok i → step s = exec i { s with cur := p }) ∧
    ((∀ q ∈ s.ports, s.offered q = none) → step s = .next s)

/-- R232: which programs are refused whatever the schedule. A program that holds on any port a command the decoder rejects
(R200); where it holds none, with one port, a program with an `INIT` after a `LOOKUP` (R201); where neither, a program with a
conversion whose ranges wrap (R195). A command rejected for the width of its operands is log 8's choice; that a state in the middle
of a run is refused too is log 14 (DEDUCED); the word a `CALL` is judged by is log 19's. -/
def Obligations.ProgramsWithoutMeaningAreRefused : Prop :=
  ∀ (s : State) (q : Port), s.cfg.admissible = true → q ∈ s.ports →
    let late (q' : Port) := ∃ (j j' : Nat) (k k' : Command) (l : Layout) (t : Byte), j < j' ∧
      (s.shapes q')[j]? = some k ∧ decode s.cfg k = .ok (.lookup l) ∧
      (s.shapes q')[j']? = some k' ∧ decode s.cfg k' = .ok (.init t)
    (∀ k e, k ∈ s.shapes q → decode s.cfg k = .error e → ∃ e', step s = .refused (.reserved e')) ∧
    ((∀ q' ∈ s.ports, ∀ k ∈ s.shapes q', ∃ i, decode s.cfg k = .ok i) →
      (s.cfg.np = 1 → late q → step s = .refused .lateInit) ∧
      ((s.cfg.np ≠ 1 ∨ ∀ q' ∈ s.ports, ¬ late q') →
        ∀ (k : Command) (l : Layout) (t : Byte) (o : Opnd), k ∈ s.shapes q → decode s.cfg k = .ok (Instr.conv l t o) →
          noWrap s.cfg.aw l o = false → step s = .refused .wraps))

/-- R203: an inadmissible configuration has no machine, so no step. -/
def Obligations.InadmissibleConfigurationIsRefused : Prop :=
  ∀ (s : State), s.cfg.admissible = false → step s = .refused .inadmissibleConfig

/-- R91: a port that is `BUSY` accepts nothing; the command offered waits. That the step which is not enabled is a step that
changes nothing is the model's reading (log 12, DEDUCED). -/
def Obligations.BusyPortAcceptsNothing : Prop :=
  ∀ (s : State) (q : Port) (j : Instr) (w : List Nat) (i : Instr),
    s.cfg.admissible = true → s.ports[s.cur]? = some q → q.cond = .busy j w → exec i s = .next s

/-- R91, R25, R30, R32: what acceptance does. The port becomes `BUSY` with nothing written, a conversion's operands go into the
latches and no other command touches them, `cidx` moves by one, a `LOOKUP` sets `USED`; nothing else changes. -/
def Obligations.AcceptanceLoadsTheLatches : Prop :=
  ∀ (s : State) (q : Port) (i : Instr),
    s.readyPort q → i.wellFormed s.cfg = true → stopOf i s = none →
    ∃ t, acceptOnly i s = .next t ∧
      t = { s with ports := t.ports, used := t.used } ∧
      t.ports[s.cur]? = some { q with
        cond := .busy i [], a := (match i.opnd with | some o => o | none => q.a), cidx := q.cidx + 1 } ∧
      (∀ j, j ≠ s.cur → t.ports[j]? = s.ports[j]?) ∧
      (t.used = true ↔ s.used = true ∨ ∃ l, i = .lookup l)

/-! ## The registry commands -/

/-- R172: `INIT t`, whose word is `1 | t << 8`, fills all four slots with `KREF(t)` inside its contract and responds 0; nothing
else changes but the host's index. -/
def Obligations.InitFillsAllFourSlots : Prop :=
  ∀ (s : State) (q : Port) (t : Byte), s.readyPort q → initContract t s →
    exec (.init t) s = .next { s with
      sr := { rgb := { v := true, tier := t }, rgba := { v := true, tier := t },
              bgr := { v := true, tier := t }, bgra := { v := true, tier := t } }
      ports := s.ports.modify s.cur fun p => { p with cidx := p.cidx + 1, rsps := p.rsps ++ [0x00000000] } } ∧
      (encode (.init t)).cw = (0x00000001 : Word) ||| (t.setWidth 32 <<< 8)

/-- R175, R93: `LOOKUP L`, whose word is `2 | L << 4`, responds inside its contract with the kernel reference `3 | L << 4 | t << 8`
of the slot's tier and sets `USED`; nothing else changes but the host's index. -/
def Obligations.LookupAnswersTheKernelReference : Prop :=
  ∀ (s : State) (q : Port) (l : Layout), s.readyPort q → lookupContract l s →
    exec (.lookup l) s = .next { s with
      used := true
      ports := s.ports.modify s.cur fun p =>
        { p with
          cidx := p.cidx + 1
          rsps := p.rsps ++
            [(0x00000003 : Word) ||| (l.field.setWidth 32 <<< 4) ||| ((s.sr.get l).tier.setWidth 32 <<< 8)] } } ∧
      (encode (.lookup l)).cw = (0x00000002 : Word) ||| (l.field.setWidth 32 <<< 4)

/-- R173, R174: of two `INIT`s in turn the last one wins, and `INIT t` twice leaves the registry of `INIT t` once. -/
def Obligations.LastInitWinsAndIsIdempotent : Prop :=
  ∀ (s : State) (q : Port) (t t' : Byte), s.readyPort q → initContract t s → initContract t' s →
    ∃ s1 s2 s3, exec (.init t) s = .next s1 ∧ exec (.init t') s1 = .next s2 ∧ exec (.init t') s2 = .next s3 ∧
      (∀ l, s2.sr.get l = Slot.kref t') ∧ s3.sr = s2.sr

/-- R178, R93: the response of `LOOKUP L`, sent back as a command word with operands, is the conversion of layout `L` at the
tier of the slot; and `CONVL`, as the host's list holds it (a `LOOKUP`, and the `CALL` of its response, log 19), run on one port,
ends as that conversion after that `LOOKUP` does. -/
def Obligations.LookupThenCallConvertsThatLayout : Prop :=
  ∀ (s : State) (q : Port) (l : Layout) (o : Opnd), s.readyPort q → lookupContract l s →
    (s.sr.get l).tier.toNat < s.cfg.nt → o.fits s.cfg.aw = true →
    ∃ t q' k, exec (.lookup l) s = .next t ∧ t.ports[s.cur]? = some q' ∧ q'.rsps = q.rsps ++ [k] ∧
      decode s.cfg (callCommand k o) = .ok (Instr.conv l (s.sr.get l).tier o) ∧
      (q.oneResponseEach → programRefusal s = none →
        q.prog[q.cidx]? = some (issueOf (encode (.lookup l))) →
        q.prog[q.cidx + 1]? = some { src := .response s.cur q.cidx, opnd := o, need := [] } →
        Host.Core.run core 2 { s with sched := .run s.cur :: .run s.cur :: s.sched } =
          exec (Instr.conv l (s.sr.get l).tier o) t)

/-- R222: the last command of `INITALL` is the `INIT` of the largest capable tier. -/
def Obligations.InitAllEndsWithTheBestTier : Prop :=
  ∀ (c : Config), c.admissible = true →
    ∃ t, (initAllCommands c).getLast? = some (encode (.init t)) ∧ t.toNat < c.nt ∧ capable c t = true ∧
      ∀ t' : Byte, t'.toNat < c.nt → capable c t' = true → t'.toNat ≤ t.toNat

/-- What `INIT` and `LOOKUP` leave unchanged: all of memory, the configuration, every other port, the port's latches and
command list, the model's own fields; `LOOKUP` the registry, `INIT` the bit `USED`. -/
def Obligations.RegistryCommandsFrame : Prop :=
  ∀ (s t : State) (i : Instr), (∃ r, i = .init r) ∨ (∃ l, i = .lookup l) → exec i s = .next t →
    t.mem = s.mem ∧ (∀ a, t.mem.read a = s.mem.read a) ∧ t.cfg = s.cfg ∧ t.cur = s.cur ∧ t.sched = s.sched ∧
      t.seen = s.seen ∧ t.fresh = s.fresh ∧ t.ports.length = s.ports.length ∧
      (∀ j, j ≠ s.cur → t.ports[j]? = s.ports[j]?) ∧
      (∀ q q', s.ports[s.cur]? = some q → t.ports[s.cur]? = some q' → q'.a = q.a ∧ q'.prog = q.prog) ∧
      ((∃ l, i = .lookup l) → t.sr = s.sr) ∧ ((∃ r, i = .init r) → t.used = s.used)

/-! ## The conversions -/

/-- R149: `CONV.RGB t`, whose word is `0x03 | t << 8`, inside its contract writes pixel `i` at `d + 3i` (red), `d + 3i + 1`
(green), `d + 3i + 2` (blue), with `PIX` of luma sample `i` and chroma pair `i >> 1`, leaves every other byte alone, and responds
0. The latches end with unspecified values `a'` (R25). -/
def Obligations.ConvRgbWritesTheRow : Prop :=
  ∀ (s : State) (q : Port) (t : Byte) (o : Opnd), s.readyPort q → convContract .rgb t o s → s.mem.wf →
    ∃ m a', exec (.convRgb t o) s = .next { s with
        mem := m
        ports := s.ports.modify s.cur fun p => { p with a := a', cidx := p.cidx + 1, rsps := p.rsps ++ [0x00000000] }
        fresh := s.fresh + 1 } ∧
      (∀ i < o.n.toNat,
        let x := s.cfg.coef.pix (s.mem.read (o.y.toNat + i)) (s.mem.read (o.u.toNat + i / 2)) (s.mem.read (o.v.toNat + i / 2))
        m.read (o.d.toNat + 3 * i) = x.r ∧ m.read (o.d.toNat + 3 * i + 1) = x.g ∧ m.read (o.d.toNat + 3 * i + 2) = x.b) ∧
      (∀ a, (a < o.d.toNat ∨ o.d.toNat + 3 * o.n.toNat ≤ a) → m.read a = s.mem.read a) ∧
      encode (.convRgb t o) = { cw := (0x00000003 : Word) ||| (t.setWidth 32 <<< 8), opnd := o }

/-- R150: `CONV.RGBA t`, whose word is `0x13 | t << 8`, inside its contract: as `CONV.RGB` with step 4, and opacity 255 at
`d + 4i + 3`. -/
def Obligations.ConvRgbaWritesTheRow : Prop :=
  ∀ (s : State) (q : Port) (t : Byte) (o : Opnd), s.readyPort q → convContract .rgba t o s → s.mem.wf →
    ∃ m a', exec (.convRgba t o) s = .next { s with
        mem := m
        ports := s.ports.modify s.cur fun p => { p with a := a', cidx := p.cidx + 1, rsps := p.rsps ++ [0x00000000] }
        fresh := s.fresh + 1 } ∧
      (∀ i < o.n.toNat,
        let x := s.cfg.coef.pix (s.mem.read (o.y.toNat + i)) (s.mem.read (o.u.toNat + i / 2)) (s.mem.read (o.v.toNat + i / 2))
        m.read (o.d.toNat + 4 * i) = x.r ∧ m.read (o.d.toNat + 4 * i + 1) = x.g ∧ m.read (o.d.toNat + 4 * i + 2) = x.b ∧
          m.read (o.d.toNat + 4 * i + 3) = 255) ∧
      (∀ a, (a < o.d.toNat ∨ o.d.toNat + 4 * o.n.toNat ≤ a) → m.read a = s.mem.read a) ∧
      encode (.convRgba t o) = { cw := (0x00000013 : Word) ||| (t.setWidth 32 <<< 8), opnd := o }

/-- R151: `CONV.BGR t`, whose word is `0x23 | t << 8`, inside its contract: blue at `d + 3i`, green at `d + 3i + 1`, red at
`d + 3i + 2`. -/
def Obligations.ConvBgrWritesTheRow : Prop :=
  ∀ (s : State) (q : Port) (t : Byte) (o : Opnd), s.readyPort q → convContract .bgr t o s → s.mem.wf →
    ∃ m a', exec (.convBgr t o) s = .next { s with
        mem := m
        ports := s.ports.modify s.cur fun p => { p with a := a', cidx := p.cidx + 1, rsps := p.rsps ++ [0x00000000] }
        fresh := s.fresh + 1 } ∧
      (∀ i < o.n.toNat,
        let x := s.cfg.coef.pix (s.mem.read (o.y.toNat + i)) (s.mem.read (o.u.toNat + i / 2)) (s.mem.read (o.v.toNat + i / 2))
        m.read (o.d.toNat + 3 * i) = x.b ∧ m.read (o.d.toNat + 3 * i + 1) = x.g ∧ m.read (o.d.toNat + 3 * i + 2) = x.r) ∧
      (∀ a, (a < o.d.toNat ∨ o.d.toNat + 3 * o.n.toNat ≤ a) → m.read a = s.mem.read a) ∧
      encode (.convBgr t o) = { cw := (0x00000023 : Word) ||| (t.setWidth 32 <<< 8), opnd := o }

/-- R152: `CONV.BGRA t`, whose word is `0x33 | t << 8`, inside its contract: as `CONV.BGR` with step 4, and opacity 255 at
`d + 4i + 3`. -/
def Obligations.ConvBgraWritesTheRow : Prop :=
  ∀ (s : State) (q : Port) (t : Byte) (o : Opnd), s.readyPort q → convContract .bgra t o s → s.mem.wf →
    ∃ m a', exec (.convBgra t o) s = .next { s with
        mem := m
        ports := s.ports.modify s.cur fun p => { p with a := a', cidx := p.cidx + 1, rsps := p.rsps ++ [0x00000000] }
        fresh := s.fresh + 1 } ∧
      (∀ i < o.n.toNat,
        let x := s.cfg.coef.pix (s.mem.read (o.y.toNat + i)) (s.mem.read (o.u.toNat + i / 2)) (s.mem.read (o.v.toNat + i / 2))
        m.read (o.d.toNat + 4 * i) = x.b ∧ m.read (o.d.toNat + 4 * i + 1) = x.g ∧ m.read (o.d.toNat + 4 * i + 2) = x.r ∧
          m.read (o.d.toNat + 4 * i + 3) = 255) ∧
      (∀ a, (a < o.d.toNat ∨ o.d.toNat + 4 * o.n.toNat ≤ a) → m.read a = s.mem.read a) ∧
      encode (.convBgra t o) = { cw := (0x00000033 : Word) ||| (t.setWidth 32 <<< 8), opnd := o }

/-- R146: with `n = 0` a conversion writes nothing and responds 0, whatever its pointers are, mapped or not. -/
def Obligations.ZeroColumnsChangeNoByte : Prop :=
  ∀ (s : State) (q : Port) (l : Layout) (t : Byte) (o : Opnd), s.readyPort q → t.toNat < s.cfg.nt →
    o.fits s.cfg.aw = true → capable s.cfg t = true → o.n = 0 →
    ∃ a', exec (Instr.conv l t o) s = .next { s with
      ports := s.ports.modify s.cur fun p => { p with a := a', cidx := p.cidx + 1, rsps := p.rsps ++ [0x00000000] }
      fresh := s.fresh + 1 }

/-- What a conversion leaves unchanged, whenever it answers a next state: every byte outside `[d, d + n * step)`, the registry,
`USED`, the configuration, every other port, the port's command list, the model's other fields. -/
def Obligations.ConversionsFrame : Prop :=
  ∀ (s t : State) (l : Layout) (r : Byte) (o : Opnd), exec (Instr.conv l r o) s = .next t →
    (∀ a, (a < o.d.toNat ∨ o.d.toNat + o.n.toNat * l.step ≤ a) → t.mem.read a = s.mem.read a) ∧
      t.sr = s.sr ∧ t.used = s.used ∧ t.cfg = s.cfg ∧ t.cur = s.cur ∧ t.sched = s.sched ∧ t.seen = s.seen ∧
      t.ports.length = s.ports.length ∧ (∀ j, j ≠ s.cur → t.ports[j]? = s.ports[j]?) ∧
      ∀ q q', s.ports[s.cur]? = some q → t.ports[s.cur]? = some q' → q'.prog = q.prog

/-- R153: the tier changes nothing of the result, provided both tiers exist and are capable; and a conversion does not read
the registry: whatever the registry holds, the outcome is the same but for the registry itself, which stays. -/
def Obligations.TierAndRegistryDoNotMatter : Prop :=
  ∀ (s : State) (l : Layout) (t t' : Byte) (o : Opnd) (r : Registry),
    t.toNat < s.cfg.nt → t'.toNat < s.cfg.nt → capable s.cfg t = true → capable s.cfg t' = true →
    exec (Instr.conv l t o) s = exec (Instr.conv l t' o) s ∧
      (∀ s', exec (Instr.conv l t o) s = .next s' →
        exec (Instr.conv l t o) { s with sr := r } = .next { s' with sr := r })

/-- R155: for the same sources, `CONV.BGR` is `CONV.RGB` with the bytes at offsets 0 and 2 of each pixel exchanged, likewise
`CONV.BGRA` against `CONV.RGBA`, and `CONV.RGBA` is `CONV.RGB` with a byte 255 after each pixel. -/
def Obligations.ChannelOrdersArePermutations : Prop :=
  ∀ (s : State) (q : Port) (t : Byte) (o : Opnd), s.readyPort q → convContract .rgba t o s → s.mem.wf →
    ∃ s1 s2 s3 s4, exec (.convRgb t o) s = .next s1 ∧ exec (.convBgr t o) s = .next s2 ∧
      exec (.convRgba t o) s = .next s3 ∧ exec (.convBgra t o) s = .next s4 ∧
      ∀ i < o.n.toNat,
        let p := o.d.toNat + 3 * i
        let a := o.d.toNat + 4 * i
        (s2.mem.read p = s1.mem.read (p + 2) ∧ s2.mem.read (p + 1) = s1.mem.read (p + 1) ∧
          s2.mem.read (p + 2) = s1.mem.read p) ∧
        (s4.mem.read a = s3.mem.read (a + 2) ∧ s4.mem.read (a + 1) = s3.mem.read (a + 1) ∧
          s4.mem.read (a + 2) = s3.mem.read a ∧ s4.mem.read (a + 3) = s3.mem.read (a + 3)) ∧
        (s3.mem.read a = s1.mem.read p ∧ s3.mem.read (a + 1) = s1.mem.read (p + 1) ∧
          s3.mem.read (a + 2) = s1.mem.read (p + 2) ∧ s3.mem.read (a + 3) = 255)

/-- R59, R148: the bytes a conversion writes depend on no byte but those of its read set. Two memories that agree on luma
`0 .. n-1` and on each chroma plane `0 .. ceil(n/2)-1` give the same bytes of the write set. -/
def Obligations.OnlyTheReadSetMatters : Prop :=
  ∀ (s : State) (q : Port) (l : Layout) (t : Byte) (o : Opnd) (m : Memory),
    s.readyPort q → convContract l t o s → s.mem.wf → m.wf →
    (∀ k < o.n.toNat, m.read (o.y.toNat + k) = s.mem.read (o.y.toNat + k)) →
    (∀ k < (o.n.toNat + 1) / 2, m.read (o.u.toNat + k) = s.mem.read (o.u.toNat + k)) →
    (∀ k < (o.n.toNat + 1) / 2, m.read (o.v.toNat + k) = s.mem.read (o.v.toNat + k)) →
    ∃ s1 s2, exec (Instr.conv l t o) s = .next s1 ∧ exec (Instr.conv l t o) { s with mem := m } = .next s2 ∧
      ∀ k < o.n.toNat * l.step, s2.mem.read (o.d.toNat + k) = s1.mem.read (o.d.toNat + k)

/-- R145: FI's own loop, by pairs of columns and an odd last column, leaves the memory that the row by columns leaves. -/
def Obligations.PairedLoopEqualsColumnLoop : Prop :=
  ∀ (c : Coef) (l : Layout) (o : Opnd) (m : Memory), selfDisjoint l o = true → m.wf →
    pairedRow c l o m = row c l o o.n.toNat m

/-- R65: writing the bytes of the write set one by one, in any order whatever, leaves the memory of the row. Each byte is computed
from memory at the time it is written (log 17, DEDUCED). -/
def Obligations.AnyWriteOrderLeavesTheSameMemory : Prop :=
  ∀ (c : Coef) (l : Layout) (o : Opnd) (m : Memory) (ks : List Nat), selfDisjoint l o = true → m.wf →
    ks.Perm (List.range (o.n.toNat * l.step)) →
    ks.foldl (fun m' k => m'.write (o.d.toNat + k) (rowByte c l o m' k)) m = row c l o o.n.toNat m

/-- R230, R65, R68: any command executed event by event (acceptance; for a conversion, each byte of its write set in any order;
completion) ends in exactly the state of the same command run as one big step. The events are the model's schedule (log 9), and
`INIT` and `LOOKUP` access the registry at completion (log 17). -/
def Obligations.ByteEventsRefineTheBigStep : Prop :=
  ∀ (s : State) (p : Nat) (q : Port) (k : Command) (i : Instr) (ks : List Nat) (rest : List Event),
    programRefusal s = none → s.ports[p]? = some q → q.cond = .idle → s.offered q = some k →
    decode s.cfg k = .ok i → contract i s → s.mem.wf → ks.Perm (List.range (bytesWritten i)) →
    Host.Core.run core (ks.length + 2)
        { s with sched := .accept p :: (ks.map (Event.store p) ++ .complete p :: rest) } =
      step { s with sched := .run p :: rest }

/-- R67: two compatible conversions on two ports give the same memory in either order, neither order stops, and in flight
together, their bytes written in any interleaving, they give that memory too. Each byte is computed when it is written (log 17);
the interleaving is the model's schedule (log 9). -/
def Obligations.CompatibleConversionsCommute : Prop :=
  ∀ (s : State) (p p' : Nat) (q q' : Port) (l l' : Layout) (t t' : Byte) (o o' : Opnd),
    p ≠ p' → s.cfg.admissible = true → s.ports[p]? = some q → q.cond = .idle → s.ports[p']? = some q' → q'.cond = .idle →
    convContract l t o s → convContract l' t' o' s → compatible l o l' o' = true → s.mem.wf →
    ∃ s1 s2 t1 t2,
      exec (Instr.conv l t o) { s with cur := p } = .next s1 ∧
      exec (Instr.conv l' t' o') { s1 with cur := p' } = .next s2 ∧
      exec (Instr.conv l' t' o') { s with cur := p' } = .next t1 ∧
      exec (Instr.conv l t o) { t1 with cur := p } = .next t2 ∧ s2.mem = t2.mem ∧
      ∀ (k k' : Command) (es rest : List Event), programRefusal s = none →
        s.offered q = some k → decode s.cfg k = .ok (Instr.conv l t o) →
        s.offered q' = some k' → decode s.cfg k' = .ok (Instr.conv l' t' o') →
        es.Perm ((List.range (o.n.toNat * l.step)).map (Event.store p) ++
          (List.range (o'.n.toNat * l'.step)).map (Event.store p')) →
        ∃ u, Host.Core.run core (es.length + 4)
            { s with sched := .accept p :: .accept p' :: (es ++ .complete p :: .complete p' :: rest) } = .next u ∧
          u.mem = s2.mem

/-- R60, R31: the engine writes a byte of its write set once. The byte takes the value of the row's byte and joins the progress,
and nothing else changes. That the value is computed from memory at the moment of the write is the model's reading (log 17,
DEDUCED; R57 and R65 leave the order of the reads open), and so is that an event which asks for a byte already written, or for one
outside the write set, changes nothing (log 12, DEDUCED). -/
def Obligations.EachDestinationByteIsWrittenOnce : Prop :=
  ∀ (s : State) (p k : Nat) (q : Port) (i : Instr) (w : List Nat) (l : Layout),
    s.ports[p]? = some q → q.cond = .busy i w → i.layout = some l → s.mem.wf →
    (k < q.a.n.toNat * l.step → k ∉ w →
      ∃ t w', storeByte p k s = .next t ∧ t = { s with mem := t.mem, ports := t.ports } ∧
        t.ports[p]? = some { q with cond := .busy i w' } ∧ (∀ j, j ∈ w' ↔ j = k ∨ j ∈ w) ∧
        (∀ j, j ≠ p → t.ports[j]? = s.ports[j]?) ∧
        (∀ a, t.mem.read a = if a = q.a.d.toNat + k then rowByte s.cfg.coef l q.a s.mem k else s.mem.read a)) ∧
    (k ∈ w ∨ q.a.n.toNat * l.step ≤ k → storeByte p k s = .next s)

/-- R156, R92: a conversion's port completes once the last byte of its write set is written, with response 0, changing neither
memory nor the registry nor `USED`; before that its completion event changes nothing (log 12, DEDUCED). -/
def Obligations.ConversionCompletesAfterItsLastByte : Prop :=
  ∀ (s : State) (p : Nat) (q : Port) (i : Instr) (w : List Nat) (l : Layout) (rest : List Event),
    programRefusal s = none → s.sched = .complete p :: rest → s.ports[p]? = some q → q.cond = .busy i w →
    i.layout = some l → FlightOk s.cfg s.sr q →
    ((∃ k < q.a.n.toNat * l.step, k ∉ w) → step s = .next { s with sched := rest }) ∧
    ((∀ k < q.a.n.toNat * l.step, k ∈ w) →
      ∃ t a', step s = .next t ∧ t.mem = s.mem ∧ t.sr = s.sr ∧ t.used = s.used ∧
        t.ports[p]? = some { q with cond := .idle, a := a', rsps := q.rsps ++ [0x00000000] } ∧
        ∀ j, j ≠ p → t.ports[j]? = s.ports[j]?)

/-- R98: a `WAIT` holds back the entries after it. While some port has not completed the commands it waits for, the host presents
nothing, and the port's run and acceptance change nothing (log 12); once every port has, a word written in the program is
presented, and the word of a `CALL` once its response has come. The counts are how the model's lists hold a `WAIT` (log 19). -/
def Obligations.WaitHoldsBackLaterCommands : Prop :=
  ∀ (s : State) (p : Nat) (q : Port) (x : Issue), s.ports[p]? = some q → q.cond = .idle → q.pending = some x →
    (∀ (j n : Nat) (r : Port), x.need[j]? = some n → s.ports[j]? = some r → r.answered < n →
      s.offered q = none ∧ ∀ rest, programRefusal s = none →
        step { s with sched := .run p :: rest } = .next { s with sched := rest } ∧
        step { s with sched := .accept p :: rest } = .next { s with sched := rest }) ∧
    ((∀ (j n : Nat) (r : Port), x.need[j]? = some n → s.ports[j]? = some r → n ≤ r.answered) →
      (∀ w, x.src = .word w → s.offered q = some { cw := w, opnd := x.opnd }) ∧
      (∀ (p' j : Nat) (q' : Port) (w : Word), x.src = .response p' j → s.ports[p']? = some q' →
        q'.rsps[q'.before + j]? = some w → s.offered q = some { cw := w, opnd := x.opnd }))

/-! ## Undefined behaviour -/

/-- R192 (U1): a `LOOKUP` of an EMPTY slot faults, and the fault records the layout. -/
def Obligations.LookupOfEmptySlotFaults : Prop :=
  ∀ (s : State) (q : Port) (l : Layout), s.readyPort q → (s.sr.get l).v = false →
    exec (.lookup l) s = .fault (.lookupEmpty l)

/-- R193 and R194 (U2, U3): an `INIT` otherwise inside its contract, accepted while an `INIT` or a `LOOKUP` is in flight,
faults, and so does a `LOOKUP` accepted while an `INIT` is in flight. -/
def Obligations.ConcurrentRegistrationFaults : Prop :=
  ∀ (s : State) (q : Port), s.readyPort q →
    (∀ t : Byte, t.toNat < s.cfg.nt → capable s.cfg t = true → s.used = false →
      (s.initBusy = true → exec (.init t) s = .fault .concurrentInit) ∧
      (s.initBusy = false → s.lookupBusy = true → exec (.init t) s = .fault .initWithLookup)) ∧
    (∀ l, (s.sr.get l).v = true → s.initBusy = true → exec (.lookup l) s = .fault .initWithLookup)

/-- R201 (U11): an `INIT` after the first `LOOKUP` is refused with one port, and faults with more. -/
def Obligations.LateInitStops : Prop :=
  ∀ (s : State) (q : Port) (t : Byte), s.readyPort q → t.toNat < s.cfg.nt → s.used = true →
    (s.cfg.np = 1 → exec (.init t) s = .refused .lateInit) ∧
    (1 < s.cfg.np → exec (.init t) s = .fault .lateInit)

/-- R202 (U10): an `INIT` or a conversion of a tier without capability faults (where no earlier class of R205 applies). -/
def Obligations.IncapableTierFaults : Prop :=
  ∀ (s : State) (q : Port) (t : Byte), s.readyPort q → t.toNat < s.cfg.nt → capable s.cfg t = false →
    (s.used = false → exec (.init t) s = .fault (.noCapability t)) ∧
    (∀ (l : Layout) (o : Opnd), o.fits s.cfg.aw = true → noWrap s.cfg.aw l o = true →
      exec (Instr.conv l t o) s = .fault (.noCapability t))

/-- R195 (U4): a conversion one of whose four ranges ends past `2^AW` is refused. -/
def Obligations.WrappingConversionIsRefused : Prop :=
  ∀ (s : State) (q : Port) (l : Layout) (t : Byte) (o : Opnd), s.readyPort q → t.toNat < s.cfg.nt →
    o.fits s.cfg.aw = true →
    (2 ^ s.cfg.aw < o.y.toNat + o.n.toNat ∨ 2 ^ s.cfg.aw < o.u.toNat + (o.n.toNat + 1) / 2 ∨
      2 ^ s.cfg.aw < o.v.toNat + (o.n.toNat + 1) / 2 ∨ 2 ^ s.cfg.aw < o.d.toNat + o.n.toNat * l.step) →
    exec (Instr.conv l t o) s = .refused .wraps

/-- R197 (U6): a conversion whose read set or write set holds an address outside `MAP` faults (where no earlier class of R205
applies). -/
def Obligations.UnmappedByteFaults : Prop :=
  ∀ (s : State) (q : Port) (l : Layout) (t : Byte) (o : Opnd) (a : Nat), s.readyPort q → t.toNat < s.cfg.nt →
    o.fits s.cfg.aw = true → noWrap s.cfg.aw l o = true → capable s.cfg t = true → mapped s.cfg.map a = false →
    ((o.y.toNat ≤ a ∧ a < o.y.toNat + o.n.toNat) ∨ (o.u.toNat ≤ a ∧ a < o.u.toNat + (o.n.toNat + 1) / 2) ∨
      (o.v.toNat ≤ a ∧ a < o.v.toNat + (o.n.toNat + 1) / 2) ∨
      (o.d.toNat ≤ a ∧ a < o.d.toNat + o.n.toNat * l.step)) →
    exec (Instr.conv l t o) s = .fault .unmapped

/-- R199 (U8): a conversion whose write set meets its own read set faults (where no earlier class of R205 applies). -/
def Obligations.SelfOverlapFaults : Prop :=
  ∀ (s : State) (q : Port) (l : Layout) (t : Byte) (o : Opnd) (a : Nat), s.readyPort q → t.toNat < s.cfg.nt →
    o.fits s.cfg.aw = true → noWrap s.cfg.aw l o = true → capable s.cfg t = true → allMapped s.cfg.map l o = true →
    (o.d.toNat ≤ a ∧ a < o.d.toNat + o.n.toNat * l.step) →
    ((o.y.toNat ≤ a ∧ a < o.y.toNat + o.n.toNat) ∨ (o.u.toNat ≤ a ∧ a < o.u.toNat + (o.n.toNat + 1) / 2) ∨
      (o.v.toNat ≤ a ∧ a < o.v.toNat + (o.n.toNat + 1) / 2)) →
    exec (Instr.conv l t o) s = .fault .selfOverlap

/-- R198, R67 (U7): a conversion faults when a conversion in flight on another port writes one of its bytes, or reads one of the
bytes it writes (where no earlier class of R205 applies). -/
def Obligations.RacingConversionFaults : Prop :=
  ∀ (s : State) (q q' : Port) (l l' : Layout) (t : Byte) (o : Opnd) (i : Instr) (w : List Nat) (a : Nat), s.readyPort q →
    t.toNat < s.cfg.nt → o.fits s.cfg.aw = true → noWrap s.cfg.aw l o = true → capable s.cfg t = true →
    allMapped s.cfg.map l o = true → selfDisjoint l o = true →
    q' ∈ s.ports → q'.cond = .busy i w → i.layout = some l' →
    (((o.writes l).has a = true ∧ ((q'.a.writes l').has a = true ∨ ∃ r ∈ q'.a.reads, r.has a = true)) ∨
      ((q'.a.writes l').has a = true ∧ ∃ r ∈ o.reads, r.has a = true)) →
    exec (Instr.conv l t o) s = .fault .race

/-- R198, R67 (U7): a host write to a byte of the read set or the write set of a conversion in flight faults, and so does a host
read of a byte of the write set of one; any other host access of a mapped byte goes ahead. The sets are spelled out by the latches
of the `BUSY` port (R59, R60). The bytes read are kept in the model's own field (log 9). -/
def Obligations.HostAccessesRaceOrGoAhead : Prop :=
  ∀ (s : State) (a : Nat) (v : Byte) (rest : List Event), programRefusal s = none → mapped s.cfg.map a = true →
    let writes := ∃ q i w l, q ∈ s.ports ∧ q.cond = .busy i w ∧ i.layout = some l ∧
      q.a.d.toNat ≤ a ∧ a < q.a.d.toNat + q.a.n.toNat * l.step
    let reads := ∃ q i w l, q ∈ s.ports ∧ q.cond = .busy i w ∧ i.layout = some l ∧
      ((q.a.y.toNat ≤ a ∧ a < q.a.y.toNat + q.a.n.toNat) ∨
        (q.a.u.toNat ≤ a ∧ a < q.a.u.toNat + (q.a.n.toNat + 1) / 2) ∨
        (q.a.v.toNat ≤ a ∧ a < q.a.v.toNat + (q.a.n.toNat + 1) / 2))
    (s.sched = .hostWrite a v :: rest →
      ((writes ∨ reads) → step s = .fault .race) ∧
      (¬ writes → ¬ reads → step s = .next { s with sched := rest, mem := s.mem.write a v })) ∧
    (s.sched = .hostRead a :: rest →
      (writes → step s = .fault .race) ∧
      (¬ writes → step s = .next { s with sched := rest, seen := s.seen ++ [(a, s.mem.read a)] }))

/-! ## The datapath -/

/-- R120: the saturating shift, by its three ranges, and its bit-level form on every 32-bit value. -/
def Obligations.SaturatingShiftByRanges : Prop :=
  (∀ x : Int, (x < 0 → satshift x = 0) ∧ (0 ≤ x → x ≤ 131071 → satshift x = x / 512) ∧
      (131072 ≤ x → satshift x = 255)) ∧
    ∀ x : BitVec 32, satshiftBits x = BitVec.ofInt 8 (satshift x.toInt)

/-- R121: `PIX` written out from the coefficients, with red from V, blue from U, and green from both. -/
def Obligations.PixelFunctionWrittenOut : Prop :=
  ∀ (c : Coef) (y u v : Byte),
    let p := c.pix y u v
    (p.r.toNat : Int) = max 0 (min 255 ((c.tCon5 * y.toNat + (c.tCon1 * v.toNat + c.tCon6)) / 512)) ∧
    (p.g.toNat : Int) =
      max 0 (min 255 ((c.tCon5 * y.toNat - (c.tCon3 * u.toNat - (c.tCon2 * v.toNat - c.tCon7))) / 512)) ∧
    (p.b.toNat : Int) = max 0 (min 255 ((c.tCon5 * y.toNat + (c.tCon4 * u.toNat + c.tCon8)) / 512))

/-- R113: a coefficient set that passes the check at the eight corners overflows for no sample: every expression of the rule
lies in `[-2^31, 2^31 - 1]` for all `Y, U, V` in 0..255. -/
def Obligations.CornersBoundEverySample : Prop :=
  ∀ (c : Coef), c.noOverflow = true → ∀ (y u v : Byte), ∀ x ∈ c.expressions y.toNat u.toNat v.toNat,
    -(2 ^ 31) ≤ x ∧ x ≤ 2 ^ 31 - 1

/-- R113, R122: for an admissible set, a datapath of 32-bit two's-complement multipliers and adders with the bit-level saturating
shift computes exactly the pixel the integers give. -/
def Obligations.ThirtyTwoBitDatapathIsExact : Prop :=
  ∀ (c : Coef), c.noOverflow = true → ∀ (y u v : Byte), c.pixBits y u v = c.pix y u v

/-- R127: in an admissible set, mid-grey comes out neutral, and its value is `MIDGREY`. -/
def Obligations.MidGreyIsNeutral : Prop :=
  ∀ (c : Coef), c.admissible = true →
    ((c.pix 128 128 128).r.toNat : Int) = c.midgrey ∧ ((c.pix 128 128 128).g.toNat : Int) = c.midgrey ∧
      ((c.pix 128 128 128).b.toNat : Int) = c.midgrey

/-! ## Reset, invariants, whole-machine rules -/

/-- R35: after reset every slot is EMPTY, every port `IDLE` with host index 0, `USED` is 0 and there are `NP` ports; nothing is
said of the values R35 leaves unspecified. -/
def Obligations.ResetLeavesEmptyAndIdle : Prop :=
  ∀ (c : Config), (∀ l, ((State.resetOf c).sr.get l).v = false) ∧
    (∀ q ∈ (State.resetOf c).ports, q.cond = .idle ∧ q.cidx = 0) ∧ (State.resetOf c).ports.length = c.np ∧
    (State.resetOf c).used = false ∧ (State.resetOf c).cfg = c

/-- R220, R221: the reset event empties the registry, abandons every command in flight with no response, clears `USED`, and
touches neither memory nor the configuration. -/
def Obligations.ResetEventAbandonsCommands : Prop :=
  ∀ (s : State) (rest : List Event), programRefusal s = none → s.sched = .reset :: rest →
    ∃ t, step s = .next t ∧ (∀ l, (t.sr.get l).v = false) ∧ t.used = false ∧ t.mem = s.mem ∧ t.cfg = s.cfg ∧
      t.ports.length = s.ports.length ∧
      ∀ (j : Nat) (q q' : Port), s.ports[j]? = some q → t.ports[j]? = some q' →
        q'.cond = .idle ∧ q'.cidx = 0 ∧ q'.rsps = q.rsps ∧ q'.prog = q.prog

/-- The machine's invariant: memory canonical (log 7) and mapped (R52), the four slots populated together with one tier (R23) and
legal, `USED` only over a populated registry (R32), ports and latches of the configuration's shape (R24, R209), one response for
each command completed (R92), the current port a port (log 9), every command in flight inside its contract (R31, R143), no two in
flight that may not be (R67, R68). Every step keeps it. -/
def Obligations.EveryStepKeepsTheMachineInvariant : Prop :=
  ∀ (s t : State), Inv s → step s = .next t → Inv t

/-- The invariant holds after reset, in every configuration that has a port. It says nothing of the `TIER` bits of the EMPTY slots,
and of the latches only that they hold addresses of `AW` bits. -/
def Obligations.MachineInvariantHoldsAtReset : Prop :=
  ∀ (c : Config), 1 ≤ c.np → Inv (State.resetOf c)

/-- Every step keeps memory in its canonical form. -/
def Obligations.EveryStepKeepsMemoryCanonical : Prop :=
  ∀ (s t : State), s.mem.wf → step s = .next t → t.mem.wf

/-- R23: the four slots never hold different tiers and are never partly populated. Nothing is said of the `TIER` bits of EMPTY
slots. -/
def Obligations.SlotsNeverDiffer : Prop :=
  ∀ (s t : State), RegistryUniform s → step s = .next t → RegistryUniform t

/-- R67, R68: from a state in which any two commands in flight may be in flight together, every step leads to such a state. -/
def Obligations.FlightsStayRaceFree : Prop :=
  ∀ (s t : State), RaceFreeFlights s → step s = .next t → RaceFreeFlights t

/-- R34: no step changes the configuration record, `MAP`, or the host's command lists. -/
def Obligations.ConfigurationNeverChanges : Prop :=
  ∀ (s t : State), step s = .next t → t.cfg = s.cfg ∧ t.ports.map Port.prog = s.ports.map Port.prog

/-- R170, R22: a step that is not the reset event leaves the registry as it is, or it is the step in which some port completed an
`INIT t` (run as one big step, or in flight before), with its response 0, and all four slots hold the reference of `t`. -/
def Obligations.OnlyInitWritesTheRegistry : Prop :=
  ∀ (s t : State), step s = .next t → s.sched.head? ≠ some .reset →
    t.sr = s.sr ∨
      ∃ (r : Byte) (p : Nat) (q q' : Port), (∀ l, t.sr.get l = { v := true, tier := r }) ∧
        s.ports[p]? = some q ∧ t.ports[p]? = some q' ∧ q'.cond = .idle ∧ q'.rsps = q.rsps ++ [0x00000000] ∧
        ((q.cond = .idle ∧ ∃ k, s.offered q = some k ∧ decode s.cfg k = .ok (.init r)) ∨ ∃ w, q.cond = .busy (.init r) w)

/-- R32: `USED` is never cleared except by reset. -/
def Obligations.UsedStaysSetUntilReset : Prop :=
  ∀ (s t : State), step s = .next t → s.sched.head? ≠ some .reset → s.used = true → t.used = true

/-- R230: with nothing scheduled, every command in flight completes: after exactly as many steps as there is work left (unwritten
bytes and completions), the machine has not stopped and every port is `IDLE`. That an empty schedule lets the commands in flight
go on first is the model's order (log 9). -/
def Obligations.FlightsFinishInBoundedSteps : Prop :=
  ∀ (s : State), Inv s → programRefusal s = none → s.sched = [] →
    ∃ t, Host.Core.run core s.work s = .next t ∧ t.allIdle = true ∧ t.sched = [] ∧
      (s.allIdle = false → ∃ u, step s = .next u ∧ u.work + 1 = s.work)
end

