-- ==== Sys2Proof/Laws/Memory.lean ====
section
/-! SUPPORT. Laws of memory: read after write, the canonical form, and that the reads determine a canonical memory. -/

namespace Sys2Proof.Machine

@[simp] theorem Memory.read_nil (a : Nat) : Memory.read [] a = Memory.unlisted := rfl

/-- A write leaves every other address alone, in every memory. -/
theorem Memory.read_write_other (m : Memory) {a b : Nat} (v : Byte) (h : b ≠ a) : (m.write a v).read b = m.read b := by
  induction m with
  | nil =>
    unfold Memory.write
    split <;> simp [Memory.read, h]
  | cons c rest ih =>
    obtain ⟨x, w⟩ := c
    unfold Memory.write
    split
    · split <;> simp [Memory.read, h]
    · split
      · next hx => subst hx; split <;> simp [Memory.read, h]
      · simp [Memory.read, ih]

/-- An address below every entry reads as unlisted. -/
theorem Memory.read_of_lt (m : Memory) (a : Nat) (h : ∀ c ∈ m, a < c.1) : m.read a = Memory.unlisted := by
  induction m with
  | nil => rfl
  | cons c rest ih =>
    have hc := h c (by simp)
    have := ih fun d hd => h d (by simp [hd])
    simp [Memory.read, Nat.ne_of_lt hc, this]

theorem Memory.wf_tail {c : Host.Cell} {m : Memory} (h : Memory.wf (c :: m)) : Memory.wf m :=
  ⟨(List.pairwise_cons.1 h.1).2, fun d hd => h.2 d (by simp [hd])⟩

theorem Memory.wf_head_lt {c : Host.Cell} {m : Memory} (h : Memory.wf (c :: m)) : ∀ d ∈ m, c.1 < d.1 :=
  (List.pairwise_cons.1 h.1).1

theorem Memory.wf_head_ne {c : Host.Cell} {m : Memory} (h : Memory.wf (c :: m)) : c.2 ≠ Memory.unlisted :=
  h.2 c (by simp)

theorem Memory.wf_cons {c : Host.Cell} {m : Memory} (hlt : ∀ d ∈ m, c.1 < d.1) (hne : c.2 ≠ Memory.unlisted)
    (h : Memory.wf m) : Memory.wf (c :: m) :=
  ⟨List.pairwise_cons.2 ⟨hlt, h.1⟩, fun d hd => (List.mem_cons.1 hd).elim (fun e => e ▸ hne) (h.2 d)⟩

/-- A write reads back, in a canonical memory. -/
theorem Memory.read_write_same (m : Memory) (a : Nat) (v : Byte) (h : m.wf) : (m.write a v).read a = v := by
  induction m with
  | nil =>
    unfold Memory.write
    split
    · next hv => simp [hv]
    · simp [Memory.read]
  | cons c rest ih =>
    obtain ⟨x, w⟩ := c
    have hlt := Memory.wf_head_lt h
    unfold Memory.write
    split
    · next hx =>
      split
      · next hv =>
        rw [hv]
        refine Memory.read_of_lt _ _ fun d hd => ?_
        rcases List.mem_cons.1 hd with rfl | hd
        · exact hx
        · exact Nat.lt_trans hx (hlt d hd)
      · simp [Memory.read]
    · split
      · next hx =>
        subst hx
        split
        · next hv => rw [hv]; exact Memory.read_of_lt _ _ hlt
        · simp [Memory.read]
      · next hx => simp [Memory.read, hx, ih (Memory.wf_tail h)]

/-- The whole of what a write does, byte by byte. -/
theorem Memory.read_write (m : Memory) (a b : Nat) (v : Byte) (h : m.wf) :
    (m.write a v).read b = if b = a then v else m.read b := by
  split
  · next e => subst e; exact Memory.read_write_same m b v h
  · next e => exact Memory.read_write_other m v e

/-- Every entry after a write is an old entry or the byte written. -/
theorem Memory.mem_write {m : Memory} {a : Nat} {v : Byte} {c : Host.Cell} (h : c ∈ m.write a v) :
    c ∈ m ∨ (c = (a, v) ∧ v ≠ Memory.unlisted) := by
  induction m with
  | nil =>
    unfold Memory.write at h
    split at h
    · simp at h
    · next hv => simp at h; exact .inr ⟨h, hv⟩
  | cons d rest ih =>
    obtain ⟨x, w⟩ := d
    unfold Memory.write at h
    split at h
    · split at h
      · exact .inl h
      · next hv =>
        rcases List.mem_cons.1 h with e | h
        · exact .inr ⟨e, hv⟩
        · exact .inl h
    · split at h
      · split at h
        · exact .inl (by simp [h])
        · next hv =>
          rcases List.mem_cons.1 h with e | h
          · exact .inr ⟨e, hv⟩
          · exact .inl (by simp [h])
      · rcases List.mem_cons.1 h with e | h
        · exact .inl (by simp [e])
        · rcases ih h with h | h
          · exact .inl (by simp [h])
          · exact .inr h

/-- A write keeps the canonical form. -/
theorem Memory.wf_write {m : Memory} (a : Nat) (v : Byte) (h : m.wf) : (m.write a v).wf := by
  induction m with
  | nil =>
    unfold Memory.write
    split
    · exact ⟨List.Pairwise.nil, by simp⟩
    · next hv => exact Memory.wf_cons (by simp) hv ⟨List.Pairwise.nil, by simp⟩
  | cons c rest ih =>
    obtain ⟨x, w⟩ := c
    have hlt := Memory.wf_head_lt h
    have hne := Memory.wf_head_ne h
    have ht := Memory.wf_tail h
    unfold Memory.write
    split
    · next hx =>
      split
      · exact h
      · next hv =>
        refine Memory.wf_cons (fun d hd => ?_) hv h
        rcases List.mem_cons.1 hd with rfl | hd
        · exact hx
        · exact Nat.lt_trans hx (hlt d hd)
    · next hx =>
      split
      · next e =>
        subst e
        split
        · exact ht
        · next hv => exact Memory.wf_cons hlt hv ht
      · next e =>
        refine Memory.wf_cons (fun d hd => ?_) hne (ih ht)
        rcases Memory.mem_write hd with hd | ⟨rfl, -⟩
        · exact hlt d hd
        · change x < a
          omega

theorem Memory.wf_nil : Memory.wf [] := ⟨List.Pairwise.nil, by simp⟩

/-- Canonical memories that read the same everywhere are equal. -/
theorem Memory.ext_read {m m' : Memory} (h : m.wf) (h' : m'.wf) (e : ∀ a, m.read a = m'.read a) : m = m' := by
  induction m generalizing m' with
  | nil =>
    cases m' with
    | nil => rfl
    | cons c rest =>
      have := e c.1
      simp [Memory.read] at this
      exact absurd this.symm (Memory.wf_head_ne h')
  | cons c rest ih =>
    cases m' with
    | nil =>
      have := e c.1
      simp [Memory.read] at this
      exact absurd this (Memory.wf_head_ne h)
    | cons d rest' =>
      obtain ⟨x, w⟩ := c
      obtain ⟨x', w'⟩ := d
      have hx : x = x' := by
        rcases Nat.lt_trichotomy x x' with hlt | heq | hlt
        · have h1 := e x
          rw [Memory.read_of_lt ((x', w') :: rest') x] at h1
          · simp [Memory.read] at h1
            exact absurd h1 (Memory.wf_head_ne h)
          · intro d hd
            rcases List.mem_cons.1 hd with rfl | hd
            · exact hlt
            · exact Nat.lt_trans hlt (Memory.wf_head_lt h' d hd)
        · exact heq
        · have h1 := e x'
          rw [Memory.read_of_lt ((x, w) :: rest) x'] at h1
          · simp [Memory.read] at h1
            exact absurd h1.symm (Memory.wf_head_ne h')
          · intro d hd
            rcases List.mem_cons.1 hd with rfl | hd
            · exact hlt
            · exact Nat.lt_trans hlt (Memory.wf_head_lt h d hd)
      subst hx
      have hw : w = w' := by simpa [Memory.read] using e x
      subst hw
      have hr : rest = rest' := by
        refine ih (Memory.wf_tail h) (Memory.wf_tail h') fun a => ?_
        by_cases hax : a = x
        · subst hax
          rw [Memory.read_of_lt rest a (Memory.wf_head_lt h), Memory.read_of_lt rest' a (Memory.wf_head_lt h')]
        · have := e a
          simpa [Memory.read, hax] using this
      rw [hr]

end Sys2Proof.Machine
end

