-- ==== Sys2Proof/Laws/Span.lean ====
section
/-! SUPPORT. What the interval tests of the preconditions mean, address by address. -/

namespace Sys2Proof

theorem Span.has_iff (r : Span) (a : Nat) : r.has a = true ↔ r.base ≤ a ∧ a < r.base + r.len := by
  simp [Span.has]

/-- Disjoint intervals share no address, and only those. -/
theorem Span.disjoint_iff (r t : Span) :
    r.disjoint t = true ↔ ∀ a, ¬ (r.has a = true ∧ t.has a = true) := by
  constructor
  · intro h a ⟨h1, h2⟩
    rw [Span.has_iff] at h1 h2
    simp [Span.disjoint] at h
    omega
  · intro h
    by_contra hn
    simp [Span.disjoint] at hn
    refine h (max r.base t.base) ⟨(Span.has_iff _ _).2 ?_, (Span.has_iff _ _).2 ?_⟩ <;> omega

theorem Span.disjoint_comm (r t : Span) : r.disjoint t = t.disjoint r := by
  rw [Bool.eq_iff_iff, Span.disjoint_iff, Span.disjoint_iff]
  constructor <;> intro h a ⟨h1, h2⟩ <;> exact h a ⟨h2, h1⟩

/-- `allBelow` is the bounded quantifier it stands for. -/
theorem allBelow_iff (p : Nat → Bool) (n : Nat) : allBelow p n = true ↔ ∀ k < n, p k = true := by
  induction n with
  | zero => simp [allBelow]
  | succ n ih =>
    simp only [allBelow, Bool.and_eq_true, ih]
    constructor
    · rintro ⟨h, hr⟩ k hk
      rcases Nat.lt_succ_iff_lt_or_eq.1 hk with hk | rfl
      · exact hr k hk
      · exact h
    · exact fun h => ⟨h n (by omega), fun k hk => h k (by omega)⟩

/-- Every address of the interval exists. -/
theorem Span.allMapped_iff (map : List Region) (r : Span) :
    r.allMapped map = true ↔ ∀ a, r.has a = true → mapped map a = true := by
  rw [Span.allMapped, allBelow_iff]
  constructor
  · intro h a ha
    rw [Span.has_iff] at ha
    have := h (a - r.base) (by omega)
    rwa [Nat.add_sub_cancel' ha.1] at this
  · exact fun h k hk => h _ ((Span.has_iff _ _).2 ⟨by omega, by omega⟩)

/-- The compatibility of R67 is symmetric. -/
theorem compatible_comm (l : Layout) (o : Opnd) (l' : Layout) (o' : Opnd) :
    compatible l o l' o' = compatible l' o' l o := by
  unfold compatible
  rw [Span.disjoint_comm (o.writes l) (o'.writes l')]
  cases (o'.writes l').disjoint (o.writes l) <;> simp [Bool.and_comm]

theorem Layout.step_pos (l : Layout) : 0 < l.step := by cases l <;> decide
theorem Layout.offR_lt (l : Layout) : l.offR < l.step := by cases l <;> decide
theorem Layout.offG_lt (l : Layout) : l.offG < l.step := by cases l <;> decide
theorem Layout.offB_lt (l : Layout) : l.offB < l.step := by cases l <;> decide

end Sys2Proof
end

