-- ==== Sys2Proof/Laws/Row.lean ====
section
/-! SUPPORT. Laws of the row procedure: what storing one pixel, one column and one row does to each byte of memory. -/

namespace Sys2Proof.Machine

/-- Storing a pixel keeps the canonical form. -/
theorem wf_storePixel (l : Layout) (x : Rgb) (p : Nat) {m : Memory} (h : m.wf) : (storePixel l x p m).wf := by
  have h3 := Memory.wf_write (p + l.offB) x.b (Memory.wf_write (p + l.offG) x.g (Memory.wf_write (p + l.offR) x.r h))
  unfold storePixel storeOpacity
  split
  · exact Memory.wf_write _ _ h3
  · exact h3

/-- What storing a pixel does: byte `k` of the pixel becomes its channel, every other byte stays. -/
theorem read_storePixel (l : Layout) (x : Rgb) (p b : Nat) {m : Memory} (h : m.wf) :
    (storePixel l x p m).read b =
      if p ≤ b ∧ b < p + l.step then channelAt l x (b - p) else m.read b := by
  have h1 := Memory.wf_write (p + l.offR) x.r h
  have h2 := Memory.wf_write (p + l.offG) x.g h1
  have h3 := Memory.wf_write (p + l.offB) x.b h2
  by_cases hb : p ≤ b ∧ b < p + l.step
  · obtain ⟨k, rfl⟩ := Nat.exists_eq_add_of_le hb.1
    have hk : k < l.step := by omega
    rw [if_pos hb, Nat.add_sub_cancel_left]
    unfold storePixel storeOpacity
    cases l <;> simp only [Layout.step, Layout.offA, Layout.offR, Layout.offG, Layout.offB] at * <;>
      simp only [Nat.add_zero] at * <;>
      (interval_cases k <;>
        simp [Memory.read_write _ _ _ _ h, Memory.read_write _ _ _ _ h1, Memory.read_write _ _ _ _ h2,
          Memory.read_write _ _ _ _ h3, channelAt, Layout.offR, Layout.offG, Layout.offB])
  · rw [if_neg hb]
    have hne : ∀ k, k < l.step → b ≠ p + k := fun k hk => by omega
    unfold storePixel storeOpacity
    cases l <;> simp only [Layout.step, Layout.offA, Layout.offR, Layout.offG, Layout.offB] at * <;>
      simp only [Nat.add_zero] at * <;>
      simp (disch := omega) only [Memory.read_write_other]

/-- A row keeps the canonical form. -/
theorem wf_row (c : Coef) (l : Layout) (o : Opnd) (n : Nat) {m : Memory} (h : m.wf) : (row c l o n m).wf := by
  induction n with
  | zero => exact h
  | succ n ih => exact wf_storePixel _ _ _ ih

/-- The bytes outside the first `n` columns of the destination stay as they were. -/
theorem read_row_outside (c : Coef) (l : Layout) (o : Opnd) (n : Nat) {m : Memory} (h : m.wf) (b : Nat)
    (hb : b < o.d.toNat ∨ o.d.toNat + n * l.step ≤ b) : (row c l o n m).read b = m.read b := by
  induction n with
  | zero => rfl
  | succ n ih =>
    have hs : (n + 1) * l.step = n * l.step + l.step := Nat.succ_mul n l.step
    change (storePixel l _ (o.d.toNat + n * l.step) (row c l o n m)).read b = m.read b
    rw [read_storePixel _ _ _ _ (wf_row c l o n h), if_neg (by omega)]
    exact ih (by omega)

/-- The pixel of a column depends on its three source bytes alone. -/
theorem columnPixel_congr (c : Coef) (o : Opnd) {m m' : Memory} (i : Nat)
    (hy : m.read (o.y.toNat + i) = m'.read (o.y.toNat + i))
    (hu : m.read (o.u.toNat + i / 2) = m'.read (o.u.toNat + i / 2))
    (hv : m.read (o.v.toNat + i / 2) = m'.read (o.v.toNat + i / 2)) :
    columnPixel c o m i = columnPixel c o m' i := by
  simp [columnPixel, hy, hu, hv]

/-- Within its contract, a source byte of column `i` lies outside the destination. -/
theorem source_outside {l : Layout} {o : Opnd} (h : selfDisjoint l o = true) {i : Nat} (hi : i < o.n.toNat) (b : Nat)
    (hb : b = o.y.toNat + i ∨ b = o.u.toNat + i / 2 ∨ b = o.v.toNat + i / 2) :
    b < o.d.toNat ∨ o.d.toNat + o.n.toNat * l.step ≤ b := by
  simp only [selfDisjoint, Opnd.reads, List.all_cons, List.all_nil, Bool.and_true, Bool.and_eq_true,
    Span.disjoint_iff, Span.has_iff, Opnd.writes, Opnd.ySpan, Opnd.uSpan, Opnd.vSpan, Opnd.clen] at h
  obtain ⟨h1, h2, h3⟩ := h
  rcases hb with rfl | rfl | rfl
  · have := h1 (o.y.toNat + i); omega
  · have := h2 (o.u.toNat + i / 2); omega
  · have := h3 (o.v.toNat + i / 2); omega

/-- The first `n` columns do not change the pixel of any column of the row. -/
theorem columnPixel_row (c : Coef) {l : Layout} {o : Opnd} (hd : selfDisjoint l o = true) {n i : Nat}
    (hn : n ≤ o.n.toNat) (hi : i < o.n.toNat) {m : Memory} (h : m.wf) :
    columnPixel c o (row c l o n m) i = columnPixel c o m i := by
  have hle := Nat.mul_le_mul_right l.step hn
  have key : ∀ b, (b = o.y.toNat + i ∨ b = o.u.toNat + i / 2 ∨ b = o.v.toNat + i / 2) →
      (row c l o n m).read b = m.read b := fun b hb => by
    have := source_outside hd hi b hb
    exact read_row_outside c l o n h b (by omega)
  exact columnPixel_congr c o i (key _ (.inl rfl)) (key _ (.inr (.inl rfl))) (key _ (.inr (.inr rfl)))

/-- What the first `n` columns leave at each address: the final value of that byte of the write set, and the old byte
elsewhere. -/
theorem read_row (c : Coef) {l : Layout} {o : Opnd} (hd : selfDisjoint l o = true) {n : Nat} (hn : n ≤ o.n.toNat)
    {m : Memory} (h : m.wf) (b : Nat) :
    (row c l o n m).read b =
      if o.d.toNat ≤ b ∧ b < o.d.toNat + n * l.step then rowByte c l o m (b - o.d.toNat) else m.read b := by
  induction n with
  | zero => simp only [row, Nat.zero_mul, Nat.add_zero]; rw [if_neg (by omega)]
  | succ n ih =>
    have hpos := l.step_pos
    have hs : (n + 1) * l.step = n * l.step + l.step := Nat.succ_mul n l.step
    change (storePixel l _ (o.d.toNat + n * l.step) (row c l o n m)).read b = _
    rw [read_storePixel _ _ _ _ (wf_row c l o n h), columnPixel_row c hd (by omega) (by omega) h, ih (by omega)]
    by_cases h1 : o.d.toNat + n * l.step ≤ b ∧ b < o.d.toNat + n * l.step + l.step
    · rw [if_pos h1, if_pos (by omega)]
      obtain ⟨k, rfl⟩ := Nat.exists_eq_add_of_le h1.1
      have hk : k < l.step := by omega
      have e1 : o.d.toNat + n * l.step + k - o.d.toNat = k + l.step * n := by rw [Nat.mul_comm]; omega
      rw [Nat.add_sub_cancel_left, e1, rowByte, Nat.add_mul_div_left _ _ hpos, Nat.add_mul_mod_self_left,
        Nat.div_eq_of_lt hk, Nat.mod_eq_of_lt hk, Nat.zero_add]
    · rw [if_neg h1]
      by_cases h2 : o.d.toNat ≤ b ∧ b < o.d.toNat + n * l.step
      · rw [if_pos h2, if_pos (by omega)]
      · rw [if_neg h2, if_neg (by omega)]

end Sys2Proof.Machine
end

