-- ==== Sys2Proof/Laws/Decode.lean ====
section
/-! SUPPORT. Laws of the command word: its fields, and that it is rebuilt from them; the conversions of one layout. -/

namespace Sys2Proof

/-- The fields of a word that was laid out from them. -/
theorem fields_commandWord (p : BitVec 4) (l : BitVec 2) (t : Byte) :
    opcField (commandWord p l t) = p ∧ layoutField (commandWord p l t) = l ∧ z0Field (commandWord p l t) = 0 ∧
      tierField (commandWord p l t) = t ∧ z1Field (commandWord p l t) = 0 := by
  unfold opcField layoutField z0Field tierField z1Field commandWord
  refine ⟨?_, ?_, ?_, ?_, ?_⟩ <;>
    (ext i hi
     simp only [BitVec.getElem_extractLsb', BitVec.getLsbD_append]
     interval_cases i <;> simp)

/-- A word whose must-be-zero fields are zero is laid out from its other fields. -/
theorem commandWord_fields (w : Word) (h1 : z1Field w = 0) (h0 : z0Field w = 0) :
    commandWord (opcField w) (layoutField w) (tierField w) = w := by
  have hz1 : ∀ i, 16 ≤ i → i < 32 → w.getLsbD i = false := fun i hl hu => by
    have h := congrArg (fun b => b.getLsbD (i - 16)) h1
    have e : 16 + (i - 16) = i := by omega
    have hi : i - 16 < 16 := by omega
    simpa [z1Field, e, hi] using h
  have hz0 : ∀ i, 6 ≤ i → i < 8 → w.getLsbD i = false := fun i hl hu => by
    have h := congrArg (fun b => b.getLsbD (i - 6)) h0
    have e : 6 + (i - 6) = i := by omega
    have hi : i - 6 < 2 := by omega
    simpa [z0Field, e, hi] using h
  refine BitVec.eq_of_getLsbD_eq fun i hi => ?_
  have k1 := hz1 i
  have k0 := hz0 i
  clear hz1 hz0 h1 h0
  unfold commandWord opcField layoutField tierField
  simp only [BitVec.getLsbD_append, BitVec.getLsbD_extractLsb']
  interval_cases i <;> simp at k1 k0 ⊢ <;> simp_all

@[simp] theorem Layout.ofField_field (l : Layout) : Layout.ofField l.field = l := by cases l <;> decide
@[simp] theorem Layout.field_ofField (f : BitVec 2) : (Layout.ofField f).field = f := by revert f; decide

/-- The kernel reference as rules R90 and R93 write it. -/
theorem kernelRef_eq (l : Layout) (t : Byte) :
    kernelRef l t = (0x00000003 : Word) ||| (l.field.setWidth 32 <<< 4) ||| (t.setWidth 32 <<< 8) := by
  refine BitVec.eq_of_getLsbD_eq fun i hi => ?_
  unfold kernelRef commandWord
  simp only [BitVec.getLsbD_append, BitVec.getLsbD_or, BitVec.getLsbD_shiftLeft, BitVec.getLsbD_setWidth]
  cases l <;> simp only [Layout.field] <;> interval_cases i <;> simp

@[simp] theorem encode_conv (l : Layout) (t : Byte) (o : Opnd) :
    encode (Instr.conv l t o) = { cw := kernelRef l t, opnd := o } := by cases l <;> rfl

@[simp] theorem wellFormed_conv (c : Config) (l : Layout) (t : Byte) (o : Opnd) :
    (Instr.conv l t o).wellFormed c = (decide (t.toNat < c.nt) && o.fits c.aw) := by cases l <;> rfl

@[simp] theorem opnd_conv (l : Layout) (t : Byte) (o : Opnd) : (Instr.conv l t o).opnd = some o := by cases l <;> rfl
@[simp] theorem layout_conv (l : Layout) (t : Byte) (o : Opnd) : (Instr.conv l t o).layout = some l := by cases l <;> rfl
@[simp] theorem isLookup_conv (l : Layout) (t : Byte) (o : Opnd) : (Instr.conv l t o).isLookup = false := by
  cases l <;> rfl
@[simp] theorem isInit_conv (l : Layout) (t : Byte) (o : Opnd) : (Instr.conv l t o).isInit = false := by cases l <;> rfl

/-- A command with a layout is a conversion. -/
theorem eq_conv_of_layout {i : Instr} {l : Layout} (h : i.layout = some l) : ∃ t o, i = Instr.conv l t o := by
  cases i <;> simp [Instr.layout] at h <;> subst h <;> exact ⟨_, _, rfl⟩

end Sys2Proof
end

