-- ==== Sys2Proof/Laws/State.lean ====
section
/-! SUPPORT. What each update of the state leaves in each field, so that no proof unfolds a record update. -/

namespace Sys2Proof.Machine

section updPort
variable (s : State) (p : Nat) (f : Port → Port)

@[simp] theorem State.updPort_cfg : (s.updPort p f).cfg = s.cfg := rfl
@[simp] theorem State.updPort_sr : (s.updPort p f).sr = s.sr := rfl
@[simp] theorem State.updPort_mem : (s.updPort p f).mem = s.mem := rfl
@[simp] theorem State.updPort_used : (s.updPort p f).used = s.used := rfl
@[simp] theorem State.updPort_cur : (s.updPort p f).cur = s.cur := rfl
@[simp] theorem State.updPort_sched : (s.updPort p f).sched = s.sched := rfl
@[simp] theorem State.updPort_seen : (s.updPort p f).seen = s.seen := rfl
@[simp] theorem State.updPort_fresh : (s.updPort p f).fresh = s.fresh := rfl
@[simp] theorem State.updPort_ports : (s.updPort p f).ports = s.ports.modify p f := rfl

/-- Changing a port changes that port alone. -/
theorem State.updPort_get (j : Nat) :
    (s.updPort p f).ports[j]? = if p = j then s.ports[j]?.map f else s.ports[j]? := by
  rw [State.updPort_ports, List.getElem?_modify]
  split <;> simp

end updPort

section accept
variable (i : Instr) (s : State)

@[simp] theorem State.accept_cfg : (s.accept i).cfg = s.cfg := rfl
@[simp] theorem State.accept_sr : (s.accept i).sr = s.sr := rfl
@[simp] theorem State.accept_mem : (s.accept i).mem = s.mem := rfl
@[simp] theorem State.accept_used : (s.accept i).used = (s.used || i.isLookup) := rfl
@[simp] theorem State.accept_cur : (s.accept i).cur = s.cur := rfl
@[simp] theorem State.accept_sched : (s.accept i).sched = s.sched := rfl
@[simp] theorem State.accept_seen : (s.accept i).seen = s.seen := rfl
@[simp] theorem State.accept_fresh : (s.accept i).fresh = s.fresh := rfl
@[simp] theorem State.accept_ports : (s.accept i).ports = s.ports.modify s.cur (Port.accept i) := rfl

end accept

section respond
variable (v : Word) (s : State)

@[simp] theorem State.respond_cfg : (s.respond v).cfg = s.cfg := rfl
@[simp] theorem State.respond_sr : (s.respond v).sr = s.sr := rfl
@[simp] theorem State.respond_mem : (s.respond v).mem = s.mem := rfl
@[simp] theorem State.respond_used : (s.respond v).used = s.used := rfl
@[simp] theorem State.respond_cur : (s.respond v).cur = s.cur := rfl
@[simp] theorem State.respond_sched : (s.respond v).sched = s.sched := rfl
@[simp] theorem State.respond_seen : (s.respond v).seen = s.seen := rfl
@[simp] theorem State.respond_fresh : (s.respond v).fresh = s.fresh := rfl
@[simp] theorem State.respond_ports :
    (s.respond v).ports = s.ports.modify s.cur fun q => { q with cond := .idle, rsps := q.rsps ++ [v] } := rfl

end respond

section releaseLatches
variable (s : State)

@[simp] theorem State.releaseLatches_cfg : s.releaseLatches.cfg = s.cfg := rfl
@[simp] theorem State.releaseLatches_sr : s.releaseLatches.sr = s.sr := rfl
@[simp] theorem State.releaseLatches_mem : s.releaseLatches.mem = s.mem := rfl
@[simp] theorem State.releaseLatches_used : s.releaseLatches.used = s.used := rfl
@[simp] theorem State.releaseLatches_cur : s.releaseLatches.cur = s.cur := rfl
@[simp] theorem State.releaseLatches_sched : s.releaseLatches.sched = s.sched := rfl
@[simp] theorem State.releaseLatches_seen : s.releaseLatches.seen = s.seen := rfl
@[simp] theorem State.releaseLatches_fresh : s.releaseLatches.fresh = s.fresh + 1 := rfl
@[simp] theorem State.releaseLatches_ports :
    s.releaseLatches.ports = s.ports.modify s.cur fun q => { q with a := freeLatches s.cfg.aw s.fresh } := rfl

end releaseLatches

section runRow
variable (l : Layout) (s : State)

/-- The row of a conversion changes memory and nothing else. -/
theorem State.runRow_eq (q : Port) (h : s.ports[s.cur]? = some q) :
    s.runRow l = { s with mem := row s.cfg.coef l q.a q.a.n.toNat s.mem } := by
  simp [State.runRow, h]

@[simp] theorem State.runRow_cfg : (s.runRow l).cfg = s.cfg := by unfold State.runRow; split <;> rfl
@[simp] theorem State.runRow_sr : (s.runRow l).sr = s.sr := by unfold State.runRow; split <;> rfl
@[simp] theorem State.runRow_ports : (s.runRow l).ports = s.ports := by unfold State.runRow; split <;> rfl
@[simp] theorem State.runRow_used : (s.runRow l).used = s.used := by unfold State.runRow; split <;> rfl
@[simp] theorem State.runRow_cur : (s.runRow l).cur = s.cur := by unfold State.runRow; split <;> rfl
@[simp] theorem State.runRow_sched : (s.runRow l).sched = s.sched := by unfold State.runRow; split <;> rfl
@[simp] theorem State.runRow_seen : (s.runRow l).seen = s.seen := by unfold State.runRow; split <;> rfl
@[simp] theorem State.runRow_fresh : (s.runRow l).fresh = s.fresh := by unfold State.runRow; split <;> rfl

end runRow

section atReset
variable (s : State)

@[simp] theorem State.atReset_cfg : s.atReset.cfg = s.cfg := rfl
@[simp] theorem State.atReset_sr : s.atReset.sr = Registry.empty := rfl
@[simp] theorem State.atReset_ports : s.atReset.ports = s.ports.map Port.atReset := rfl
@[simp] theorem State.atReset_mem : s.atReset.mem = s.mem := rfl
@[simp] theorem State.atReset_used : s.atReset.used = false := rfl
@[simp] theorem State.atReset_cur : s.atReset.cur = 0 := rfl
@[simp] theorem State.atReset_sched : s.atReset.sched = s.sched := rfl
@[simp] theorem State.atReset_seen : s.atReset.seen = s.seen := rfl
@[simp] theorem State.atReset_fresh : s.atReset.fresh = s.fresh := rfl

end atReset

section portAccept
variable (i : Instr) (q : Port)

@[simp] theorem Port.accept_cond : (q.accept i).cond = .busy i [] := rfl
@[simp] theorem Port.accept_a : (q.accept i).a = i.opnd.getD q.a := rfl
@[simp] theorem Port.accept_prog : (q.accept i).prog = q.prog := rfl
@[simp] theorem Port.accept_cidx : (q.accept i).cidx = q.cidx + 1 := rfl
@[simp] theorem Port.accept_rsps : (q.accept i).rsps = q.rsps := rfl
@[simp] theorem Port.accept_before : (q.accept i).before = q.before := rfl
@[simp] theorem Port.accept_answered : (q.accept i).answered = q.answered := rfl
@[simp] theorem Port.accept_response (j : Nat) : (q.accept i).response j = q.response j := rfl
@[simp] theorem Port.atReset_cond : q.atReset.cond = .idle := rfl
@[simp] theorem Port.atReset_prog : q.atReset.prog = q.prog := rfl
@[simp] theorem Port.atReset_cidx : q.atReset.cidx = 0 := rfl
@[simp] theorem Port.atReset_a : q.atReset.a = latchesAtReset := rfl
@[simp] theorem Port.atReset_rsps : q.atReset.rsps = q.rsps := rfl
@[simp] theorem Port.atReset_before : q.atReset.before = q.rsps.length := rfl
@[simp] theorem Port.atReset_answered : q.atReset.answered = 0 := Nat.sub_self _

@[simp] theorem PortCond.cmd_idle : PortCond.idle.cmd = none := rfl
@[simp] theorem PortCond.cmd_busy (w : List Nat) : (PortCond.busy i w).cmd = some i := rfl
@[simp] theorem PortCond.isIdle_idle : PortCond.idle.isIdle = true := rfl
@[simp] theorem PortCond.isIdle_busy (w : List Nat) : (PortCond.busy i w).isIdle = false := rfl

end portAccept

end Sys2Proof.Machine
end

