-- ==== Sys2Proof/Laws/Offer.lean ====
section
/-! SUPPORT. What offering a command can do, once for all commands, and when nothing stops it. -/

namespace Sys2Proof.Machine

/-- No class applies exactly when every condition is false. -/
theorem firstStop_eq_none (xs : List (Bool × Stop)) : firstStop xs = none ↔ ∀ x ∈ xs, x.1 = false := by
  induction xs with
  | nil => simp [firstStop]
  | cons x rest ih =>
    obtain ⟨b, st⟩ := x
    cases b <;> simp [firstStop, ih]

theorem initStop_eq_none (t : Byte) (s : State) :
    initStop t s = none ↔ capable s.cfg t = true ∧ s.used = false ∧ s.initBusy = false ∧ s.lookupBusy = false := by
  simp only [initStop, firstStop_eq_none, List.forall_mem_cons, List.not_mem_nil, false_imp_iff, implies_true, and_true]
  constructor
  · rintro ⟨-, h1, h2, h3, h4⟩
    exact ⟨by simpa using h2, h1, h3, h4⟩
  · rintro ⟨h1, h2, h3, h4⟩
    simp [h1, h2, h3, h4]

theorem lookupStop_eq_none (l : Layout) (s : State) : lookupStop l s = none ↔ lookupContract l s := by
  simp [lookupStop, firstStop_eq_none, lookupContract]

theorem convStop_eq_none (l : Layout) (t : Byte) (o : Opnd) (s : State) :
    convStop l t o s = none ↔ noWrap s.cfg.aw l o = true ∧ capable s.cfg t = true ∧ allMapped s.cfg.map l o = true ∧
      selfDisjoint l o = true ∧ raceFree s l o = true := by
  simp [convStop, firstStop_eq_none]

/-- A command inside its contract, offered on a ready port, is accepted and goes on. -/
theorem offer_accepts {i : Instr} {stop : State → Option Stop} {go : State → Out} {s : State} {q : Port}
    (hr : s.readyPort q) (hw : i.wellFormed s.cfg = true) (hn : stop s = none) :
    offer i stop go s = go (s.accept i) := by
  obtain ⟨ha, hp, hq⟩ := hr
  simp [offer, ha, hp, hq, hw, hn]

/-- Everything that offering a command can answer as a next state: it waited on a `BUSY` port, or it was accepted inside
its contract and went on. -/
theorem offer_next {i : Instr} {stop : State → Option Stop} {go : State → Out} {s t : State}
    (h : offer i stop go s = .next t) :
    ∃ q, s.ports[s.cur]? = some q ∧ s.cfg.admissible = true ∧
      ((∃ j w, q.cond = .busy j w ∧ t = s) ∨
        (q.cond = .idle ∧ i.wellFormed s.cfg = true ∧ stop s = none ∧ go (s.accept i) = .next t)) := by
  unfold offer at h
  split at h
  · cases h
  next ha =>
  have ha : s.cfg.admissible = true := by simpa using ha
  split at h
  · cases h
  next q hq =>
  refine ⟨q, hq, ha, ?_⟩
  split at h
  · next j w hc => cases h; exact .inl ⟨j, w, hc, rfl⟩
  next hc =>
  split at h
  · cases h
  next hw =>
  split at h
  · next st _ => cases st <;> cases h
  next hn =>
  exact .inr ⟨hc, by simpa using hw, hn, h⟩

/-- A `BUSY` port accepts nothing: the offer waits and nothing changes. -/
theorem offer_waits {i : Instr} {stop : State → Option Stop} {go : State → Out} {s : State} {q : Port} {j : Instr}
    {w : List Nat} (ha : s.cfg.admissible = true) (hp : s.ports[s.cur]? = some q) (hc : q.cond = .busy j w) :
    offer i stop go s = .next s := by
  simp [offer, ha, hp, hc]

end Sys2Proof.Machine
end

