-- ==== Sys2Proof/Laws/Step.lean ====
section
/-! SUPPORT. Everything a step can do, once: `exec` as one shape for the six commands, and the cases of an event and of a step. -/

namespace Sys2Proof.Machine

/-- What stands between acceptance and completion in a big step: the row of a conversion, nothing otherwise. -/
def body (i : Instr) (s : State) : State :=
  match i.layout with
  | none => s
  | some l => s.runRow l

/-- The six meanings have one shape: an offer, the body, the completion. -/
theorem exec_eq (i : Instr) (s : State) : exec i s = offer i (stopOf i) (fun s' => completes i (body i s')) s := by
  cases i <;> rfl

theorem exec_conv (l : Layout) (t : Byte) (o : Opnd) (s : State) :
    exec (Instr.conv l t o) s = convert (Instr.conv l t o) l t o s := by cases l <;> rfl

theorem stopOf_conv (l : Layout) (t : Byte) (o : Opnd) : stopOf (Instr.conv l t o) = convStop l t o := by cases l <;> rfl

theorem completes_conv (l : Layout) (t : Byte) (o : Opnd) (s : State) :
    completes (Instr.conv l t o) s = convCompletes s := by cases l <;> rfl

/-- The state after an engine's byte write. -/
def stored (s : State) (p k : Nat) (q : Port) (i : Instr) (w : List Nat) (l : Layout) : State :=
  { s.updPort p (fun q' => { q' with cond := .busy i (insertOffset k w) }) with
    mem := s.mem.write (q.a.d.toNat + k) (rowByte s.cfg.coef l q.a s.mem k) }

/-- What one event can do when it answers a next state. -/
inductive Did (s : State) : State → Prop where
  /-- Nothing: the event was not enabled, and what was offered waits. -/
  | wait : Did s s
  /-- A command ran as one big step. -/
  | ran (p : Nat) (q : Port) (k : Command) (i : Instr) (t : State) (hp : s.ports[p]? = some q) (hc : q.cond = .idle)
      (hk : s.offered q = some k) (hd : decode s.cfg k = .ok i) (h : exec i { s with cur := p } = .next t) : Did s t
  /-- A command was accepted. -/
  | accepted (p : Nat) (q : Port) (k : Command) (i : Instr) (t : State) (hp : s.ports[p]? = some q) (hc : q.cond = .idle)
      (hk : s.offered q = some k) (hd : decode s.cfg k = .ok i) (h : acceptOnly i { s with cur := p } = .next t) : Did s t
  /-- An engine wrote a byte. -/
  | wrote (p k : Nat) (q : Port) (i : Instr) (w : List Nat) (l : Layout) (hp : s.ports[p]? = some q)
      (hc : q.cond = .busy i w) (hl : i.layout = some l) (hk : k < q.a.n.toNat * l.step) (hw : k ∉ w) :
      Did s (stored s p k q i w l)
  /-- A command completed. -/
  | completed (p : Nat) (q : Port) (i : Instr) (w : List Nat) (t : State) (hp : s.ports[p]? = some q)
      (hc : q.cond = .busy i w) (hf : q.finished = true) (h : completes i { s with cur := p } = .next t) : Did s t
  /-- The host wrote a byte. -/
  | hostWrote (a : Nat) (v : Byte) (hm : mapped s.cfg.map a = true) (hw : s.writing a = false) (hr : s.reading a = false) :
      Did s { s with mem := s.mem.write a v }
  /-- The host read a byte. -/
  | hostRead (a : Nat) (hm : mapped s.cfg.map a = true) (hw : s.writing a = false) :
      Did s { s with seen := s.seen ++ [(a, s.mem.read a)] }

/-- Presenting a command waits, or takes it up on an idle port with a decodable command pending. -/
theorem present_next {go : Instr → State → Out} {p : Nat} {s t : State} (h : present go p s = .next t) :
    t = s ∨ ∃ q k i, s.ports[p]? = some q ∧ q.cond = .idle ∧ s.offered q = some k ∧ decode s.cfg k = .ok i ∧
      go i { s with cur := p } = .next t := by
  unfold present at h
  split at h
  · cases h
  next q hq =>
  split at h
  · cases h; exact .inl rfl
  next hc =>
  split at h
  · cases h; exact .inl rfl
  next k hk =>
  split at h
  · cases h
  next i hd => exact .inr ⟨q, k, i, hq, hc, hk, hd, h⟩

/-- An engine's byte write happens, or nothing does. -/
theorem storeByte_next {p k : Nat} {s t : State} (h : storeByte p k s = .next t) :
    t = s ∨ ∃ q i w l, s.ports[p]? = some q ∧ q.cond = .busy i w ∧ i.layout = some l ∧ k < q.a.n.toNat * l.step ∧
      k ∉ w ∧ t = stored s p k q i w l := by
  unfold storeByte at h
  split at h
  · cases h
  next q hq =>
  split at h
  · cases h; exact .inl rfl
  next i w hc =>
  split at h
  · cases h; exact .inl rfl
  next l hl =>
  split at h
  · next hk =>
    cases h
    simp at hk
    exact .inr ⟨q, i, w, l, hq, hc, hl, hk.1, hk.2, rfl⟩
  · cases h; exact .inl rfl

/-- A completion happens on a `BUSY` port whose command is finished, or nothing does. -/
theorem completePort_next {p : Nat} {s t : State} (h : completePort p s = .next t) :
    t = s ∨ ∃ q i w, s.ports[p]? = some q ∧ q.cond = .busy i w ∧ q.finished = true ∧
      completes i { s with cur := p } = .next t := by
  unfold completePort at h
  split at h
  · cases h
  next q hq =>
  split at h
  · cases h; exact .inl rfl
  next i w hc =>
  split at h
  · next hf => exact .inr ⟨q, i, w, hq, hc, hf, h⟩
  · cases h; exact .inl rfl

/-- Every event does one of the things of `Did`, or is the reset event. -/
theorem perform_next {e : Event} {s t : State} (h : perform e s = .next t) :
    Did s t ∨ (e = .reset ∧ t = s.atReset) := by
  cases e with
  | run p =>
    rcases present_next h with rfl | ⟨q, k, i, hp, hc, hk, hd, h⟩
    · exact .inl .wait
    · exact .inl (.ran p q k i t hp hc hk hd h)
  | accept p =>
    rcases present_next h with rfl | ⟨q, k, i, hp, hc, hk, hd, h⟩
    · exact .inl .wait
    · exact .inl (.accepted p q k i t hp hc hk hd h)
  | store p k =>
    rcases storeByte_next h with rfl | ⟨q, i, w, l, hp, hc, hl, hk, hw, rfl⟩
    · exact .inl .wait
    · exact .inl (.wrote p k q i w l hp hc hl hk hw)
  | complete p =>
    rcases completePort_next h with rfl | ⟨q, i, w, hp, hc, hf, h⟩
    · exact .inl .wait
    · exact .inl (.completed p q i w t hp hc hf h)
  | hostWrite a v =>
    simp only [perform, hostWrites] at h
    split at h
    · cases h
    next hm =>
    split at h
    · cases h
    next hr =>
    cases h
    simp at hm hr
    exact .inl (.hostWrote a v hm hr.1 hr.2)
  | hostRead a =>
    simp only [perform, hostReads] at h
    split at h
    · cases h
    next hm =>
    split at h
    · cases h
    next hw =>
    cases h
    simp at hm hw
    exact .inl (.hostRead a hm hw)
  | reset =>
    cases h
    exact .inr ⟨rfl, rfl⟩

/-- Everything a step can do: with its event taken off the schedule, one of the things of `Did`; or the reset event, and then
only because the schedule says so. -/
theorem step_next {s t : State} (h : step s = .next t) :
    programRefusal s = none ∧
      (Did { s with sched := s.sched.tail } t ∨
        (s.sched.head? = some .reset ∧ t = State.atReset { s with sched := s.sched.tail })) := by
  unfold step move at h
  split at h
  · cases h
  next hg =>
  refine ⟨hg, ?_⟩
  unfold advance at h
  split at h
  · next hs =>
    have e : { s with sched := s.sched.tail } = s := by rw [hs, List.tail_nil, ← hs]
    rw [e]
    unfold idleMove at h
    split at h
    · next p q _ =>
      rcases perform_next h with h | ⟨h, -⟩
      · exact .inl h
      · unfold Port.move at h
        split at h
        · cases h
        · split at h
          · cases h
          · split at h <;> cases h
    · split at h
      · rcases perform_next h with h | ⟨h, -⟩
        · exact .inl h
        · cases h
      · cases h
        exact .inl .wait
  · next ev rest hs =>
    rw [hs]
    rcases perform_next h with h | ⟨rfl, rfl⟩
    · exact .inl h
    · exact .inr ⟨rfl, rfl⟩

end Sys2Proof.Machine
end

