-- ==== Sys2Proof/Laws/Convert.lean ====
section
/-! SUPPORT. Laws of the shared operations of the commands: what `exec`, an acceptance, the body and a completion leave, what an
accepted conversion answers, and the progress of a conversion. -/

namespace Sys2Proof.Machine

/-- Two changes of a port that agree on what the port holds are one change of the list. -/
theorem modify_congr {f g : Port → Port} (xs : List Port) (p : Nat) (q : Port) (h : xs[p]? = some q) (e : f q = g q) :
    xs.modify p f = xs.modify p g := by
  apply List.ext_getElem?
  intro j
  simp only [List.getElem?_modify]
  split
  · next hj => subst hj; simp [h, e]
  · rfl

/-- Everything `exec` can do when it answers a next state: it waited on a `BUSY` port, or it ran inside its contract. -/
theorem exec_next {i : Instr} {s t : State} (h : exec i s = .next t) :
    t = s ∨ ∃ q, s.ports[s.cur]? = some q ∧ q.cond = .idle ∧ i.wellFormed s.cfg = true ∧ stopOf i s = none ∧
      completes i (body i (s.accept i)) = .next t := by
  rw [exec_eq] at h
  obtain ⟨q, hq, -, ⟨_, _, -, e⟩ | ⟨hi, hw, hs, hg⟩⟩ := offer_next h
  · exact .inl e
  · exact .inr ⟨q, hq, hi, hw, hs, hg⟩

/-- Everything an acceptance can do when it answers a next state. -/
theorem acceptOnly_next {i : Instr} {s t : State} (h : acceptOnly i s = .next t) :
    t = s ∨ ∃ q, s.ports[s.cur]? = some q ∧ q.cond = .idle ∧ i.wellFormed s.cfg = true ∧ stopOf i s = none ∧
      t = s.accept i := by
  unfold acceptOnly at h
  obtain ⟨q, hq, -, ⟨_, _, -, e⟩ | ⟨hi, hw, hs, hg⟩⟩ := offer_next h
  · exact .inl e
  · cases hg
    exact .inr ⟨q, hq, hi, hw, hs, rfl⟩

/-- The body of a command changes memory alone. -/
theorem body_fields (i : Instr) (s : State) :
    (body i s).cfg = s.cfg ∧ (body i s).sr = s.sr ∧ (body i s).ports = s.ports ∧ (body i s).used = s.used ∧
      (body i s).cur = s.cur := by
  unfold body
  split <;> simp

/-- The body of a command keeps memory canonical. -/
theorem wf_body (i : Instr) {s : State} (h : s.mem.wf) : (body i s).mem.wf := by
  unfold body
  split
  · exact h
  · unfold State.runRow
    split
    · exact h
    · exact wf_row _ _ _ _ h

/-- What a completion leaves: the registry but for `INIT`, every field it does not name, and its port `IDLE` with one more
response, which is 0 but for `LOOKUP`. -/
theorem completes_fields {i : Instr} {s t : State} (h : completes i s = .next t) :
    t.cfg = s.cfg ∧ t.mem = s.mem ∧ t.used = s.used ∧ t.cur = s.cur ∧ t.sched = s.sched ∧
      (t.sr = s.sr ∨ ∃ r, i = .init r ∧ t.sr = Registry.all (Slot.kref r)) ∧
      ∃ (f : Port → Port) (v : Word), t.ports = s.ports.modify s.cur f ∧ (i.isLookup = false → v = 0) ∧
        ∀ q, (f q).cond = .idle ∧ (f q).prog = q.prog ∧ (f q).cidx = q.cidx ∧ (f q).rsps = q.rsps ++ [v] ∧
          (f q).before = q.before ∧ ((f q).a = q.a ∨ ∃ k, (f q).a = freeLatches s.cfg.aw k) := by
  cases i
  case init r =>
    simp only [completes, initCompletes] at h
    cases h
    exact ⟨rfl, rfl, rfl, rfl, rfl, .inr ⟨r, rfl, rfl⟩, _, 0, rfl, fun _ => rfl,
      fun q => ⟨rfl, rfl, rfl, rfl, rfl, .inl rfl⟩⟩
  case lookup l =>
    simp only [completes, lookupCompletes] at h
    split at h
    · cases h
      exact ⟨rfl, rfl, rfl, rfl, rfl, .inl rfl, _, kernelRef l (s.sr.get l).tier, rfl, fun h => (by cases h),
        fun q => ⟨rfl, rfl, rfl, rfl, rfl, .inl rfl⟩⟩
    · cases h
  all_goals
    simp only [completes, convCompletes] at h
    cases h
    refine ⟨rfl, rfl, rfl, rfl, rfl, .inl rfl,
      (fun q => { q with cond := .idle, a := freeLatches s.cfg.aw s.fresh, rsps := q.rsps ++ [0] }), 0, ?_, fun _ => rfl,
      fun q => ⟨rfl, rfl, rfl, rfl, rfl, .inr ⟨_, rfl⟩⟩⟩
    simp [List.modify_modify_eq]
    rfl

/-- What a conversion inside its contract answers on a ready port: the row in memory, the latches released, the response 0. -/
theorem exec_conv_accepted (l : Layout) (s : State) (q : Port) (t : Byte) (o : Opnd) (hr : s.readyPort q)
    (hc : convContract l t o s) :
    exec (Instr.conv l t o) s = .next { s with
        mem := row s.cfg.coef l o o.n.toNat s.mem
        ports := s.ports.modify s.cur fun p =>
          { p with a := freeLatches s.cfg.aw s.fresh, cidx := p.cidx + 1, rsps := p.rsps ++ [0x00000000] }
        fresh := s.fresh + 1 } := by
  obtain ⟨h1, h2, h3, h4, h5, h6, h7⟩ := hc
  rw [exec_conv, convert,
    offer_accepts hr (by simp [h1, h2]) ((convStop_eq_none l t o s).2 ⟨h3, h7, h4, h5, h6⟩)]
  obtain ⟨-, hp, hi⟩ := hr
  have hg : (s.accept (Instr.conv l t o)).ports[(s.accept (Instr.conv l t o)).cur]? =
      some (q.accept (Instr.conv l t o)) := by simp [hp]
  simp only [convCompletes]
  rw [State.runRow_eq l _ _ hg]
  simp only [State.respond, State.releaseLatches, State.accept, State.updPort, List.modify_modify_eq, isLookup_conv,
    Bool.or_false, Port.accept_a, opnd_conv, Option.getD_some]
  rw [modify_congr s.ports s.cur q hp]
  simp [Port.accept, hi]

/-- Byte `k` of pixel `i` after the whole row: the channel the layout puts there. -/
theorem read_row_pixel (c : Coef) {l : Layout} {o : Opnd} (hd : selfDisjoint l o = true) {m : Memory} (h : m.wf) {i k : Nat}
    (hi : i < o.n.toNat) (hk : k < l.step) :
    (row c l o o.n.toNat m).read (o.d.toNat + l.step * i + k) = channelAt l (columnPixel c o m i) k := by
  have hp : 0 < l.step := l.step_pos
  have hb : l.step * i + k < o.n.toNat * l.step := by
    have := Nat.mul_le_mul_left l.step (Nat.succ_le_of_lt hi)
    rw [Nat.mul_succ, Nat.mul_comm l.step o.n.toNat] at this
    omega
  rw [read_row c hd (Nat.le_refl _) h, if_pos (by omega), Nat.add_assoc, Nat.add_sub_cancel_left, rowByte,
    Nat.mul_add_div hp, Nat.div_eq_of_lt hk, Nat.mul_add_mod, Nat.mod_eq_of_lt hk, Nat.add_zero]

/-- The offsets after one more is written. -/
theorem mem_insertOffset (k j : Nat) (w : List Nat) : j ∈ insertOffset k w ↔ j = k ∨ j ∈ w := by
  induction w with
  | nil => simp [insertOffset]
  | cons x rest ih =>
    simp only [insertOffset]
    split
    · simp
    · split
      · next h => subst h; simp
      · simp only [List.mem_cons, ih]; tauto

/-- The progress stays rising. -/
theorem pairwise_insertOffset (k : Nat) {w : List Nat} (h : w.Pairwise (· < ·)) : (insertOffset k w).Pairwise (· < ·) := by
  induction w with
  | nil => simp [insertOffset]
  | cons x rest ih =>
    simp only [insertOffset]
    rw [List.pairwise_cons] at h
    split
    · next hk =>
      refine List.pairwise_cons.2 ⟨fun j hj => ?_, List.pairwise_cons.2 h⟩
      rcases List.mem_cons.1 hj with rfl | hj
      · exact hk
      · exact Nat.lt_trans hk (h.1 j hj)
    · split
      · exact List.pairwise_cons.2 h
      · refine List.pairwise_cons.2 ⟨fun j hj => ?_, ih h.2⟩
        rcases (mem_insertOffset k j rest).1 hj with rfl | hj
        · omega
        · exact h.1 j hj

/-- The latches' free values fit the width of an address. -/
theorem fits_freeLatches (aw k : Nat) : (freeLatches aw k).fits aw = true := by
  have h : ∀ x : Addr, ((x.setWidth aw).setWidth 64).toNat < 2 ^ aw := fun x => by
    rw [BitVec.toNat_setWidth, BitVec.toNat_setWidth]
    exact Nat.lt_of_le_of_lt (Nat.mod_le _ _) (Nat.mod_lt _ (Nat.two_pow_pos _))
  simp only [Opnd.fits, freeLatches, h, decide_true, Bool.and_true]

end Sys2Proof.Machine
end

