-- ==== Sys2Proof/Laws/Datapath.lean ====
section
/-! SUPPORT. Laws of the datapath: the range of the saturating shift, and its value read as a byte. -/

namespace Sys2Proof

/-- The saturating shift answers 0..255 (R123). -/
theorem satshift_range (x : Int) : 0 ≤ satshift x ∧ satshift x ≤ 255 := by
  unfold satshift clamp
  split
  · omega
  · split <;> omega

/-- A number in 0..255 read as a byte keeps its value. -/
theorem toNat_ofInt_of_range {x : Int} (h : 0 ≤ x ∧ x ≤ 255) : ((BitVec.ofInt 8 x).toNat : Int) = x := by
  rw [BitVec.toNat_ofInt]
  omega

/-- The three channels of a pixel as numbers. -/
theorem pix_toNat (c : Coef) (y u v : Byte) :
    ((c.pix y u v).r.toNat : Int) = satshift (c.rAcc (zext y) (zext v)) ∧
      ((c.pix y u v).g.toNat : Int) = satshift (c.gAcc (zext y) (zext u) (zext v)) ∧
      ((c.pix y u v).b.toNat : Int) = satshift (c.bAcc (zext y) (zext u)) :=
  ⟨toNat_ofInt_of_range (satshift_range _), toNat_ofInt_of_range (satshift_range _),
    toNat_ofInt_of_range (satshift_range _)⟩

end Sys2Proof
end

