-- ==== Sys2Proof/Laws/PerInstr.lean ====
section
/-! SUPPORT. Statements made once per command, for the host's case split over the constructors. -/

/-- R88, R89, R90: under the opcode table's mask, a command's word is the table's match. -/
def Sys2Proof.Laws.TableMatch.Statement (i : Sys2Proof.Instr) : Prop :=
  (Sys2Proof.encode i).cw &&& i.tableMask = i.tableMatch

namespace Sys2Proof.Laws.TableMatch

theorem init (t : Byte) : Statement (.init t) := by
  unfold Statement encode commandWord
  revert t
  decide

theorem lookup (l : Layout) : Statement (.lookup l) := by
  unfold Statement
  cases l <;> decide

/-- The tier field lies outside the mask of a conversion. -/
theorem kernelRef_masked (l : Layout) (t : Byte) :
    kernelRef l t &&& 0xFFFF00FF = (0x00000003 : Word) ||| (l.field.setWidth 32 <<< 4) := by
  revert t
  cases l <;> decide

theorem convRgb (t : Byte) (o : Opnd) : Statement (.convRgb t o) := kernelRef_masked .rgb t
theorem convRgba (t : Byte) (o : Opnd) : Statement (.convRgba t o) := kernelRef_masked .rgba t
theorem convBgr (t : Byte) (o : Opnd) : Statement (.convBgr t o) := kernelRef_masked .bgr t
theorem convBgra (t : Byte) (o : Opnd) : Statement (.convBgra t o) := kernelRef_masked .bgra t

end Sys2Proof.Laws.TableMatch
end

