-- ==== Sys2Proof/Laws/Program.lean ====
section
/-! SUPPORT. Laws of the host's side: what a program's refusal and what the host presents depend on. -/

namespace Sys2Proof.Machine

/-- What the host presents depends on the ports alone. -/
theorem State.offered_of_ports {s t : State} (h : t.ports = s.ports) (q : Port) : t.offered q = s.offered q := by
  unfold State.offered
  rw [h]

/-- A command is presented only while the list has an entry left. -/
theorem State.cidx_lt_of_offered {s : State} {q : Port} {k : Command} (h : s.offered q = some k) : q.cidx < q.prog.length := by
  unfold State.offered Port.pending at h
  split at h
  · cases h
  · next hx => exact (List.getElem?_eq_some_iff.1 hx).1

/-- An entry with a word of its own and nothing to wait for is presented. -/
theorem State.offered_issueOf {s : State} {q : Port} {k : Command} (h : q.pending = some (issueOf k)) :
    s.offered q = some k := by
  simp [State.offered, h, issueOf, waitOver, sourceWord]

/-- What command `j` of a port returns, as the lists show it, depends on the lists alone. -/
theorem returnedWord_of_prog (c : Config) {ps qs : List Port} (h : ps.map Port.prog = qs.map Port.prog) (p j : Nat) :
    returnedWord c ps p j = returnedWord c qs p j := by
  have e : (ps[p]?.bind fun q => q.prog[j]?) = qs[p]?.bind fun q => q.prog[j]? := by
    have := congrArg (fun l => l[p]?.bind fun x => x[j]?) h
    simpa [Option.bind_map, Function.comp_def] using this
  unfold returnedWord
  rw [e]

theorem shapeOf_of_prog (c : Config) {ps qs : List Port} (h : ps.map Port.prog = qs.map Port.prog) (x : Issue) :
    shapeOf c ps x = shapeOf c qs x := by
  unfold shapeOf
  split
  · rfl
  · rw [returnedWord_of_prog c h]

/-- A test of the lists alone answers the same on the same lists. -/
theorem any_of_prog {ps qs : List Port} (h : ps.map Port.prog = qs.map Port.prog) (g : List Issue → Bool) :
    ps.any (fun q => g q.prog) = qs.any fun q => g q.prog := by
  have e : ∀ rs : List Port, rs.any (fun q => g q.prog) = (rs.map Port.prog).any g := fun rs => List.any_map.symm
  rw [e, e, h]

theorem flatMap_of_prog {ps qs : List Port} (h : ps.map Port.prog = qs.map Port.prog) (g : List Issue → List Command) :
    ps.flatMap (fun q => g q.prog) = qs.flatMap fun q => g q.prog := by
  have e : ∀ rs : List Port, rs.flatMap (fun q => g q.prog) = (rs.map Port.prog).flatMap g :=
    fun rs => (List.flatMap_map ..).symm
  rw [e, e, h]

/-- Whether a program is refused depends on the configuration and the host's lists alone. -/
theorem programRefusal_of_prog {s t : State} (hc : t.cfg = s.cfg) (hp : t.ports.map Port.prog = s.ports.map Port.prog) :
    programRefusal t = programRefusal s := by
  have hsh : t.shapes = fun q => q.prog.map fun x => shapeOf s.cfg s.ports x := funext fun q => by
    simp only [State.shapes, hc, shapeOf_of_prog s.cfg hp]
  have hin : t.instrs = fun q => (q.prog.map fun x => shapeOf s.cfg s.ports x).filterMap
      fun k => (decode s.cfg k).toOption := funext fun q => by simp only [State.instrs, hsh, hc]
  have hflat : t.ports.flatMap t.shapes = s.ports.flatMap s.shapes := by
    rw [hsh]
    exact flatMap_of_prog hp fun l => l.map fun x => shapeOf s.cfg s.ports x
  have hany : ∀ f : List Instr → Bool,
      t.ports.any (fun q => f (t.instrs q)) = s.ports.any fun q => f (s.instrs q) := fun f => by
    rw [hin]
    exact any_of_prog hp fun l => f ((l.map fun x => shapeOf s.cfg s.ports x).filterMap
      fun k => (decode s.cfg k).toOption)
  unfold programRefusal
  rw [hc, hflat, hany (lateInitIn false), hany fun is => is.any (instrWraps s.cfg)]

/-- Changing a port without touching its list leaves every list as it was. -/
theorem map_prog_modify {f : Port → Port} (h : ∀ q, (f q).prog = q.prog) (xs : List Port) (p : Nat) :
    (xs.modify p f).map Port.prog = xs.map Port.prog := by
  apply List.ext_getElem?
  intro j
  simp only [List.getElem?_map, List.getElem?_modify]
  cases xs[j]? <;> simp
  split <;> simp [h]

end Sys2Proof.Machine
end

