-- ==== Sys2Proof/Laws/Run.lean ====
section
/-! SUPPORT. Laws of runs: a run step by step, the step of a scheduled event, and what each event does when it is enabled. -/

namespace Sys2Proof.Machine

/-- A run whose first step goes on is the run from there. -/
theorem run_succ {M : Host.Core} {s t : M.State} (n : Nat) (h : M.step s = .next t) : M.run (n + 1) s = M.run n t := by
  rw [Host.Core.run, h]

/-- A run of one step is the step. -/
theorem run_one {M : Host.Core} (s : M.State) : M.run 1 s = M.step s := by
  rw [Host.Core.run]
  cases M.step s <;> rfl

/-- Two runs in turn. -/
theorem run_add {M : Host.Core} {s t : M.State} (m n : Nat) (h : M.run m s = .next t) : M.run (m + n) s = M.run n t := by
  induction m generalizing s with
  | zero =>
    cases h
    rw [Nat.zero_add]
  | succ m ih =>
    rw [Host.Core.run] at h
    rw [Nat.add_right_comm, Host.Core.run]
    cases hs : M.step s with
    | next u =>
      rw [hs] at h
      exact ih h
    | fault r =>
      rw [hs] at h
      cases h
    | refused r =>
      rw [hs] at h
      cases h

/-- The step of a scheduled event. -/
theorem step_event {s : State} {e : Event} {rest : List Event} (hg : programRefusal s = none) (hs : s.sched = e :: rest) :
    step s = perform e { s with sched := rest } := by
  simp [step, move, hg, advance, hs]

/-- A command presented on an idle port is taken up. -/
theorem present_offered {go : Instr → State → Out} {p : Nat} {s : State} {q : Port} {k : Command} {i : Instr}
    (hp : s.ports[p]? = some q) (hc : q.cond = .idle) (ho : s.offered q = some k) (hd : decode s.cfg k = .ok i) :
    present go p s = go i { s with cur := p } := by
  simp [present, hp, hc, ho, hd]

/-- A byte left to write is written. -/
theorem storeByte_stored {p k : Nat} {s : State} {q : Port} {i : Instr} {w : List Nat} {l : Layout}
    (hp : s.ports[p]? = some q) (hc : q.cond = .busy i w) (hl : i.layout = some l) (hk : k < q.a.n.toNat * l.step)
    (hw : k ∉ w) : storeByte p k s = .next (stored s p k q i w l) := by
  simp [storeByte, hp, hc, hl, hk, hw, stored]

/-- A finished command completes. -/
theorem completePort_finished {p : Nat} {s : State} {q : Port} {i : Instr} {w : List Nat} (hp : s.ports[p]? = some q)
    (hc : q.cond = .busy i w) (hf : q.finished = true) : completePort p s = completes i { s with cur := p } := by
  simp [completePort, hp, hc, hf]

end Sys2Proof.Machine
end

