-- ==== Sys2Proof/Tests/Slice0.lean ====
section
/-! SUPPORT. Tests, with expected results from 95_test_vectors; and, for every statement with hypotheses, a state and operands
that meet them. -/

namespace Sys2Proof.Tests

open Sys2Proof Sys2Proof.Machine

/-! ## Small machines -/

/-- 95_test_vectors B10's memory map, `np` ports, two tiers of which `cap` says which are capable. -/
def cfg (np : Nat) (cap : BitVec 256) : Config :=
  { aw := 32, nt := 2, cap := cap, np := np, coef := Coef.ref, map := [⟨0x1000, 0x4000⟩] }

/-- The source planes of B5. -/
def planes : Memory :=
  [(0x1000, 81), (0x1001, 145), (0x1002, 41), (0x1003, 128), (0x1004, 235),
   (0x2000, 90), (0x2001, 54), (0x2002, 128), (0x3000, 240), (0x3001, 34), (0x3002, 128)]

/-- Operands of B10: the planes of B5, destination `d`, `n` columns. -/
def row5 (d : Addr) (n : Word) : Opnd := { y := 0x1000, u := 0x2000, v := 0x3000, d := d, n := n }

/-- Three columns from the planes of B5 to 0x4000. -/
def o3 : Opnd := row5 0x4000 3

/-- The command of `CONV.RGB 0` on `o3`. -/
def k3 : Command := encode (.convRgb 0 o3)

/-- Just after reset, with the planes in memory. -/
def boot (np : Nat) (cap : BitVec 256) : State := { State.resetOf (cfg np cap) with mem := planes }

/-- The usual machine: one port, both tiers capable. -/
def one : State := boot 1 3

/-- The port of `one`. -/
def port0 : Port := Port.reset

/-- `one` with the registry filled by tier `t`. -/
def filled (t : Byte) : State := { one with sr := Registry.all (Slot.kref t) }

/-- Two ports, of which port 1 has `i` in flight with the bytes `w` written; port 0 is the one presented on. -/
def busyPort1 (i : Instr) (a : Opnd) (w : List Nat) : State :=
  { boot 2 3 with
    ports := [Port.reset, { Port.reset with cond := .busy i w, a := a, prog := [issueOf (encode i)], cidx := 1 }] }

/-- A machine with command list `ks` on its one port and the events `es`. -/
def loaded (ks : List Command) (es : List Event) : State :=
  { one with ports := [{ Port.reset with prog := ks.map issueOf }], sched := es }

def isNext : Out → Bool
  | .next _ => true
  | _ => false

def faultOf : Out → Option Fault
  | .fault f => some f
  | _ => none

def refusalOf : Out → Option Refusal
  | .refused r => some r
  | _ => none

/-- The `n` bytes from `a` after a next state. -/
def bytesAt (a n : Nat) : Out → List Byte
  | .next s => (List.range n).map fun k => s.mem.read (a + k)
  | _ => []

/-- The registry and `USED` after a next state. -/
def registryOf : Out → Option (Registry × Bool)
  | .next s => some (s.sr, s.used)
  | _ => none

/-- The responses on port 0 after a next state. -/
def answers : Out → List Word
  | .next s => (s.ports.map Port.rsps).headD []
  | _ => []

theorem next_of_isNext {x : Out} (h : isNext x = true) : ∃ t, x = .next t := by
  cases x <;> simp [isNext] at h
  exact ⟨_, rfl⟩

/-! ## Well-formedness and the decoder -/

theorem test_wellFormed_smoke :
    (Instr.init 1).wellFormed (cfg 1 3) = true ∧ (Instr.init 2).wellFormed (cfg 1 3) = false ∧
      (Instr.convRgb 1 (row5 0x4000 3)).wellFormed (cfg 1 3) = true ∧
      (Instr.convRgba 2 (row5 0x4000 3)).wellFormed (cfg 1 3) = false ∧
      (Instr.convBgr 0 { row5 0x4000 3 with y := 0x100000000 }).wellFormed (cfg 1 3) = false ∧
      (Instr.convBgr 0 { row5 0x4000 3 with u := 0x100000000 }).wellFormed (cfg 1 3) = false ∧
      (Instr.convBgra 0 { row5 0x4000 3 with v := 0x100000000 }).wellFormed (cfg 1 3) = false ∧
      (Instr.convBgra 0 (row5 0x100000000 3)).wellFormed (cfg 1 3) = false := by decide

/-- An ill-formed term is refused by every meaning that has a check. -/
theorem test_exec_refuses_ill_formed :
    refusalOf (exec (.init 2) one) = some .illFormed ∧
      refusalOf (exec (.convRgb 2 (row5 0x4000 1)) one) = some .illFormed ∧
      refusalOf (exec (.convBgra 0 (row5 0x100000000 1)) one) = some .illFormed := by decide

/-- B7's words, their bits written out by R81: `Z1` 16 bits, `TIER` 8, `Z0` 2, `LAYOUT` 2, `OPC` 4. -/
theorem test_decode_init :
    decode (cfg 1 3) { cw := 0b0000000000000000_00000001_00_00_0001, opnd := row5 1 1 } = .ok (.init 1) := by decide

theorem test_decode_lookup :
    decode (cfg 1 3) { cw := 0b0000000000000000_00000000_00_00_0010, opnd := row5 1 1 } = .ok (.lookup .rgb) ∧
      decode (cfg 1 3) { cw := 0b0000000000000000_00000000_00_01_0010, opnd := row5 1 1 } = .ok (.lookup .rgba) ∧
      decode (cfg 1 3) { cw := 0b0000000000000000_00000000_00_10_0010, opnd := row5 1 1 } = .ok (.lookup .bgr) ∧
      decode (cfg 1 3) { cw := 0b0000000000000000_00000000_00_11_0010, opnd := row5 1 1 } = .ok (.lookup .bgra) := by decide

theorem test_decode_conv_rgb :
    decode (cfg 1 3) { cw := 0b0000000000000000_00000000_00_00_0011, opnd := row5 0x4000 3 } =
      .ok (.convRgb 0 { y := 0x1000, u := 0x2000, v := 0x3000, d := 0x4000, n := 3 }) := by decide

theorem test_decode_conv_rgba :
    decode (cfg 1 3) { cw := 0b0000000000000000_00000001_00_01_0011, opnd := row5 0x4000 3 } =
      .ok (.convRgba 1 (row5 0x4000 3)) := by decide

theorem test_decode_conv_bgr :
    decode (cfg 1 3) { cw := 0b0000000000000000_00000001_00_10_0011, opnd := row5 0x4000 3 } =
      .ok (.convBgr 1 (row5 0x4000 3)) := by decide

theorem test_decode_conv_bgra :
    decode (cfg 1 3) { cw := 0b0000000000000000_00000000_00_11_0011, opnd := row5 0x4000 3 } =
      .ok (.convBgra 0 (row5 0x4000 3)) := by decide

/-- Every reserved word of B7, with why it is reserved. -/
theorem test_decode_reserved :
    let no (w : Word) (e : Reject) : Bool := decide (decode (cfg 1 3) { cw := w, opnd := row5 0x4000 3 } = .error e)
    no 0x00000000 .opcode ∧ no 0x00000004 .opcode ∧ no 0x0000000F .opcode ∧
      no 0x00000011 .initLayout ∧ no 0x00000021 .initLayout ∧ no 0x00000031 .initLayout ∧
      no 0x00000201 .tierRange ∧ no 0x00000102 .lookupTier ∧ no 0x00000203 .tierRange ∧ no 0x0000FF33 .tierRange ∧
      no 0x00000043 .fieldZ0 ∧ no 0x00000083 .fieldZ0 ∧ no 0x000000C1 .fieldZ0 ∧
      no 0x00010003 .fieldZ1 ∧ no 0x80000001 .fieldZ1 ∧ no 0xFFFFFFFF .fieldZ1 := by decide

/-- An address that is not `AW` bits wide is no operand (log 8). -/
theorem test_decode_wide_operand :
    decode (cfg 1 3) { cw := 0x00000003, opnd := row5 0x100000000 3 } = .error .operandWidth := by decide

/-- The words of B7 encode as the table says. -/
theorem test_encode_words :
    (encode (.init 1)).cw = 0x00000101 ∧ (encode (.lookup .bgr)).cw = 0x00000022 ∧
      (encode (.convRgb 1 Opnd.zero)).cw = 0x00000103 ∧ (encode (.convRgba 0 Opnd.zero)).cw = 0x00000013 ∧
      (encode (.convBgr 1 Opnd.zero)).cw = 0x00000123 ∧ (encode (.convBgra 1 Opnd.zero)).cw = 0x00000133 := by decide

theorem test_decodeTableWord :
    decodeTableWord 32 0x00000033 = some (.convBgra 0 Opnd.zero) ∧ decodeTableWord 32 0x00000000 = none ∧
      decodeTableWord 16 0x00000001 = none := by decide

theorem test_withFetchWord_runs_the_command :
    isNext (step (State.reset.withFetchWord 32 0x00000001)) = true ∧
      isNext (step (State.reset.withFetchWord 32 0x00000033)) = true ∧
      faultOf (step (State.reset.withFetchWord 32 0x00000002)) = some (.lookupEmpty .rgb) := by decide

/-! ## The datapath -/

/-- B1. -/
theorem test_satshift_table :
    satshift (-2147483648) = 0 ∧ satshift (-513) = 0 ∧ satshift (-1) = 0 ∧ satshift 511 = 0 ∧ satshift 512 = 1 ∧
      satshift 1023 = 1 ∧ satshift 1024 = 2 ∧ satshift 130559 = 254 ∧ satshift 130560 = 255 ∧ satshift 131071 = 255 ∧
      satshift 131072 = 255 ∧ satshift 2147483647 = 255 := by decide

/-- B1, by the bit-level form. -/
theorem test_satshiftBits_table :
    satshiftBits (acc (-513)) = 0 ∧ satshiftBits (acc (-1)) = 0 ∧ satshiftBits (acc 511) = 0 ∧
      satshiftBits (acc 130559) = 254 ∧ satshiftBits (acc 131071) = 255 ∧ satshiftBits (acc 131072) = 255 := by decide

/-- B2, row 4. -/
theorem test_chroma_terms :
    Coef.ref.rBias 240 = 82224 ∧ Coef.ref.gBias 90 240 = 48272 ∧ Coef.ref.bBias 90 = -48534 ∧
      Coef.ref.yScaled 81 = 48276 ∧ Coef.ref.rAcc 81 240 = 130500 ∧ Coef.ref.gAcc 81 90 240 = 4 ∧
      Coef.ref.bAcc 81 90 = -258 := by decide

/-- Rows of B3. -/
theorem test_pix_table :
    Coef.ref.pix 128 128 128 = ⟨130, 130, 130⟩ ∧ Coef.ref.pix 17 128 128 = ⟨1, 1, 1⟩ ∧
      Coef.ref.pix 234 128 128 = ⟨254, 254, 254⟩ ∧ Coef.ref.pix 236 128 128 = ⟨255, 255, 255⟩ ∧
      Coef.ref.pix 0 0 0 = ⟨0, 135, 0⟩ ∧ Coef.ref.pix 0 0 255 = ⟨184, 0, 0⟩ ∧ Coef.ref.pix 0 255 0 = ⟨0, 36, 238⟩ ∧
      Coef.ref.pix 128 0 255 = ⟨255, 77, 0⟩ ∧ Coef.ref.pix 100 200 50 = ⟨0, 133, 243⟩ ∧
      Coef.ref.pix 200 50 100 = ⟨170, 255, 57⟩ := by decide

/-- `CFG_OFF` of B9. -/
def cfgOff : Coef :=
  { tCon1 := 0, tCon2 := 0, tCon3 := 0, tCon4 := 0, tCon5 := 512, tCon6 := 51200, tCon7 := -51200, tCon8 := 51200 }

/-- `CFG_SGN` of B9. -/
def cfgSgn : Coef :=
  { tCon1 := 512, tCon2 := 512, tCon3 := 0, tCon4 := 0, tCon5 := 512, tCon6 := -65536, tCon7 := 65536, tCon8 := 0 }

/-- B9: the sign of `t_con_7`, then the sign of `t_con_2`. -/
theorem test_other_coefficients :
    cfgOff.pix 0 255 0 = ⟨100, 100, 100⟩ ∧ cfgOff.pix 200 3 7 = ⟨255, 255, 255⟩ ∧
      cfgSgn.pix 100 0 200 = ⟨172, 172, 100⟩ ∧ cfgSgn.pix 200 3 7 = ⟨79, 79, 200⟩ := by decide

/-- B9: which sets are admissible. -/
theorem test_admissible_coefficients :
    Coef.ref.admissible = true ∧ Coef.admissible ⟨0, 0, 0, 0, 512, 0, 0, 0⟩ = true ∧
      Coef.admissible { Coef.ref with tCon6 := -113344 } = false ∧
      Coef.admissible { Coef.ref with tCon5 := 2 ^ 24 } = false := by decide

/-! ## The six commands -/

/-- B8: `INIT 1` over a registry of tier 0 fills all four slots. -/
theorem test_init_overwrites :
    registryOf (exec (.init 1) (filled 0)) = some (⟨⟨true, 1⟩, ⟨true, 1⟩, ⟨true, 1⟩, ⟨true, 1⟩⟩, false) ∧
      answers (exec (.init 1) (filled 0)) = [0] := by decide

/-- B8, B10: an `INIT` after use is refused, and one of a tier without capability faults. -/
theorem test_init_stops :
    refusalOf (exec (.init 1) { filled 0 with used := true }) = some .lateInit ∧
      faultOf (exec (.init 1) (boot 1 1)) = some (.noCapability 1) := by decide

/-- B8: the responses of `LOOKUP` over a registry of tier 1. -/
theorem test_lookup_answers :
    answers (exec (.lookup .rgb) (filled 1)) = [0x00000103] ∧ answers (exec (.lookup .rgba) (filled 1)) = [0x00000113] ∧
      answers (exec (.lookup .bgr) (filled 1)) = [0x00000123] ∧
      answers (exec (.lookup .bgra) (filled 1)) = [0x00000133] := by decide

/-- B8: `LOOKUP` of an EMPTY slot. -/
theorem test_lookup_empty : faultOf (exec (.lookup .rgb) one) = some (.lookupEmpty .rgb) := by decide

/-- B5, `n = 5`. -/
theorem test_conv_rgb_row :
    bytesAt 0x4000 15 (exec (.convRgb 0 (row5 0x4000 5)) one) =
      [0xFE, 0x00, 0x00, 0xFF, 0x4A, 0x49, 0x00, 0x86, 0x00, 0x00, 0xEC, 0x00, 0xFF, 0xFF, 0xFF] := by decide

theorem test_conv_rgba_row :
    bytesAt 0x4000 20 (exec (.convRgba 0 (row5 0x4000 5)) one) =
      [0xFE, 0x00, 0x00, 0xFF, 0xFF, 0x4A, 0x49, 0xFF, 0x00, 0x86, 0x00, 0xFF, 0x00, 0xEC, 0x00, 0xFF,
       0xFF, 0xFF, 0xFF, 0xFF] := by decide

theorem test_conv_bgr_row :
    bytesAt 0x4000 15 (exec (.convBgr 1 (row5 0x4000 5)) one) =
      [0x00, 0x00, 0xFE, 0x49, 0x4A, 0xFF, 0x00, 0x86, 0x00, 0x00, 0xEC, 0x00, 0xFF, 0xFF, 0xFF] := by decide

theorem test_conv_bgra_row :
    bytesAt 0x4000 20 (exec (.convBgra 1 (row5 0x4000 5)) one) =
      [0x00, 0x00, 0xFE, 0xFF, 0x49, 0x4A, 0xFF, 0xFF, 0x00, 0x86, 0x00, 0xFF, 0x00, 0xEC, 0x00, 0xFF,
       0xFF, 0xFF, 0xFF, 0xFF] := by decide

/-- B6, last row: an odd destination, its neighbours untouched (here the byte before and after hold 0xAA). -/
theorem test_conv_rgb_exact :
    bytesAt 0x4000 8 (exec (.convRgb 0 (row5 0x4001 2)) { one with mem := planes ++ [(0x4000, 0xAA), (0x4007, 0xAA)] }) =
      [0xAA, 0xFE, 0x00, 0x00, 0xFF, 0x4A, 0x49, 0xAA] := by decide

/-- B10's null pointers: a fault with a column, nothing at all with none. -/
theorem test_conv_null_pointers :
    faultOf (exec (.convRgb 0 { row5 0x4000 1 with u := 0 }) one) = some .unmapped ∧
      answers (exec (.convRgb 0 Opnd.zero) one) = [0] := by decide

/-- B10: a wrapping range and a destination one byte short of the map. -/
theorem test_conv_rgba_stops :
    refusalOf (exec (.convRgba 0 (row5 0x4000 0x40000000)) one) = some .wraps ∧
      faultOf (exec (.convRgba 0 (row5 0x0FF7 3)) one) = some .unmapped := by decide

/-- B10: overlap with the row's own source, and adjacency, which is legal. -/
theorem test_conv_bgr_overlap :
    faultOf (exec (.convBgr 0 (row5 0x1002 4)) one) = some .selfOverlap ∧
      isNext (exec (.convBgr 0 { row5 0x1000 4 with y := 0x100C }) one) = true := by decide

/-- B10: two ports at once, one address apart. -/
theorem test_conv_bgra_race :
    let busy := busyPort1 (.convRgb 0 (row5 0x4000 3)) (row5 0x4000 3) []
    faultOf (exec (.convBgra 0 (row5 0x4008 3)) busy) = some .race ∧
      isNext (exec (.convBgra 0 (row5 0x4009 3)) busy) = true := by decide

/-- C5: a reserved word refuses the program, and so does an `INIT` after a `LOOKUP`. -/
theorem test_program_refusals :
    refusalOf (step (loaded [encode (.init 0), { cw := 0, opnd := Opnd.zero }] [])) = some (.reserved .opcode) ∧
      refusalOf (step (loaded [encode (.init 0), encode (.lookup .rgb), encode (.init 0)] [])) = some .lateInit := by
  decide

/-- C2: `INITALL` in a machine of two tiers, both capable, and its variant with tier 1 incapable. -/
theorem test_initall :
    (initAllCommands (cfg 1 3)).map Command.cw = [0x00000001, 0x00000101] ∧
      (initAllCommands (cfg 1 1)).map Command.cw = [0x00000001] := by decide

/-- The lists that loading leaves. -/
def listsOf : Except Refusal State → List (List Issue)
  | .ok s => s.ports.map Port.prog
  | .error _ => []

/-- Why the loader refused. -/
def loaderRefusal : Except Refusal State → Option Refusal
  | .ok _ => none
  | .error r => some r

/-- R98, R178: `INITALL`, `WAIT`, `CONVL BGRA` loaded at reset are the two `INIT`s, the `LOOKUP` and the `CALL` of its response,
each held back until both `INIT`s have completed. -/
theorem test_load_convl :
    listsOf (one.loadLines Loading.start [⟨0, .initAll⟩, ⟨0, .wait⟩, ⟨0, .convl .bgra o3⟩]) =
      [[⟨.word 0x00000001, Opnd.zero, []⟩, ⟨.word 0x00000101, Opnd.zero, []⟩, ⟨.word 0x00000032, Opnd.zero, [2]⟩,
        ⟨.response 0 2, o3, [2]⟩]] := by decide

/-- R97: a name stands for the response of its `LOOKUP`, also on another port. -/
theorem test_load_names :
    listsOf ((boot 2 3).loadLines Loading.start [⟨0, .lookup .bgr (some 7)⟩, ⟨1, .callName 7 o3⟩]) =
      [[⟨.word 0x00000022, Opnd.zero, []⟩], [⟨.response 0 0, o3, []⟩]] := by decide

/-- A name no line gives, and a port that does not exist, are refused (logs 11, 19). -/
theorem test_load_refusals :
    loaderRefusal (one.loadLines Loading.start [⟨0, .callName 7 o3⟩]) = some (.unknownName 7) ∧
      loaderRefusal (one.loadLines Loading.start [⟨1, .initAll⟩]) = some (.noSuchPort 1) := by decide

/-- C2: the `CALL` of the response 0x133 converts by `CONV.BGRA`, two columns of B5's planes. -/
theorem test_call_of_a_response :
    bytesAt 0x4000 8 (step { filled 1 with
      ports := [{ Port.reset with
        prog := [issueOf (encode (.lookup .bgra)), { src := .response 0 0, opnd := row5 0x4000 2, need := [1] }]
        cidx := 1, rsps := [0x00000133] }] }) = [0x00, 0x00, 0xFE, 0xFF, 0x49, 0x4A, 0xFF, 0xFF] := by decide

/-- R220: reset empties a filled registry and clears `USED`. -/
theorem test_reset_event :
    registryOf (step { filled 1 with used := true, sched := [.reset] }) = some (Registry.empty, false) := by decide

/-! ## Witnesses: for each statement with hypotheses, a case that meets them all -/

theorem ready_one : one.readyPort port0 := ⟨by decide, by decide, by decide⟩
theorem ready_filled : (filled 1).readyPort port0 := ⟨by decide, by decide, by decide⟩
theorem ready_busyPort1 : (busyPort1 (.convRgb 0 o3) o3 [2]).readyPort port0 := ⟨by decide, by decide, by decide⟩
theorem planes_wf : one.mem.wf := by decide

theorem conv_one (l : Layout) : convContract l 0 o3 one := by
  cases l <;> exact ⟨by decide, by decide, by decide, by decide, by decide, by decide, by decide⟩

theorem witness_DecodeReadsBackEveryCommand : (Instr.convBgra 1 o3).wellFormed (cfg 1 3) = true := by decide
theorem witness_DecoderAcceptsExactlyTheEncodings : k3.opnd.fits (cfg 1 3).aw = true := by decide
theorem witness_ReservedWordsAreRejected : o3.fits (cfg 1 3).aw = true := by decide
theorem witness_ConversionWordsByMaskAndMatch : (row5 0xFFFFFFFF 0).fits (cfg 1 3).aw = true := by decide

theorem witness_StepRunsTheDecodedCommand :
    let s := loaded [k3] [.run 0]
    programRefusal s = none ∧ s.sched = .run 0 :: [] ∧ ∃ q, s.ports[0]? = some q ∧ q.cond = .idle ∧
      s.offered q = some k3 ∧ decode s.cfg k3 = .ok (.convRgb 0 o3) :=
  ⟨by decide, rfl, _, rfl, rfl, rfl, by decide⟩

/-- A command on port 1 and none on port 0. -/
def onPort1 : State := { boot 2 3 with ports := [Port.reset, { Port.reset with prog := [issueOf k3] }] }

theorem witness_StepWithoutScheduleTakesTheLowestPort :
    (programRefusal onPort1 = none ∧ onPort1.sched = [] ∧ onPort1.allIdle = true ∧
      ∃ q, onPort1.ports[1]? = some q ∧
        (∀ j < 1, ∀ q', onPort1.ports[j]? = some q' → onPort1.offered q' = none) ∧
        onPort1.offered q = some k3 ∧ decode onPort1.cfg k3 = .ok (.convRgb 0 o3)) ∧
      (programRefusal one = none ∧ one.sched = [] ∧ one.allIdle = true ∧ ∀ q ∈ one.ports, one.offered q = none) := by
  refine ⟨⟨by decide, rfl, by decide, _, rfl, ?_, rfl, by decide⟩, by decide, rfl, by decide, by decide⟩
  intro j hj q' hq
  obtain rfl : j = 0 := by omega
  cases hq
  rfl

/-- A reserved word; a late `INIT` with one port; a wrapping conversion with no late `INIT`. -/
theorem witness_ProgramsWithoutMeaningAreRefused :
    (let k : Command := { cw := 0, opnd := Opnd.zero }
     let s := loaded [encode (.init 0), k] []
     s.cfg.admissible = true ∧ ∃ q, q ∈ s.ports ∧ k ∈ s.shapes q ∧ decode s.cfg k = .error .opcode) ∧
    (let s := loaded [encode (.lookup .rgb), encode (.init 0)] []
     s.cfg.admissible = true ∧ s.cfg.np = 1 ∧ ∃ q, q ∈ s.ports ∧
       (s.shapes q)[0]? = some (encode (.lookup .rgb)) ∧ decode s.cfg (encode (.lookup .rgb)) = .ok (.lookup .rgb) ∧
       (s.shapes q)[1]? = some (encode (.init 0)) ∧ decode s.cfg (encode (.init 0)) = .ok (.init 0)) ∧
    (let s := loaded [encode (.convRgb 0 (row5 0xFFFFFFF8 3))] []
     s.cfg.admissible = true ∧ ∃ q, q ∈ s.ports ∧ encode (.convRgb 0 (row5 0xFFFFFFF8 3)) ∈ s.shapes q ∧
       decode s.cfg (encode (.convRgb 0 (row5 0xFFFFFFF8 3))) = .ok (Instr.conv .rgb 0 (row5 0xFFFFFFF8 3)) ∧
       noWrap s.cfg.aw .rgb (row5 0xFFFFFFF8 3) = false ∧
       (∀ q' ∈ s.ports, ∀ k ∈ s.shapes q', ∃ i, decode s.cfg k = .ok i) ∧
       ∀ q' ∈ s.ports, (s.shapes q').length = 1) := by
  refine ⟨⟨by decide, _, List.mem_cons_self, by decide, by decide⟩,
    ⟨by decide, rfl, _, List.mem_cons_self, rfl, by decide, rfl, by decide⟩,
    ⟨by decide, _, List.mem_cons_self, by decide, by decide, by decide, ?_, by decide⟩⟩
  intro q' hq k hk
  obtain rfl := List.mem_singleton.1 hq
  obtain rfl := List.mem_singleton.1 hk
  exact ⟨.convRgb 0 (row5 0xFFFFFFF8 3), by decide⟩

theorem witness_InadmissibleConfigurationIsRefused :
    (State.resetOf { cfg 1 3 with aw := 65 }).cfg.admissible = false ∧
      (State.resetOf { cfg 1 3 with aw := 7 }).cfg.admissible = false ∧
      (State.resetOf { cfg 1 3 with np := 0 }).cfg.admissible = false ∧
      (State.resetOf (cfg 1 2)).cfg.admissible = false := by decide

theorem witness_BusyPortAcceptsNothing :
    let s := { busyPort1 (.convRgb 0 o3) o3 [2] with cur := 1 }
    s.cfg.admissible = true ∧ ∃ q, s.ports[s.cur]? = some q ∧ q.cond = .busy (.convRgb 0 o3) [2] :=
  ⟨by decide, _, rfl, rfl⟩

theorem witness_AcceptanceLoadsTheLatches :
    one.readyPort port0 ∧ (Instr.convRgb 0 o3).wellFormed one.cfg = true ∧ stopOf (.convRgb 0 o3) one = none :=
  ⟨ready_one, by decide, by decide⟩

theorem witness_InitFillsAllFourSlots : one.readyPort port0 ∧ initContract 1 one :=
  ⟨ready_one, by decide, by decide, by decide, by decide, by decide⟩

/-- `INIT` beside a conversion in flight on another port is inside its contract (R172). -/
theorem witness_InitFillsAllFourSlots_beside_a_conversion :
    (busyPort1 (.convRgb 0 o3) o3 [2]).readyPort port0 ∧ initContract 1 (busyPort1 (.convRgb 0 o3) o3 [2]) :=
  ⟨ready_busyPort1, by decide, by decide, by decide, by decide, by decide⟩

theorem witness_LookupAnswersTheKernelReference :
    (filled 1).readyPort port0 ∧ ∀ l, lookupContract l (filled 1) :=
  ⟨ready_filled, fun l => ⟨by cases l <;> decide, by decide⟩⟩

theorem witness_LastInitWinsAndIsIdempotent : one.readyPort port0 ∧ initContract 1 one ∧ initContract 0 one :=
  ⟨ready_one, ⟨by decide, by decide, by decide, by decide, by decide⟩, by decide, by decide, by decide, by decide, by decide⟩

/-- The port of `convlReady`. -/
def convlPort : Port :=
  { Port.reset with prog := [issueOf (encode (.lookup .bgra)), { src := .response 0 0, opnd := o3, need := [] }] }

/-- A registry of tier 1, and a `CONVL BGRA` in the list. -/
def convlReady : State := { filled 1 with ports := [convlPort] }

theorem witness_LookupThenCallConvertsThatLayout :
    convlReady.readyPort convlPort ∧ lookupContract .bgra convlReady ∧
      (convlReady.sr.get .bgra).tier.toNat < convlReady.cfg.nt ∧ o3.fits convlReady.cfg.aw = true ∧
      convlPort.oneResponseEach ∧ programRefusal convlReady = none ∧
      convlPort.prog[convlPort.cidx]? = some (issueOf (encode (.lookup .bgra))) ∧
      convlPort.prog[convlPort.cidx + 1]? =
        some { src := .response convlReady.cur convlPort.cidx, opnd := o3, need := [] } :=
  ⟨⟨by decide, by decide, by decide⟩, ⟨by decide, by decide⟩, by decide, by decide, by unfold Port.oneResponseEach; decide,
    by decide, by decide, by decide⟩

theorem witness_InitAllEndsWithTheBestTier : (cfg 1 3).admissible = true ∧ (cfg 1 1).admissible = true := by decide

theorem witness_RegistryCommandsFrame :
    (∃ t, exec (.init 1) one = .next t) ∧ ∃ t, exec (.lookup .bgr) (filled 1) = .next t :=
  ⟨next_of_isNext (by decide), next_of_isNext (by decide)⟩

theorem witness_ConvRgbWritesTheRow : one.readyPort port0 ∧ convContract .rgb 0 o3 one ∧ one.mem.wf :=
  ⟨ready_one, conv_one _, planes_wf⟩

theorem witness_ConvRgbaWritesTheRow : one.readyPort port0 ∧ convContract .rgba 0 o3 one ∧ one.mem.wf :=
  ⟨ready_one, conv_one _, planes_wf⟩

theorem witness_ConvBgrWritesTheRow : one.readyPort port0 ∧ convContract .bgr 0 o3 one ∧ one.mem.wf :=
  ⟨ready_one, conv_one _, planes_wf⟩

theorem witness_ConvBgraWritesTheRow : one.readyPort port0 ∧ convContract .bgra 0 o3 one ∧ one.mem.wf :=
  ⟨ready_one, conv_one _, planes_wf⟩

/-- Null pointers, outside `MAP`. -/
theorem witness_ZeroColumnsChangeNoByte :
    one.readyPort port0 ∧ (0 : Byte).toNat < one.cfg.nt ∧ Opnd.zero.fits one.cfg.aw = true ∧ capable one.cfg 0 = true ∧
      Opnd.zero.n = 0 ∧ mapped one.cfg.map Opnd.zero.y.toNat = false :=
  ⟨ready_one, by decide, by decide, by decide, by decide, by decide⟩

theorem witness_ConversionsFrame (l : Layout) : ∃ t, exec (Instr.conv l 0 o3) one = .next t :=
  ⟨_, exec_conv_accepted l one port0 0 o3 ready_one (conv_one l)⟩

theorem witness_TierAndRegistryDoNotMatter :
    (0 : Byte).toNat < one.cfg.nt ∧ (1 : Byte).toNat < one.cfg.nt ∧ capable one.cfg 0 = true ∧ capable one.cfg 1 = true ∧
      ∃ s', exec (Instr.conv .rgb 0 o3) one = .next s' :=
  ⟨by decide, by decide, by decide, by decide, witness_ConversionsFrame .rgb⟩

theorem witness_ChannelOrdersArePermutations : one.readyPort port0 ∧ convContract .rgba 0 o3 one ∧ one.mem.wf :=
  ⟨ready_one, conv_one _, planes_wf⟩

/-- The planes without luma 3 and 4, chroma 2: bytes that `o3` does not read. -/
def fewer : Memory :=
  [(0x1000, 81), (0x1001, 145), (0x1002, 41), (0x2000, 90), (0x2001, 54), (0x3000, 240), (0x3001, 34)]

theorem witness_OnlyTheReadSetMatters :
    one.readyPort port0 ∧ convContract .bgra 0 o3 one ∧ one.mem.wf ∧ fewer.wf ∧
      (∀ k < o3.n.toNat, fewer.read (o3.y.toNat + k) = one.mem.read (o3.y.toNat + k)) ∧
      (∀ k < (o3.n.toNat + 1) / 2, fewer.read (o3.u.toNat + k) = one.mem.read (o3.u.toNat + k)) ∧
      (∀ k < (o3.n.toNat + 1) / 2, fewer.read (o3.v.toNat + k) = one.mem.read (o3.v.toNat + k)) ∧ fewer ≠ one.mem :=
  ⟨ready_one, conv_one _, planes_wf, by decide, by decide, by decide, by decide, by decide⟩

theorem witness_PairedLoopEqualsColumnLoop : selfDisjoint .rgba o3 = true ∧ Memory.wf planes := ⟨by decide, planes_wf⟩

theorem witness_AnyWriteOrderLeavesTheSameMemory :
    selfDisjoint .rgb (row5 0x4000 1) = true ∧ Memory.wf planes ∧
      [2, 0, 1].Perm (List.range ((row5 0x4000 1).n.toNat * Layout.rgb.step)) :=
  ⟨by decide, planes_wf, by decide⟩

/-- A conversion of one column with its bytes in the order 2, 0, 1; an `INIT`; a `LOOKUP`. -/
theorem witness_ByteEventsRefineTheBigStep :
    (let i := Instr.convRgb 0 (row5 0x4000 1)
     let s := loaded [encode i] []
     programRefusal s = none ∧ (∃ q, s.ports[0]? = some q ∧ q.cond = .idle ∧ s.offered q = some (encode i)) ∧
       decode s.cfg (encode i) = .ok i ∧ contract i s ∧ s.mem.wf ∧ [2, 0, 1].Perm (List.range (bytesWritten i))) ∧
    (let i := Instr.init 1
     let s := loaded [encode i] []
     programRefusal s = none ∧ (∃ q, s.ports[0]? = some q ∧ q.cond = .idle ∧ s.offered q = some (encode i)) ∧
       decode s.cfg (encode i) = .ok i ∧ contract i s ∧ s.mem.wf ∧ [].Perm (List.range (bytesWritten i))) ∧
    (let i := Instr.lookup .bgra
     let s := convlReady
     programRefusal s = none ∧ (∃ q, s.ports[0]? = some q ∧ q.cond = .idle ∧ s.offered q = some (encode i)) ∧
       decode s.cfg (encode i) = .ok i ∧ contract i s ∧ s.mem.wf ∧ [].Perm (List.range (bytesWritten i))) :=
  ⟨⟨by decide, ⟨_, rfl, rfl, by decide⟩, by decide,
      ⟨by decide, by decide, by decide, by decide, by decide, by decide, by decide⟩, planes_wf, by decide⟩,
    ⟨by decide, ⟨_, rfl, rfl, by decide⟩, by decide, ⟨by decide, by decide, by decide, by decide, by decide⟩, planes_wf,
      by decide⟩,
    ⟨by decide, ⟨_, rfl, rfl, by decide⟩, by decide, ⟨by decide, by decide⟩, planes_wf, by decide⟩⟩

/-- Two ports, with `CONV.RGB` of `o3` and `CONV.BGR` to 0x4009, where the first destination ends (B10, last row). -/
def twoRows : State :=
  { boot 2 3 with
    ports := [{ Port.reset with prog := [issueOf (encode (.convRgb 0 o3))] },
      { Port.reset with prog := [issueOf (encode (.convBgr 0 (row5 0x4009 3)))] }] }

theorem witness_CompatibleConversionsCommute :
    0 ≠ 1 ∧ twoRows.cfg.admissible = true ∧ programRefusal twoRows = none ∧
      (∃ q, twoRows.ports[0]? = some q ∧ q.cond = .idle ∧ twoRows.offered q = some (encode (.convRgb 0 o3))) ∧
      (∃ q, twoRows.ports[1]? = some q ∧ q.cond = .idle ∧
        twoRows.offered q = some (encode (.convBgr 0 (row5 0x4009 3)))) ∧
      decode twoRows.cfg (encode (.convRgb 0 o3)) = .ok (Instr.conv .rgb 0 o3) ∧
      decode twoRows.cfg (encode (.convBgr 0 (row5 0x4009 3))) = .ok (Instr.conv .bgr 0 (row5 0x4009 3)) ∧
      convContract .rgb 0 o3 twoRows ∧ convContract .bgr 0 (row5 0x4009 3) twoRows ∧
      compatible .rgb o3 .bgr (row5 0x4009 3) = true ∧ twoRows.mem.wf :=
  ⟨by decide, by decide, by decide, ⟨_, rfl, rfl, by decide⟩, ⟨_, rfl, rfl, by decide⟩, by decide, by decide,
    ⟨by decide, by decide, by decide, by decide, by decide, by decide, by decide⟩,
    ⟨by decide, by decide, by decide, by decide, by decide, by decide, by decide⟩, by decide, planes_wf⟩

/-- An interleaving of the two conversions' bytes: all of the second's before all of the first's, each downwards. -/
theorem witness_CompatibleConversionsCommute_interleaved :
    (((List.range 9).map (Event.store 1)).reverse ++ ((List.range 9).map (Event.store 0)).reverse).Perm
      ((List.range (o3.n.toNat * Layout.rgb.step)).map (Event.store 0) ++
        (List.range ((row5 0x4009 3).n.toNat * Layout.bgr.step)).map (Event.store 1)) := by decide

/-- Byte 8, the last of the write set, is to be written; byte 2 is written already; byte 9 is the first outside. -/
theorem witness_EachDestinationByteIsWrittenOnce :
    let s := busyPort1 (.convRgb 0 o3) o3 [2]
    (∃ q, s.ports[1]? = some q ∧ q.cond = .busy (.convRgb 0 o3) [2] ∧ 8 < q.a.n.toNat * Layout.rgb.step ∧
        q.a.n.toNat * Layout.rgb.step ≤ 9) ∧
      (Instr.convRgb 0 o3).layout = some .rgb ∧ s.mem.wf ∧ 8 ∉ [2] ∧ 2 ∈ [2] :=
  ⟨⟨_, rfl, rfl, by decide, by decide⟩, rfl, planes_wf, by decide, by decide⟩

theorem o3_inSpace : noWrap 32 .rgb o3 = true := by decide
theorem o3_mapped : allMapped [⟨0x1000, 0x4000⟩] .rgb o3 = true := by decide
theorem o3_disjoint : selfDisjoint .rgb o3 = true := by decide

theorem flightOk_o3 (w : List Nat) (h : w.Pairwise (· < ·)) (h' : ∀ k ∈ w, k < 9) :
    FlightOk (cfg 2 3) Registry.empty
      { Port.reset with cond := .busy (.convRgb 0 o3) w, a := o3, prog := [issueOf k3], cidx := 1 } :=
  ⟨by decide, rfl, o3_inSpace, o3_mapped, o3_disjoint, h, h'⟩

/-- One byte short of the whole write set, and the whole of it. -/
theorem witness_ConversionCompletesAfterItsLastByte :
    (let s := { busyPort1 (.convRgb 0 o3) o3 [0, 1, 2, 3, 4, 5, 6, 7] with sched := [.complete 1] }
     programRefusal s = none ∧ ∃ q, s.ports[1]? = some q ∧
       q.cond = .busy (.convRgb 0 o3) [0, 1, 2, 3, 4, 5, 6, 7] ∧ FlightOk s.cfg s.sr q ∧
       ∃ k < q.a.n.toNat * Layout.rgb.step, k ∉ [0, 1, 2, 3, 4, 5, 6, 7]) ∧
    (let s := { busyPort1 (.convRgb 0 o3) o3 (List.range 9) with sched := [.complete 1] }
     programRefusal s = none ∧ ∃ q, s.ports[1]? = some q ∧ q.cond = .busy (.convRgb 0 o3) (List.range 9) ∧
       FlightOk s.cfg s.sr q ∧ ∀ k < q.a.n.toNat * Layout.rgb.step, k ∈ List.range 9) :=
  ⟨⟨by decide, _, rfl, rfl, flightOk_o3 _ (by decide) (by decide), 8, by decide, by decide⟩,
    ⟨by decide, _, rfl, rfl, flightOk_o3 _ (by decide) (by decide), by decide⟩⟩

/-- Port 1's conversion waits for one command of port 0 (R98, R224); `n` responses have come on port 0. -/
def waiting (src : Source) (rsps : List Word) : State :=
  { boot 2 3 with
    ports := [{ Port.reset with prog := [issueOf (encode (.lookup .rgb))], cidx := rsps.length, rsps := rsps },
      { Port.reset with prog := [{ src := src, opnd := o3, need := [1, 0] }] }] }

/-- The wait not over by one command, just over, and just over with the word of a `CALL`. -/
theorem witness_WaitHoldsBackLaterCommands :
    (let s := waiting (.word 3) []
     programRefusal s = none ∧ ∃ q x r, s.ports[1]? = some q ∧ q.cond = .idle ∧ q.pending = some x ∧
       x.need[0]? = some 1 ∧ s.ports[0]? = some r ∧ r.answered < 1) ∧
    (let s := waiting (.word 3) [3]
     ∃ q x r r', s.ports[1]? = some q ∧ q.pending = some x ∧ x.src = .word 3 ∧ x.need = [1, 0] ∧
       s.ports = [r, r'] ∧ 1 ≤ r.answered ∧ 0 ≤ r'.answered) ∧
    (let s := waiting (.response 0 0) [3]
     ∃ q x r r', s.ports[1]? = some q ∧ q.pending = some x ∧ x.src = .response 0 0 ∧ x.need = [1, 0] ∧
       s.ports = [r, r'] ∧ 1 ≤ r.answered ∧ 0 ≤ r'.answered ∧ r.rsps[r.before + 0]? = some 3) :=
  ⟨⟨by decide, _, _, _, rfl, rfl, rfl, rfl, rfl, by decide⟩,
    ⟨_, _, _, _, rfl, rfl, rfl, rfl, rfl, by decide, by decide⟩,
    ⟨_, _, _, _, rfl, rfl, rfl, rfl, rfl, by decide, by decide, by decide⟩⟩

theorem witness_LookupOfEmptySlotFaults : one.readyPort port0 ∧ (one.sr.get .rgb).v = false := ⟨ready_one, by decide⟩

/-- The three clauses: an `INIT` beside an `INIT`, an `INIT` beside a `LOOKUP`, a `LOOKUP` beside an `INIT`. -/
theorem witness_ConcurrentRegistrationFaults :
    (let s := busyPort1 (.init 1) Opnd.zero []
     s.readyPort port0 ∧ (0 : Byte).toNat < s.cfg.nt ∧ capable s.cfg 0 = true ∧ s.used = false ∧ s.initBusy = true) ∧
    (let s := busyPort1 (.lookup .rgb) Opnd.zero []
     s.readyPort port0 ∧ (0 : Byte).toNat < s.cfg.nt ∧ capable s.cfg 0 = true ∧ s.used = false ∧ s.initBusy = false ∧
       s.lookupBusy = true) ∧
    (let s := { busyPort1 (.init 1) Opnd.zero [] with sr := Registry.all (Slot.kref 0) }
     s.readyPort port0 ∧ (s.sr.get .bgra).v = true ∧ s.initBusy = true) :=
  ⟨⟨⟨by decide, by decide, by decide⟩, by decide, by decide, by decide, by decide⟩,
    ⟨⟨by decide, by decide, by decide⟩, by decide, by decide, by decide, by decide, by decide⟩,
    ⟨by decide, by decide, by decide⟩, by decide, by decide⟩

theorem witness_LateInitStops :
    (let s := { filled 1 with used := true }
     s.readyPort port0 ∧ (1 : Byte).toNat < s.cfg.nt ∧ s.used = true ∧ s.cfg.np = 1) ∧
    (let s := { boot 2 3 with used := true }
     s.readyPort port0 ∧ (1 : Byte).toNat < s.cfg.nt ∧ s.used = true ∧ 1 < s.cfg.np) :=
  ⟨⟨⟨by decide, by decide, by decide⟩, by decide, rfl, rfl⟩,
    ⟨by decide, by decide, by decide⟩, by decide, rfl, by decide⟩

theorem witness_IncapableTierFaults :
    (boot 1 1).readyPort port0 ∧ (1 : Byte).toNat < (boot 1 1).cfg.nt ∧ capable (boot 1 1).cfg 1 = false ∧
      (boot 1 1).used = false ∧ o3.fits (boot 1 1).cfg.aw = true ∧ noWrap (boot 1 1).cfg.aw .rgb o3 = true :=
  ⟨⟨by decide, by decide, by decide⟩, by decide, by decide, by decide, by decide, by decide⟩

/-- Each of the four ranges one byte past the top, the other three inside. -/
theorem witness_WrappingConversionIsRefused :
    one.readyPort port0 ∧ (0 : Byte).toNat < one.cfg.nt ∧
      (let o := { o3 with y := 0xFFFFFFFE }
       o.fits one.cfg.aw = true ∧ o.y.toNat + o.n.toNat = 2 ^ one.cfg.aw + 1) ∧
      (let o := { o3 with u := 0xFFFFFFFF }
       o.fits one.cfg.aw = true ∧ o.u.toNat + (o.n.toNat + 1) / 2 = 2 ^ one.cfg.aw + 1) ∧
      (let o := { o3 with v := 0xFFFFFFFF }
       o.fits one.cfg.aw = true ∧ o.v.toNat + (o.n.toNat + 1) / 2 = 2 ^ one.cfg.aw + 1) ∧
      (let o := row5 0xFFFFFFF8 3
       o.fits one.cfg.aw = true ∧ o.d.toNat + o.n.toNat * Layout.rgb.step = 2 ^ one.cfg.aw + 1) :=
  ⟨ready_one, by decide, by decide, by decide, by decide, by decide⟩

/-- B10's destination below the map; a luma byte past its end; chroma planes past its end. -/
theorem witness_UnmappedByteFaults :
    one.readyPort port0 ∧ (0 : Byte).toNat < one.cfg.nt ∧ capable one.cfg 0 = true ∧
      (let o := row5 0x0FF7 3
       o.fits one.cfg.aw = true ∧ noWrap one.cfg.aw .rgb o = true ∧ mapped one.cfg.map 0x0FF7 = false ∧
         o.d.toNat ≤ 0x0FF7 ∧ 0x0FF7 < o.d.toNat + o.n.toNat * Layout.rgb.step) ∧
      (let o := { o3 with y := 0x4FFE }
       o.fits one.cfg.aw = true ∧ noWrap one.cfg.aw .rgb o = true ∧ mapped one.cfg.map 0x5000 = false ∧
         o.y.toNat ≤ 0x5000 ∧ 0x5000 < o.y.toNat + o.n.toNat) ∧
      (let o := { o3 with u := 0x4FFF, v := 0x4FFF }
       o.fits one.cfg.aw = true ∧ noWrap one.cfg.aw .rgb o = true ∧ o.u.toNat ≤ 0x5000 ∧
         0x5000 < o.u.toNat + (o.n.toNat + 1) / 2 ∧ o.v.toNat ≤ 0x5000 ∧ 0x5000 < o.v.toNat + (o.n.toNat + 1) / 2) :=
  ⟨ready_one, by decide, by decide, by decide, by decide, by decide⟩

/-- The write set meets the last byte of each source range in turn. -/
theorem witness_SelfOverlapFaults :
    one.readyPort port0 ∧ (0 : Byte).toNat < one.cfg.nt ∧ capable one.cfg 0 = true ∧
      (let o := row5 0x1002 3
       o.fits one.cfg.aw = true ∧ noWrap one.cfg.aw .rgb o = true ∧ allMapped one.cfg.map .rgb o = true ∧
         (o.d.toNat ≤ 0x1002 ∧ 0x1002 < o.d.toNat + o.n.toNat * 3) ∧ o.y.toNat ≤ 0x1002 ∧ 0x1002 < o.y.toNat + o.n.toNat) ∧
      (let o := row5 0x2001 3
       o.fits one.cfg.aw = true ∧ noWrap one.cfg.aw .rgb o = true ∧ allMapped one.cfg.map .rgb o = true ∧
         (o.d.toNat ≤ 0x2001 ∧ 0x2001 < o.d.toNat + o.n.toNat * 3) ∧ o.u.toNat ≤ 0x2001 ∧
         0x2001 < o.u.toNat + (o.n.toNat + 1) / 2) ∧
      (let o := row5 0x3001 3
       o.fits one.cfg.aw = true ∧ noWrap one.cfg.aw .rgb o = true ∧ allMapped one.cfg.map .rgb o = true ∧
         (o.d.toNat ≤ 0x3001 ∧ 0x3001 < o.d.toNat + o.n.toNat * 3) ∧ o.v.toNat ≤ 0x3001 ∧
         0x3001 < o.v.toNat + (o.n.toNat + 1) / 2) :=
  ⟨ready_one, by decide, by decide, by decide, by decide, by decide⟩

/-- What the three clauses of a race share, for operands `o` beside `CONV.RGB` of `o3` in flight. -/
def besideO3 (o : Opnd) : Prop :=
  let s := busyPort1 (.convRgb 0 o3) o3 [2]
  s.readyPort port0 ∧ (0 : Byte).toNat < s.cfg.nt ∧ o.fits s.cfg.aw = true ∧ noWrap s.cfg.aw .rgb o = true ∧
    capable s.cfg 0 = true ∧ allMapped s.cfg.map .rgb o = true ∧ selfDisjoint .rgb o = true ∧
    ∃ q', q' ∈ s.ports ∧ q'.cond = .busy (.convRgb 0 o3) [2] ∧ q'.a = o3 ∧ (Instr.convRgb 0 o3).layout = some .rgb

/-- B10: write set against write set at its last byte 0x4008, write set against read set, read set against write set. -/
theorem witness_RacingConversionFaults :
    (besideO3 (row5 0x4008 3) ∧ ((row5 0x4008 3).writes .rgb).has 0x4008 = true ∧ (o3.writes .rgb).has 0x4008 = true) ∧
    (let o : Opnd := { y := 0x1100, u := 0x2100, v := 0x3100, d := 0x1002, n := 3 }
     besideO3 o ∧ (o.writes .rgb).has 0x1002 = true ∧ ∃ r ∈ o3.reads, r.has 0x1002 = true) ∧
    (let o : Opnd := { y := 0x4008, u := 0x2100, v := 0x3100, d := 0x1100, n := 3 }
     besideO3 o ∧ (o3.writes .rgb).has 0x4008 = true ∧ ∃ r ∈ o.reads, r.has 0x4008 = true) := by
  have key (o : Opnd) (h1 : o.fits 32 = true) (h2 : noWrap 32 .rgb o = true)
      (h3 : allMapped (cfg 2 3).map .rgb o = true) (h4 : selfDisjoint .rgb o = true) : besideO3 o :=
    ⟨ready_busyPort1, by decide, h1, h2, by decide, h3, h4, _, List.mem_cons_of_mem _ List.mem_cons_self, rfl, rfl, rfl⟩
  exact ⟨⟨key _ (by decide) (by decide) (by decide) (by decide), by decide, by decide⟩,
    ⟨key _ (by decide) (by decide) (by decide) (by decide), by decide, by decide⟩,
    key _ (by decide) (by decide) (by decide) (by decide), by decide, by decide⟩

theorem inFlight_o3 {P : Opnd → Layout → Prop} (h : P o3 .rgb) :
    ∃ q i w l, q ∈ (busyPort1 (.convRgb 0 o3) o3 [2]).ports ∧ q.cond = .busy i w ∧ i.layout = some l ∧ P q.a l :=
  ⟨_, _, _, _, List.mem_cons_of_mem _ List.mem_cons_self, rfl, rfl, h⟩

theorem midFlight_runs : programRefusal (busyPort1 (.convRgb 0 o3) o3 [2]) = none := by decide

/-- For each clause a byte at the boundary: the last of the write set `[0x4000, 0x4009)`, of the luma `[0x1000, 0x1003)` and of the
chroma planes, in the form of the statement; then the bytes just past them, which belong to no set. -/
theorem witness_HostAccessesRaceOrGoAhead :
    let s (e : Event) := { busyPort1 (.convRgb 0 o3) o3 [2] with sched := [e] }
    (∀ e, programRefusal (s e) = none) ∧
      (∀ a ∈ [0x4008, 0x4009, 0x1002, 0x1003, 0x2001, 0x2002, 0x3001, 0x3002], mapped (cfg 2 3).map a = true) ∧
      (∀ e, ∃ q i w l, q ∈ (s e).ports ∧ q.cond = .busy i w ∧ i.layout = some l ∧
        (q.a.d.toNat ≤ 0x4008 ∧ 0x4008 < q.a.d.toNat + q.a.n.toNat * l.step) ∧
        (q.a.y.toNat ≤ 0x1002 ∧ 0x1002 < q.a.y.toNat + q.a.n.toNat) ∧
        (q.a.u.toNat ≤ 0x2001 ∧ 0x2001 < q.a.u.toNat + (q.a.n.toNat + 1) / 2) ∧
        (q.a.v.toNat ≤ 0x3001 ∧ 0x3001 < q.a.v.toNat + (q.a.n.toNat + 1) / 2)) ∧
      ¬ (0x4009 < o3.d.toNat + o3.n.toNat * Layout.rgb.step) ∧ ¬ (0x1003 < o3.y.toNat + o3.n.toNat) ∧
      ¬ (0x2002 < o3.u.toNat + (o3.n.toNat + 1) / 2) ∧ ¬ (0x3002 < o3.v.toNat + (o3.n.toNat + 1) / 2) :=
  ⟨fun e => (programRefusal_of_prog (s := busyPort1 (.convRgb 0 o3) o3 [2])
      (t := { busyPort1 (.convRgb 0 o3) o3 [2] with sched := [e] }) rfl rfl).trans midFlight_runs, by decide, fun _ => inFlight_o3 (P := fun o l =>
      (o.d.toNat ≤ 0x4008 ∧ 0x4008 < o.d.toNat + o.n.toNat * l.step) ∧
      (o.y.toNat ≤ 0x1002 ∧ 0x1002 < o.y.toNat + o.n.toNat) ∧
      (o.u.toNat ≤ 0x2001 ∧ 0x2001 < o.u.toNat + (o.n.toNat + 1) / 2) ∧
      (o.v.toNat ≤ 0x3001 ∧ 0x3001 < o.v.toNat + (o.n.toNat + 1) / 2)) (by decide),
    by decide, by decide, by decide, by decide⟩

/-- The ends of the three ranges. -/
theorem witness_SaturatingShiftByRanges :
    ((-1 : Int) < 0 ∧ satshift (-1) = 0) ∧ ((0 : Int) ≤ 0 ∧ satshift 0 = 0) ∧ ((131071 : Int) ≤ 131071 ∧ satshift 131071 = 255) ∧
      (131072 : Int) ≤ 131072 ∧ satshift 131072 = 255 := by decide

theorem witness_CornersBoundEverySample : Coef.ref.noOverflow = true ∧ cfgSgn.noOverflow = true := by decide
theorem witness_ThirtyTwoBitDatapathIsExact : Coef.ref.noOverflow = true ∧ cfgOff.noOverflow = true := by decide
theorem witness_MidGreyIsNeutral : Coef.ref.admissible = true ∧ cfgOff.admissible = true := by decide

/-- Reset with a conversion in flight. -/
theorem witness_ResetEventAbandonsCommands :
    let s := { busyPort1 (.convRgb 0 o3) o3 [2] with sched := [.reset] }
    programRefusal s = none ∧ s.sched = .reset :: [] := ⟨by decide, rfl⟩

/-- A machine in mid-flight, all invariants met: two ports, `CONV.RGB` of three columns on port 1 with byte 2 written. -/
def midFlight : State := busyPort1 (.convRgb 0 o3) o3 [2]

theorem midFlight_races : RaceFreeFlights midFlight := by
  refine List.pairwise_cons.2 ⟨fun q _ => ?_, List.pairwise_singleton _ _⟩
  exact ⟨fun f f' h => by simp [Port.flight, Port.reset] at h, by simp [Port.reset], by simp [Port.reset]⟩

theorem midFlight_inv : Inv midFlight where
  mem := by unfold MemOk; decide
  uniform := fun l => by cases l <;> decide
  legal := by unfold RegistryLegal; decide
  phase := by unfold UsePhase; decide
  ports := by unfold PortsOk Port.oneResponseEach; decide
  flights := List.forall_mem_cons.2 ⟨trivial, List.forall_mem_singleton.2
    ⟨by decide, rfl, by decide, by decide, by decide, by decide, by decide⟩⟩
  races := midFlight_races

theorem midFlight_steps : ∃ t, step midFlight = .next t := next_of_isNext (by decide)

theorem witness_EveryStepKeepsTheMachineInvariant : Inv midFlight ∧ ∃ t, step midFlight = .next t :=
  ⟨midFlight_inv, midFlight_steps⟩

theorem witness_EveryStepKeepsMemoryCanonical : midFlight.mem.wf ∧ ∃ t, step midFlight = .next t :=
  ⟨midFlight_inv.mem.1, midFlight_steps⟩

theorem witness_SlotsNeverDiffer : RegistryUniform midFlight ∧ ∃ t, step midFlight = .next t :=
  ⟨midFlight_inv.uniform, midFlight_steps⟩

theorem witness_FlightsStayRaceFree : RaceFreeFlights midFlight ∧ ∃ t, step midFlight = .next t :=
  ⟨midFlight_races, midFlight_steps⟩

theorem witness_ConfigurationNeverChanges : ∃ t, step midFlight = .next t := midFlight_steps

/-- A step that fills the registry. -/
theorem witness_OnlyInitWritesTheRegistry :
    let s := loaded [encode (.init 1)] [.run 0]
    (∃ t, step s = .next t) ∧ s.sched.head? ≠ some .reset := ⟨next_of_isNext (by decide), by decide⟩

theorem witness_UsedStaysSetUntilReset :
    let s := { midFlight with sr := Registry.all (Slot.kref 0), used := true }
    (∃ t, step s = .next t) ∧ s.sched.head? ≠ some .reset ∧ s.used = true :=
  ⟨next_of_isNext (by decide), by decide, rfl⟩

theorem witness_MachineInvariantHoldsAtReset : 1 ≤ (cfg 1 3).np ∧ 1 ≤ Config.reset.np := by decide

theorem witness_FlightsFinishInBoundedSteps :
    Inv midFlight ∧ programRefusal midFlight = none ∧ midFlight.sched = [] ∧ midFlight.allIdle = false ∧
      midFlight.work = 9 :=
  ⟨midFlight_inv, by decide, rfl, by decide, by decide⟩

end Sys2Proof.Tests
end

section
/-! PROOFS. The state family: no step changes the configuration or the host's command lists (R34). -/

namespace Sys2Proof.Machine

/-- `t` has the parameters of `s` (R34): the configuration record, with its coefficients and `MAP`, and every command list. -/
def SameProgram (s t : State) : Prop := t.cfg = s.cfg ∧ t.ports.map Port.prog = s.ports.map Port.prog

theorem SameProgram.refl (s : State) : SameProgram s s := ⟨rfl, rfl⟩

theorem SameProgram.trans {s t u : State} (h : SameProgram s t) (h' : SameProgram t u) : SameProgram s u :=
  ⟨h'.1.trans h.1, h'.2.trans h.2⟩

/-- Changing one port other than in its list keeps the program. -/
theorem SameProgram.of_modify {s t : State} {p : Nat} {f : Port → Port} (hc : t.cfg = s.cfg)
    (hp : t.ports = s.ports.modify p f) (hf : ∀ q, (f q).prog = q.prog) : SameProgram s t :=
  ⟨hc, by rw [hp, map_prog_modify hf]⟩

theorem sameProgram_accept (i : Instr) (s : State) : SameProgram s (s.accept i) :=
  .of_modify rfl (State.accept_ports i s) (Port.accept_prog i)

theorem sameProgram_body (i : Instr) (s : State) : SameProgram s (body i s) := by
  obtain ⟨hcfg, -, hports, -⟩ := body_fields i s
  exact ⟨hcfg, by rw [hports]⟩

theorem sameProgram_completes {i : Instr} {s t : State} (h : completes i s = .next t) : SameProgram s t := by
  obtain ⟨hcfg, -, -, -, -, -, f, v, hports, -, hf⟩ := completes_fields h
  refine .of_modify hcfg hports fun q => ?_
  obtain ⟨-, hprog, -⟩ := hf q
  exact hprog

theorem sameProgram_exec {i : Instr} {s t : State} (h : exec i s = .next t) : SameProgram s t := by
  rcases exec_next h with rfl | ⟨q, -, -, -, -, hcomp⟩
  · exact .refl _
  · exact (sameProgram_accept i s).trans ((sameProgram_body i _).trans (sameProgram_completes hcomp))

theorem sameProgram_acceptOnly {i : Instr} {s t : State} (h : acceptOnly i s = .next t) : SameProgram s t := by
  rcases acceptOnly_next h with rfl | ⟨q, -, -, -, -, rfl⟩
  · exact .refl _
  · exact sameProgram_accept i s

/-- Reset clears each port's position in its list, not the list (R220; log 13). -/
theorem sameProgram_atReset (s : State) : SameProgram s s.atReset := ⟨rfl, by simp⟩

/-- Every event but reset keeps the program; the port it names and the schedule are no part of it. -/
theorem sameProgram_did {s t : State} (h : Did s t) : SameProgram s t := by
  cases h with
  | wait => exact .refl s
  | ran p q k i t hp hc hk hd h => exact sameProgram_exec (s := { s with cur := p }) h
  | accepted p q k i t hp hc hk hd h => exact sameProgram_acceptOnly (s := { s with cur := p }) h
  | wrote p k q i w l hp hc hl hk hw => exact .of_modify rfl rfl fun _ => rfl
  | completed p q i w t hp hc hf h => exact sameProgram_completes (s := { s with cur := p }) h
  | hostWrote a v hm hw hr => exact ⟨rfl, rfl⟩
  | hostRead a hm hw => exact ⟨rfl, rfl⟩

theorem sameProgram_step {s t : State} (h : step s = .next t) : SameProgram s t := by
  obtain ⟨-, hdid | ⟨-, rfl⟩⟩ := step_next h
  · exact sameProgram_did (s := { s with sched := s.sched.tail }) hdid
  · exact sameProgram_atReset { s with sched := s.sched.tail }

/-- Settles O57: every case of `step_next` keeps the configuration and the lists. -/
theorem configurationNeverChanges : Obligations.ConfigurationNeverChanges :=
  fun _ _ h => sameProgram_step h

end Sys2Proof.Machine
end

section
/-! PROOFS. The encoding family: the words of `INIT` (R88) and of `LOOKUP` (R89). -/

namespace Sys2Proof

/-- A word is laid out from fields exactly when it has those fields and zeros in `Z0` and `Z1`. -/
theorem eq_commandWord_iff (w : Word) (p : BitVec 4) (l : BitVec 2) (t : Byte) :
    w = commandWord p l t ↔
      opcField w = p ∧ layoutField w = l ∧ tierField w = t ∧ z0Field w = 0 ∧ z1Field w = 0 := by
  constructor
  · rintro rfl
    obtain ⟨hopc, hlay, hz0, htier, hz1⟩ := fields_commandWord p l t
    exact ⟨hopc, hlay, htier, hz0, hz1⟩
  · rintro ⟨rfl, rfl, rfl, hz0, hz1⟩
    exact (commandWord_fields w hz1 hz0).symm

/-- A masked word is laid out from fields exactly when the word's own fields, masked one by one, are those. -/
theorem and_eq_commandWord_iff (w m : Word) (p : BitVec 4) (l : BitVec 2) (t : Byte) :
    w &&& m = commandWord p l t ↔
      opcField w &&& opcField m = p ∧ layoutField w &&& layoutField m = l ∧ tierField w &&& tierField m = t ∧
        z0Field w &&& z0Field m = 0 ∧ z1Field w &&& z1Field m = 0 := by
  rw [eq_commandWord_iff]
  simp only [opcField, layoutField, tierField, z0Field, z1Field, BitVec.extractLsb'_and]

/-- The mask of `INIT` and `CONV` leaves out `TIER` alone (R88, R90). -/
theorem and_tierMask_eq_iff (w : Word) (p : BitVec 4) (l : BitVec 2) :
    w &&& 0xFFFF00FF = commandWord p l 0 ↔ w = commandWord p l (tierField w) := by
  rw [and_eq_commandWord_iff, eq_commandWord_iff,
    show opcField 0xFFFF00FF = BitVec.allOnes 4 by decide, show layoutField 0xFFFF00FF = BitVec.allOnes 2 by decide,
    show tierField 0xFFFF00FF = 0#8 by decide, show z0Field 0xFFFF00FF = BitVec.allOnes 2 by decide,
    show z1Field 0xFFFF00FF = BitVec.allOnes 16 by decide]
  simp only [BitVec.and_allOnes, BitVec.and_zero, BitVec.ofNat_eq_ofNat, true_and]

/-- The mask of `LOOKUP` leaves out `LAYOUT` alone (R89). -/
theorem and_layoutMask_eq_iff (w : Word) (p : BitVec 4) (t : Byte) :
    w &&& 0xFFFFFFCF = commandWord p 0 t ↔ w = commandWord p (layoutField w) t := by
  rw [and_eq_commandWord_iff, eq_commandWord_iff,
    show opcField 0xFFFFFFCF = BitVec.allOnes 4 by decide, show layoutField 0xFFFFFFCF = 0#2 by decide,
    show tierField 0xFFFFFFCF = BitVec.allOnes 8 by decide, show z0Field 0xFFFFFFCF = BitVec.allOnes 2 by decide,
    show z1Field 0xFFFFFFCF = BitVec.allOnes 16 by decide]
  simp only [BitVec.and_allOnes, BitVec.and_zero, BitVec.ofNat_eq_ofNat, true_and]

/-- The command word by shifts, as R88 to R90 write it. -/
theorem commandWord_eq_or (p : BitVec 4) (l : BitVec 2) (t : Byte) :
    commandWord p l t = p.setWidth 32 ||| (l.setWidth 32 <<< 4) ||| (t.setWidth 32 <<< 8) := by
  refine BitVec.eq_of_getLsbD_eq fun i hi => ?_
  simp only [commandWord, BitVec.getLsbD_append, BitVec.getLsbD_or, BitVec.getLsbD_shiftLeft, BitVec.getLsbD_setWidth]
  interval_cases i <;> simp

/-- What the decoder answers, by the fields of the word: the three rows of the opcode table with their constraints. -/
theorem decode_eq_ok_iff (c : Config) (k : Command) (i : Instr) :
    decode c k = .ok i ↔ z0Field k.cw = 0 ∧ z1Field k.cw = 0 ∧
      ((opcField k.cw = 1 ∧ layoutField k.cw = 0 ∧ (tierField k.cw).toNat < c.nt ∧ i = .init (tierField k.cw)) ∨
        (opcField k.cw = 2 ∧ tierField k.cw = 0 ∧ i = .lookup (Layout.ofField (layoutField k.cw))) ∨
        (opcField k.cw = 3 ∧ (tierField k.cw).toNat < c.nt ∧ k.opnd.fits c.aw = true ∧
          i = Instr.conv (Layout.ofField (layoutField k.cw)) (tierField k.cw) k.opnd)) := by
  constructor
  · intro h
    unfold decode at h
    split_ifs at h with hz1 hz0 h1 hl ht h2 ht h3 ht hf <;> cases h
    · exact ⟨not_not.1 hz0, not_not.1 hz1, .inl ⟨h1, not_not.1 hl, not_le.1 ht, rfl⟩⟩
    · exact ⟨not_not.1 hz0, not_not.1 hz1, .inr (.inl ⟨h2, not_not.1 ht, rfl⟩)⟩
    · exact ⟨not_not.1 hz0, not_not.1 hz1, .inr (.inr ⟨h3, not_le.1 ht, by simpa using hf, rfl⟩)⟩
  · rintro ⟨hz0, hz1, ⟨h1, hl, ht, rfl⟩ | ⟨h2, ht, rfl⟩ | ⟨h3, ht, hf, rfl⟩⟩
    · simp [decode, hz0, hz1, h1, hl, ht]
    · simp [decode, hz0, hz1, h2, ht]
    · simp [decode, hz0, hz1, h3, ht, hf]

theorem init_ne_conv (l : Layout) (t t' : Byte) (o : Opnd) : Instr.init t' ≠ Instr.conv l t o := by
  cases l <;> nofun

theorem lookup_ne_conv (l l' : Layout) (t : Byte) (o : Opnd) : Instr.lookup l' ≠ Instr.conv l t o := by
  cases l <;> nofun

/-- The word of `INIT t` and its constraint (R88). -/
theorem decode_eq_init_iff (c : Config) (k : Command) (t : Byte) :
    decode c k = .ok (.init t) ↔ k.cw = commandWord 1 0 t ∧ t.toNat < c.nt := by
  rw [decode_eq_ok_iff, eq_commandWord_iff]
  constructor
  · rintro ⟨hz0, hz1, ⟨hopc, hlay, htier, hi⟩ | ⟨-, -, hi⟩ | ⟨-, -, -, hi⟩⟩
    · cases hi
      exact ⟨⟨hopc, hlay, rfl, hz0, hz1⟩, htier⟩
    · cases hi
    · exact absurd hi (init_ne_conv _ _ _ _)
  · rintro ⟨⟨hopc, hlay, rfl, hz0, hz1⟩, htier⟩
    exact ⟨hz0, hz1, .inl ⟨hopc, hlay, htier, rfl⟩⟩

/-- The word of `LOOKUP l` (R89). -/
theorem decode_eq_lookup_iff (c : Config) (k : Command) (l : Layout) :
    decode c k = .ok (.lookup l) ↔ k.cw = commandWord 2 l.field 0 := by
  rw [decode_eq_ok_iff, eq_commandWord_iff]
  constructor
  · rintro ⟨hz0, hz1, ⟨-, -, -, hi⟩ | ⟨hopc, htier, hi⟩ | ⟨-, -, -, hi⟩⟩
    · cases hi
    · cases hi
      exact ⟨hopc, (Layout.field_ofField _).symm, htier, hz0, hz1⟩
    · exact absurd hi (lookup_ne_conv _ _ _ _)
  · rintro ⟨hopc, hlay, htier, hz0, hz1⟩
    exact ⟨hz0, hz1, .inr (.inl ⟨hopc, htier, by rw [hlay, Layout.ofField_field]⟩)⟩

/-- Settles O4: the mask pins every field of `INIT` but `TIER`, which the constraint bounds. -/
theorem initWordsByMaskAndMatch : Obligations.InitWordsByMaskAndMatch := by
  intro c w o t
  have hword : commandWord 1 0 t = (0x00000001 : Word) ||| (t.setWidth 32 <<< 8) := by simp [commandWord_eq_or]
  have hmatch : (0x00000001 : Word) = commandWord 1 0 0 := by decide
  simp only [decode_eq_init_iff]
  rw [← hword, hmatch, and_tierMask_eq_iff]
  refine ⟨⟨?_, fun h => ⟨_, h⟩⟩, Iff.rfl⟩
  rintro ⟨t', hw, ht⟩
  obtain ⟨-, -, rfl, -⟩ := (eq_commandWord_iff w 1 0 t').1 hw
  exact ⟨hw, ht⟩

/-- Settles O5: the mask pins every field of `LOOKUP` but `LAYOUT`, of which every value is a layout (R83). -/
theorem lookupWordsByMaskAndMatch : Obligations.LookupWordsByMaskAndMatch := by
  intro c w o l
  have hmatch : (0x00000002 : Word) = commandWord 2 0 0 := by decide
  simp only [decode_eq_lookup_iff]
  constructor
  · rw [hmatch, and_layoutMask_eq_iff]
    constructor
    · rintro ⟨l', hw⟩
      obtain ⟨-, hlay, -⟩ := (eq_commandWord_iff w 2 l'.field 0).1 hw
      rwa [hlay]
    · exact fun hw => ⟨Layout.ofField (layoutField w), by rwa [Layout.field_ofField]⟩
  · cases l <;> exact Iff.rfl

end Sys2Proof
end

section
/-! PROOFS. The datapath family: the saturating shift (R120) and PIX written out from the coefficients (R121). -/

namespace Sys2Proof

/-- The saturating shift as a floor division between two bounds (R10, R120). -/
theorem satshift_eq_max_min (x : Int) : satshift x = max 0 (min 255 (x / 512)) := by
  have hasr : asr x shift = x / 512 := rfl
  rw [satshift, hasr, clamp]
  split_ifs <;> omega

theorem satshift_of_neg {x : Int} (h : x < 0) : satshift x = 0 := by
  rw [satshift_eq_max_min]
  omega

theorem satshift_of_inRange {x : Int} (h0 : 0 ≤ x) (h : x ≤ 131071) : satshift x = x / 512 := by
  rw [satshift_eq_max_min]
  omega

theorem satshift_of_ge {x : Int} (h : 131072 ≤ x) : satshift x = 255 := by
  rw [satshift_eq_max_min]
  omega

/-- Bits 17 to 31 of a value are zeros exactly when it lies in 0..131071. -/
theorem extractLsb'_17_15_eq_zero_iff (x : BitVec 32) : x.extractLsb' 17 15 = 0 ↔ 0 ≤ x.toInt ∧ x.toInt ≤ 131071 := by
  rw [← BitVec.toNat_inj, BitVec.extractLsb'_toNat, Nat.shiftRight_eq_div_pow, BitVec.toInt_eq_toNat_cond]
  have hx := x.isLt
  have hzero : (0 : BitVec 15).toNat = 0 := rfl
  split <;> omega

/-- Bits 9 to 16 of a value are its floor division by 512, as a byte. -/
theorem extractLsb'_9_8_eq_ofInt (x : BitVec 32) : x.extractLsb' 9 8 = BitVec.ofInt 8 (x.toInt / 512) := by
  apply BitVec.eq_of_toNat_eq
  rw [BitVec.extractLsb'_toNat, Nat.shiftRight_eq_div_pow, BitVec.toNat_ofInt, BitVec.toInt_eq_toNat_cond]
  split <;> omega

/-- The bit-level form answers the byte of the saturating shift, range by range (R120). -/
theorem satshiftBits_eq_ofInt_satshift (x : BitVec 32) : satshiftBits x = BitVec.ofInt 8 (satshift x.toInt) := by
  unfold satshiftBits
  split_ifs with hhigh hsign
  · obtain ⟨h0, h⟩ := (extractLsb'_17_15_eq_zero_iff x).1 hhigh
    rw [satshift_of_inRange h0 h, extractLsb'_9_8_eq_ofInt]
  · have hneg : x.toInt < 0 := by simpa [BitVec.msb_eq_toInt] using hsign
    rw [satshift_of_neg hneg]
    rfl
  · have hnonneg : 0 ≤ x.toInt := by simpa [BitVec.msb_eq_toInt] using hsign
    have hge : 131072 ≤ x.toInt := by
      rw [extractLsb'_17_15_eq_zero_iff] at hhigh
      omega
    rw [satshift_of_ge hge]
    rfl

/-- Settles O45: the three ranges from the floor division between bounds, and the bit-level form range by range. -/
theorem saturatingShiftByRanges : Obligations.SaturatingShiftByRanges :=
  ⟨fun _ => ⟨satshift_of_neg, satshift_of_inRange, satshift_of_ge⟩, satshiftBits_eq_ofInt_satshift⟩

/-- Settles O46: each channel's byte is the saturating shift of its accumulator (`pix_toNat`), and the accumulators of R119
are the written-out sums. -/
theorem pixelFunctionWrittenOut : Obligations.PixelFunctionWrittenOut := by
  intro c y u v
  obtain ⟨hr, hg, hb⟩ := pix_toNat c y u v
  rw [satshift_eq_max_min] at hr hg hb
  exact ⟨hr, hg, hb⟩

end Sys2Proof
end

section
/-! PROOFS. The kernel variants: the row of each layout (R149 to R152), no columns (R146), the tier and the registry (R153),
the permutations of the channels (R155), and FI's loop by pairs (R145). -/

namespace Sys2Proof

/-! ### Intervals: a shorter one, and one with no address -/

theorem Span.disjoint_of_subset {r r' t : Span} (hsub : ∀ a, r'.has a = true → r.has a = true)
    (h : r.disjoint t = true) : r'.disjoint t = true := by
  rw [Span.disjoint_iff] at h ⊢
  exact fun a ⟨hr, ht⟩ => h a ⟨hsub a hr, ht⟩

theorem Span.allMapped_of_subset {map : List Region} {r r' : Span} (hsub : ∀ a, r'.has a = true → r.has a = true)
    (h : r.allMapped map = true) : r'.allMapped map = true := by
  rw [Span.allMapped_iff] at h ⊢
  exact fun a hr => h a (hsub a hr)

theorem Span.inSpace_of_len_le {r r' : Span} {aw : Nat} (hb : r'.base = r.base) (hl : r'.len ≤ r.len)
    (h : r.inSpace aw = true) : r'.inSpace aw = true := by
  simp only [Span.inSpace, decide_eq_true_iff] at h ⊢
  omega

theorem Span.disjoint_of_len_eq_zero {r : Span} (h : r.len = 0) (t : Span) : r.disjoint t = true := by
  simp [Span.disjoint, h]

theorem Span.allMapped_of_len_eq_zero {r : Span} (h : r.len = 0) (map : List Region) : r.allMapped map = true := by
  simp [Span.allMapped, h, allBelow]

theorem Span.inSpace_of_len_eq_zero {r : Span} {aw : Nat} (h : r.len = 0) (hb : r.base < 2 ^ aw) :
    r.inSpace aw = true := by
  simp [Span.inSpace, h, hb.le]

/-- The write set grows with the step of the layout (R60). -/
theorem Opnd.writes_subset_of_step_le {l l' : Layout} (hle : l'.step ≤ l.step) (o : Opnd) (a : Nat)
    (h : (o.writes l').has a = true) : (o.writes l).has a = true := by
  have hlen := Nat.mul_le_mul_left o.n.toNat hle
  rw [Span.has_iff] at h ⊢
  simp only [Opnd.writes] at h ⊢
  omega

theorem Opnd.writes_len_of_no_columns {o : Opnd} (h : o.n = 0) (l : Layout) : (o.writes l).len = 0 := by
  simp [Opnd.writes, h]

theorem Opnd.reads_len_of_no_columns {o : Opnd} (h : o.n = 0) : ∀ r ∈ o.reads, r.len = 0 := by
  simp [Opnd.reads, Opnd.ySpan, Opnd.uSpan, Opnd.vSpan, Opnd.clen, h]

theorem Opnd.base_lt_of_fits {o : Opnd} {aw : Nat} (h : o.fits aw = true) (l : Layout) :
    (o.writes l).base < 2 ^ aw ∧ ∀ r ∈ o.reads, r.base < 2 ^ aw := by
  simp only [Opnd.fits, Bool.and_eq_true, decide_eq_true_iff] at h
  obtain ⟨⟨⟨hy, hu⟩, hv⟩, hd⟩ := h
  simp [Opnd.writes, Opnd.reads, Opnd.ySpan, Opnd.uSpan, Opnd.vSpan, hy, hu, hv, hd]

end Sys2Proof

namespace Sys2Proof.Machine

/-! ### The contract of a conversion -/

/-- The contract of a conversion is what an offer checks of it: the command exists and no class of R205 applies. -/
theorem convContract_iff (l : Layout) (t : Byte) (o : Opnd) (s : State) :
    convContract l t o s ↔ (Instr.conv l t o).wellFormed s.cfg = true ∧ convStop l t o s = none := by
  rw [convStop_eq_none, wellFormed_conv, Bool.and_eq_true, decide_eq_true_iff]
  constructor
  · rintro ⟨htier, hfits, hwrap, hmap, hself, hrace, hcap⟩
    exact ⟨⟨htier, hfits⟩, hwrap, hcap, hmap, hself, hrace⟩
  · rintro ⟨⟨htier, hfits⟩, hwrap, hcap, hmap, hself, hrace⟩
    exact ⟨htier, hfits, hwrap, hmap, hself, hrace, hcap⟩

/-- Inside the contract of a layout, the contract of every layout with no longer a step holds (R143). -/
theorem convContract.of_step_le {l l' : Layout} {t : Byte} {o : Opnd} {s : State} (hle : l'.step ≤ l.step)
    (h : convContract l t o s) : convContract l' t o s := by
  obtain ⟨htier, hfits, hwrap, hmap, hself, hrace, hcap⟩ := h
  have hsub := Opnd.writes_subset_of_step_le hle o
  refine ⟨htier, hfits, ?_, ?_, ?_, ?_, hcap⟩
  · rw [noWrap, Bool.and_eq_true] at hwrap ⊢
    obtain ⟨hreads, hwrites⟩ := hwrap
    exact ⟨hreads, Span.inSpace_of_len_le (r := o.writes l) rfl (Nat.mul_le_mul_left o.n.toNat hle) hwrites⟩
  · rw [allMapped, Bool.and_eq_true] at hmap ⊢
    obtain ⟨hreads, hwrites⟩ := hmap
    exact ⟨hreads, Span.allMapped_of_subset hsub hwrites⟩
  · rw [selfDisjoint, List.all_eq_true] at hself ⊢
    exact fun r hr => Span.disjoint_of_subset hsub (hself r hr)
  · simp only [raceFree, List.all_eq_true, Option.all_eq_true, compatible, Bool.and_eq_true] at hrace ⊢
    intro q hq f hf
    obtain ⟨⟨hww, hwr⟩, hrw⟩ := hrace q hq f hf
    exact ⟨⟨Span.disjoint_of_subset hsub hww, fun r hr => Span.disjoint_of_subset hsub (hwr r hr)⟩, hrw⟩

/-- With no columns the read set and the write set are empty, so P1 to P4 hold of any pointers (R146). -/
theorem convContract_of_no_columns {l : Layout} {t : Byte} {o : Opnd} {s : State} (htier : t.toNat < s.cfg.nt)
    (hfits : o.fits s.cfg.aw = true) (hcap : capable s.cfg t = true) (hn : o.n = 0) : convContract l t o s := by
  have hw := Opnd.writes_len_of_no_columns hn l
  have hr := Opnd.reads_len_of_no_columns hn
  obtain ⟨hwb, hrb⟩ := Opnd.base_lt_of_fits hfits l
  refine ⟨htier, hfits, ?_, ?_, ?_, ?_, hcap⟩
  · rw [noWrap, Bool.and_eq_true, List.all_eq_true]
    exact ⟨fun r h => Span.inSpace_of_len_eq_zero (hr r h) (hrb r h), Span.inSpace_of_len_eq_zero hw hwb⟩
  · rw [allMapped, Bool.and_eq_true, List.all_eq_true]
    exact ⟨fun r h => Span.allMapped_of_len_eq_zero (hr r h) _, Span.allMapped_of_len_eq_zero hw _⟩
  · rw [selfDisjoint, List.all_eq_true]
    exact fun r _ => Span.disjoint_of_len_eq_zero hw r
  · simp only [raceFree, List.all_eq_true, Option.all_eq_true, compatible, Bool.and_eq_true]
    intro q _ f _
    refine ⟨⟨Span.disjoint_of_len_eq_zero hw _, fun r _ => Span.disjoint_of_len_eq_zero hw r⟩, fun r h => ?_⟩
    rw [Span.disjoint_comm]
    exact Span.disjoint_of_len_eq_zero (hr r h) _

/-- Settles O24: with no columns any pointers are inside the contract, and the row of no columns is memory as it was. -/
theorem zeroColumnsChangeNoByte : Obligations.ZeroColumnsChangeNoByte := by
  intro s q l t o hready htier hfits hcap hn
  have hc : convContract l t o s := convContract_of_no_columns htier hfits hcap hn
  refine ⟨freeLatches s.cfg.aw s.fresh, ?_⟩
  rw [exec_conv_accepted l s q t o hready hc, hn]
  rfl

/-! ### The bytes of a row, layout by layout -/

/-- What the four conversions share of R149 to R152, inside P1 to P5: the next state, each byte of the write set by its
channel, every byte outside it, and the word (R90). -/
theorem exec_conv_writes_the_row (l : Layout) {s : State} {q : Port} {t : Byte} {o : Opnd} (hready : s.readyPort q)
    (hc : convContract l t o s) (hwf : s.mem.wf) :
    ∃ m a', exec (Instr.conv l t o) s = .next { s with
        mem := m
        ports := s.ports.modify s.cur fun p => { p with a := a', cidx := p.cidx + 1, rsps := p.rsps ++ [0x00000000] }
        fresh := s.fresh + 1 } ∧
      (∀ i < o.n.toNat, ∀ k < l.step,
        m.read (o.d.toNat + l.step * i + k) = channelAt l (columnPixel s.cfg.coef o s.mem i) k) ∧
      (∀ a, (a < o.d.toNat ∨ o.d.toNat + l.step * o.n.toNat ≤ a) → m.read a = s.mem.read a) ∧
      encode (Instr.conv l t o) =
        { cw := (0x00000003 : Word) ||| (l.field.setWidth 32 <<< 4) ||| (t.setWidth 32 <<< 8), opnd := o } := by
  have hself : selfDisjoint l o = true := by
    obtain ⟨-, -, -, -, hself, -⟩ := hc
    exact hself
  refine ⟨_, _, exec_conv_accepted l s q t o hready hc, fun i hi k hk => read_row_pixel _ hself hwf hi hk,
    fun a ha => ?_, ?_⟩
  · exact read_row_outside _ l o _ hwf a (by rwa [Nat.mul_comm])
  · rw [encode_conv, kernelRef_eq]

/-- Settles O20: red, green and blue are bytes 0, 1 and 2 of a three-byte pixel. -/
theorem convRgbWritesTheRow : Obligations.ConvRgbWritesTheRow := by
  intro s q t o hready hc hwf
  obtain ⟨m, a', hexec, hin, hout, henc⟩ := exec_conv_writes_the_row .rgb hready hc hwf
  exact ⟨m, a', hexec, fun i hi => ⟨hin i hi 0 (by decide), hin i hi 1 (by decide), hin i hi 2 (by decide)⟩, hout, henc⟩

/-- Settles O21: red, green, blue and opacity are bytes 0 to 3 of a four-byte pixel. -/
theorem convRgbaWritesTheRow : Obligations.ConvRgbaWritesTheRow := by
  intro s q t o hready hc hwf
  obtain ⟨m, a', hexec, hin, hout, henc⟩ := exec_conv_writes_the_row .rgba hready hc hwf
  exact ⟨m, a', hexec, fun i hi => ⟨hin i hi 0 (by decide), hin i hi 1 (by decide), hin i hi 2 (by decide),
    hin i hi 3 (by decide)⟩, hout, henc⟩

/-- Settles O22: blue, green and red are bytes 0, 1 and 2 of a three-byte pixel. -/
theorem convBgrWritesTheRow : Obligations.ConvBgrWritesTheRow := by
  intro s q t o hready hc hwf
  obtain ⟨m, a', hexec, hin, hout, henc⟩ := exec_conv_writes_the_row .bgr hready hc hwf
  exact ⟨m, a', hexec, fun i hi => ⟨hin i hi 0 (by decide), hin i hi 1 (by decide), hin i hi 2 (by decide)⟩, hout, henc⟩

/-- Settles O23: blue, green, red and opacity are bytes 0 to 3 of a four-byte pixel. -/
theorem convBgraWritesTheRow : Obligations.ConvBgraWritesTheRow := by
  intro s q t o hready hc hwf
  obtain ⟨m, a', hexec, hin, hout, henc⟩ := exec_conv_writes_the_row .bgra hready hc hwf
  exact ⟨m, a', hexec, fun i hi => ⟨hin i hi 0 (by decide), hin i hi 1 (by decide), hin i hi 2 (by decide),
    hin i hi 3 (by decide)⟩, hout, henc⟩

/-- Settles O27: a row inside the contract of `CONV.RGBA` is inside the contract of all four (`convContract.of_step_le`), and
each gives its pixel the same channels (`convRgbWritesTheRow` and its three companions) at its own offsets. -/
theorem channelOrdersArePermutations : Obligations.ChannelOrdersArePermutations := by
  intro s q t o hready hc hwf
  obtain ⟨_, _, hrgb, brgb, -, -⟩ := convRgbWritesTheRow s q t o hready (hc.of_step_le (by decide)) hwf
  obtain ⟨_, _, hbgr, bbgr, -, -⟩ := convBgrWritesTheRow s q t o hready (hc.of_step_le (by decide)) hwf
  obtain ⟨_, _, hrgba, brgba, -, -⟩ := convRgbaWritesTheRow s q t o hready hc hwf
  obtain ⟨_, _, hbgra, bbgra, -, -⟩ := convBgraWritesTheRow s q t o hready (hc.of_step_le (by decide)) hwf
  refine ⟨_, _, _, _, hrgb, hbgr, hrgba, hbgra, fun i hi => ?_⟩
  obtain ⟨r1, g1, b1⟩ := brgb i hi
  obtain ⟨b2, g2, r2⟩ := bbgr i hi
  obtain ⟨r3, g3, b3, a3⟩ := brgba i hi
  obtain ⟨b4, g4, r4, a4⟩ := bbgra i hi
  exact ⟨⟨b2.trans b1.symm, g2.trans g1.symm, r2.trans r1.symm⟩,
    ⟨b4.trans b3.symm, g4.trans g3.symm, r4.trans r3.symm, a4.trans a3.symm⟩,
    r3.trans r1.symm, g3.trans g1.symm, b3.trans b1.symm, a3⟩

/-! ### The tier and the registry (R153) -/

/-- Of two tiers, an offer asks only that they exist and are capable (R84, R202). -/
theorem convStop_of_capable (l : Layout) {t t' : Byte} (o : Opnd) {s : State} (ht : capable s.cfg t = true)
    (ht' : capable s.cfg t' = true) : convStop l t o s = convStop l t' o s := by
  simp [convStop, firstStop, ht, ht']

/-- Two offers that are checked alike, and agree where they are accepted, have the same outcome. -/
theorem offer_congr {i i' : Instr} {stop stop' : State → Option Stop} {go go' : State → Out} {s : State}
    (hw : i.wellFormed s.cfg = i'.wellFormed s.cfg) (hs : stop s = stop' s)
    (hgo : ∀ q, s.readyPort q → i.wellFormed s.cfg = true → stop s = none → go (s.accept i) = go' (s.accept i')) :
    offer i stop go s = offer i' stop' go' s := by
  unfold offer
  rw [← hw, ← hs]
  split
  · rfl
  next ha =>
  split
  · rfl
  next q hq =>
  split
  · rfl
  next hc =>
  split
  · rfl
  next hwf =>
  split
  · rfl
  next hn => exact hgo q ⟨by simpa using ha, hq, hc⟩ (by simpa using hwf) hn

/-- Inside its contract a conversion is accepted, runs its row and completes (R91, R144, R156). -/
theorem exec_conv_of_contract {l : Layout} {t : Byte} {o : Opnd} {s : State} {q : Port} (hready : s.readyPort q)
    (hc : convContract l t o s) :
    exec (Instr.conv l t o) s = convCompletes ((s.accept (Instr.conv l t o)).runRow l) := by
  obtain ⟨hwf, hn⟩ := (convContract_iff l t o s).1 hc
  rw [exec_conv, convert, offer_accepts hready hwf hn]

/-- Both tiers run the one procedure (R126): inside the contract its answer does not name the tier. -/
theorem exec_conv_tier (l : Layout) {t t' : Byte} (o : Opnd) {s : State} (hnt : t.toNat < s.cfg.nt)
    (hnt' : t'.toNat < s.cfg.nt) (ht : capable s.cfg t = true) (ht' : capable s.cfg t' = true) :
    exec (Instr.conv l t o) s = exec (Instr.conv l t' o) s := by
  have hw : (Instr.conv l t o).wellFormed s.cfg = (Instr.conv l t' o).wellFormed s.cfg := by simp [hnt, hnt']
  have hs := convStop_of_capable l o ht ht'
  rw [exec_conv, exec_conv]
  refine offer_congr hw hs fun q hready hwf hn => ?_
  have hc : convContract l t o s := (convContract_iff l t o s).2 ⟨hwf, hn⟩
  have hc' : convContract l t' o s := (convContract_iff l t' o s).2 ⟨hw ▸ hwf, hs ▸ hn⟩
  rw [← exec_conv_of_contract hready hc, ← exec_conv_of_contract hready hc', exec_conv_accepted l s q t o hready hc,
    exec_conv_accepted l s q t' o hready hc']

/-- Neither the port, the contract nor the row of a conversion looks at the registry. -/
theorem exec_conv_registry {l : Layout} {t : Byte} {o : Opnd} {s s' : State} (r : Registry)
    (h : exec (Instr.conv l t o) s = .next s') :
    exec (Instr.conv l t o) { s with sr := r } = .next { s' with sr := r } := by
  have hoffer := h
  rw [exec_conv, convert] at hoffer
  obtain ⟨q, hq, ha, ⟨j, w, hbusy, rfl⟩ | ⟨hidle, hwf, hn, -⟩⟩ := offer_next hoffer
  · rw [exec_conv, convert]
    exact offer_waits ha hq hbusy
  · have hc : convContract l t o s := (convContract_iff l t o s).2 ⟨hwf, hn⟩
    rw [exec_conv_accepted l s q t o ⟨ha, hq, hidle⟩ hc] at h
    cases h
    exact exec_conv_accepted l { s with sr := r } q t o ⟨ha, hq, hidle⟩ hc

/-- Settles O26: the tier is checked and no more, and the registry is not read. -/
theorem tierAndRegistryDoNotMatter : Obligations.TierAndRegistryDoNotMatter :=
  fun _ l _ _ o r hnt hnt' ht ht' => ⟨exec_conv_tier l o hnt hnt' ht ht', fun _ h => exec_conv_registry r h⟩

/-! ### FI's loop by pairs (R145) -/

/-- A source byte of a column of the row is as it was, however many columns are written (P3). -/
theorem read_row_source (c : Coef) {l : Layout} {o : Opnd} (hd : selfDisjoint l o = true) {n i : Nat} (hn : n ≤ o.n.toNat)
    (hi : i < o.n.toNat) {m : Memory} (h : m.wf) (b : Nat)
    (hb : b = o.y.toNat + i ∨ b = o.u.toNat + i / 2 ∨ b = o.v.toNat + i / 2) : (row c l o n m).read b = m.read b := by
  have hout := source_outside hd hi b hb
  have hle := Nat.mul_le_mul_right l.step hn
  exact read_row_outside c l o n h b (by omega)

/-- One column stored with the chroma pair of index `k` is a column of the row when `k` is its pair (R144). -/
theorem storePixel_row (c : Coef) (l : Layout) (o : Opnd) (m : Memory) {i k : Nat} (hk : i / 2 = k) :
    storePixel l (c.pix ((row c l o i m).read (o.y.toNat + i)) ((row c l o i m).read (o.u.toNat + k))
      ((row c l o i m).read (o.v.toNat + k))) (o.d.toNat + i * l.step) (row c l o i m) = row c l o (i + 1) m := by
  subst hk
  rfl

/-- The first `k` pairs are the first `2 * k` columns: the even column of a pair overwrites no chroma sample, so the odd one
would read the same pair again. -/
theorem pairs_eq_row (c : Coef) {l : Layout} {o : Opnd} (hd : selfDisjoint l o = true) {m : Memory} (h : m.wf) {k : Nat}
    (hk : 2 * k ≤ o.n.toNat) : pairs c l o k m = row c l o (2 * k) m := by
  induction k with
  | zero => rfl
  | succ k ih =>
    have hodd : (2 * k + 1) / 2 = k := by omega
    have hchroma : ∀ b, (b = o.u.toNat + k ∨ b = o.v.toNat + k) →
        (row c l o (2 * k) m).read b = (row c l o (2 * k + 1) m).read b := fun b hb => by
      have hsrc : b = o.y.toNat + (2 * k + 1) ∨ b = o.u.toNat + (2 * k + 1) / 2 ∨ b = o.v.toNat + (2 * k + 1) / 2 := by
        rw [hodd]
        exact .inr hb
      rw [read_row_source c hd (by omega) (by omega) h b hsrc, read_row_source c hd (by omega) (by omega) h b hsrc]
    simp only [pairs, ih (by omega)]
    rw [storePixel_row c l o m (by omega : 2 * k / 2 = k), hchroma _ (.inl rfl), hchroma _ (.inr rfl),
      storePixel_row c l o m hodd]
    rfl

/-- Settles O29: the pairs are the even number of columns below `n` (`pairs_eq_row`), and the tail is the odd last one. -/
theorem pairedLoopEqualsColumnLoop : Obligations.PairedLoopEqualsColumnLoop := by
  intro c l o m hd h
  simp only [pairedRow, pairs_eq_row c hd h (Nat.mul_div_le o.n.toNat 2)]
  split
  · next hodd =>
    have hlast : o.n.toNat - 1 = 2 * (o.n.toNat / 2) := by omega
    have hn : o.n.toNat = 2 * (o.n.toNat / 2) + 1 := by omega
    rw [hlast, storePixel_row c l o m (by omega), ← hn]
  · next heven =>
    have hn : 2 * (o.n.toNat / 2) = o.n.toNat := by omega
    rw [hn]

end Sys2Proof.Machine
end

section
/-! PROOFS. The registry commands: what `INIT` (R172) and `LOOKUP` (R175) answer inside their contracts, and `INIT`s in turn
(R173, R174). -/

namespace Sys2Proof.Machine

/-- A port that has answered one more command of its list with `v`; its latches are as they were (R25). -/
def Port.answer (v : Word) (q : Port) : Port := { q with cidx := q.cidx + 1, rsps := q.rsps ++ [v] }

/-- The state in which the current port has completed `INIT t` (R172). -/
def State.registered (t : Byte) (s : State) : State :=
  { s with sr := Registry.all (Slot.kref t), ports := s.ports.modify s.cur (Port.answer 0) }

@[simp] theorem State.registered_sr (t : Byte) (s : State) : (s.registered t).sr = Registry.all (Slot.kref t) := rfl

@[simp] theorem Registry.get_all (x : Slot) (l : Layout) : (Registry.all x).get l = x := by cases l <;> rfl

/-- An idle port that accepts a command without operands and then responds is idle again, with one more answer. -/
theorem Port.respond_accept {i : Instr} {q : Port} (v : Word) (hidle : q.cond = .idle) (hopnd : i.opnd = none) :
    { q.accept i with cond := .idle, rsps := (q.accept i).rsps ++ [v] } = q.answer v := by
  simp [Port.accept, Port.answer, hidle, hopnd]

/-- Acceptance and response of a registry command, which takes no operands, on a ready port. -/
theorem State.respond_accept {i : Instr} {s : State} {q : Port} (v : Word) (hready : s.readyPort q) (hopnd : i.opnd = none) :
    (s.accept i).respond v =
      { s with used := s.used || i.isLookup, ports := s.ports.modify s.cur (Port.answer v) } := by
  obtain ⟨-, hq, hidle⟩ := hready
  simp only [State.respond, State.accept, State.updPort, List.modify_modify_eq]
  rw [modify_congr s.ports s.cur q hq (Port.respond_accept v hidle hopnd)]

/-- What `INIT t` answers inside its contract on a ready port (R172). -/
theorem exec_init {t : Byte} {s : State} {q : Port} (hready : s.readyPort q) (hc : initContract t s) :
    exec (.init t) s = .next (s.registered t) := by
  obtain ⟨htier, hstop⟩ := hc
  have hwf : (Instr.init t).wellFormed s.cfg = true := decide_eq_true htier
  calc exec (.init t) s = initCompletes t (s.accept (.init t)) :=
        offer_accepts hready hwf ((initStop_eq_none t s).2 hstop)
    _ = .next { (s.accept (.init t)).respond 0 with sr := Registry.all (Slot.kref t) } := rfl
    _ = .next (s.registered t) := by
      rw [State.respond_accept 0 hready rfl]
      simp [State.registered, Instr.isLookup]

/-- What `LOOKUP l` answers inside its contract on a ready port (R175). -/
theorem exec_lookup {l : Layout} {s : State} {q : Port} (hready : s.readyPort q) (hc : lookupContract l s) :
    exec (.lookup l) s = .next { s with
      used := true, ports := s.ports.modify s.cur (Port.answer (kernelRef l (s.sr.get l).tier)) } := by
  have hfull : ((s.accept (.lookup l)).sr.get l).v = true := by
    obtain ⟨hv, -⟩ := hc
    exact hv
  calc exec (.lookup l) s = lookupCompletes l (s.accept (.lookup l)) :=
        offer_accepts hready rfl ((lookupStop_eq_none l s).2 hc)
    _ = .next ((s.accept (.lookup l)).respond (kernelRef l (s.sr.get l).tier)) := if_pos hfull
    _ = _ := by
      rw [State.respond_accept _ hready rfl]
      simp [Instr.isLookup]

/-- Settles O14: `exec_init` is the next state, and `commandWord_eq_or` the word (R88). -/
theorem initFillsAllFourSlots : Obligations.InitFillsAllFourSlots :=
  fun _ _ t hready hc => ⟨exec_init hready hc, by simp [encode, commandWord_eq_or]⟩

/-- Settles O15: `exec_lookup` is the next state, with the kernel reference as R93 writes it (`kernelRef_eq`). -/
theorem lookupAnswersTheKernelReference : Obligations.LookupAnswersTheKernelReference := by
  intro s q l hready hc
  refine ⟨?_, by simp [encode, commandWord_eq_or]⟩
  rw [exec_lookup hready hc, kernelRef_eq]
  rfl

/-! ### `INIT`s in turn -/

/-- Changing a port other than in its condition changes no port's condition. -/
theorem map_cond_modify {f : Port → Port} (hf : ∀ q, (f q).cond = q.cond) (xs : List Port) (p : Nat) :
    (xs.modify p f).map Port.cond = xs.map Port.cond := by
  apply List.ext_getElem?
  intro j
  simp only [List.getElem?_map, List.getElem?_modify]
  split <;> simp [Function.comp_def, hf]

/-- Which registry commands are in flight is seen from the ports' conditions alone (R31). -/
theorem State.registryBusy_of_cond {s s' : State} (h : s'.ports.map Port.cond = s.ports.map Port.cond) :
    s'.initBusy = s.initBusy ∧ s'.lookupBusy = s.lookupBusy := by
  have hany (g : PortCond → Bool) : (s'.ports.any fun q => g q.cond) = s.ports.any fun q => g q.cond := by
    simpa [List.any_map, Function.comp_def] using congrArg (List.any · g) h
  exact ⟨hany fun c => c.cmd.any Instr.isInit, hany fun c => c.cmd.any Instr.isLookup⟩

/-- After an `INIT` its port is ready for the next command. -/
theorem State.readyPort_registered {s : State} {q : Port} (t : Byte) (hready : s.readyPort q) :
    (s.registered t).readyPort (q.answer 0) := by
  obtain ⟨hadm, hq, hidle⟩ := hready
  exact ⟨hadm, by simp [State.registered, hq], hidle⟩

/-- An `INIT` leaves the contract of every `INIT` as it was: a filled registry is no obstacle (R173). -/
theorem initContract_registered (t t' : Byte) (s : State) : initContract t' (s.registered t) ↔ initContract t' s := by
  obtain ⟨hinit, hlookup⟩ :=
    State.registryBusy_of_cond (s := s) (s' := s.registered t) (map_cond_modify (f := Port.answer 0) (fun _ => rfl) _ _)
  rw [initContract, hinit, hlookup]
  rfl

/-- Settles O16: each `INIT` leaves its port ready and every `INIT` inside its contract, and writes all four slots whatever
they held. -/
theorem lastInitWinsAndIsIdempotent : Obligations.LastInitWinsAndIsIdempotent := by
  intro s q t t' hready hc hc'
  have hready1 := State.readyPort_registered t hready
  have hc1 : initContract t' (s.registered t) := (initContract_registered t t' s).2 hc'
  have hready2 := State.readyPort_registered t' hready1
  have hc2 : initContract t' ((s.registered t).registered t') := (initContract_registered t' t' _).2 hc1
  exact ⟨_, _, _, exec_init hready hc, exec_init hready1 hc1, exec_init hready2 hc2, fun l => by simp, rfl⟩

end Sys2Proof.Machine
end

section
/-! PROOFS. Undefined behaviour: what a command answers when a class of R191 applies to it, for U1 (R192), U4 (R195), U6 (R197),
U8 (R199) and U11 (R201). -/

namespace Sys2Proof

/-! ### P1 to P3 of R143, address by address -/

/-- The read set is the luma range and the two chroma ranges (R59). -/
theorem Opnd.reads_has_iff (o : Opnd) (a : Nat) :
    (∃ r ∈ o.reads, r.has a = true) ↔
      (o.y.toNat ≤ a ∧ a < o.y.toNat + o.n.toNat) ∨ (o.u.toNat ≤ a ∧ a < o.u.toNat + (o.n.toNat + 1) / 2) ∨
        (o.v.toNat ≤ a ∧ a < o.v.toNat + (o.n.toNat + 1) / 2) := by
  simp [Opnd.reads, Opnd.ySpan, Opnd.uSpan, Opnd.vSpan, Opnd.clen, Span.has_iff]

/-- The write set is the destination range (R60). -/
theorem Opnd.writes_has_iff (o : Opnd) (l : Layout) (a : Nat) :
    (o.writes l).has a = true ↔ o.d.toNat ≤ a ∧ a < o.d.toNat + o.n.toNat * l.step :=
  Span.has_iff _ _

/-- P1: each of the four ranges ends inside the address space (R58). -/
theorem noWrap_iff (aw : Nat) (l : Layout) (o : Opnd) :
    noWrap aw l o = true ↔
      (o.y.toNat + o.n.toNat ≤ 2 ^ aw ∧ o.u.toNat + (o.n.toNat + 1) / 2 ≤ 2 ^ aw ∧
        o.v.toNat + (o.n.toNat + 1) / 2 ≤ 2 ^ aw) ∧ o.d.toNat + o.n.toNat * l.step ≤ 2 ^ aw := by
  simp only [noWrap, Opnd.reads, List.all_cons, List.all_nil, Bool.and_true, Bool.and_eq_true, Span.inSpace,
    decide_eq_true_iff]
  rfl

/-- P2 gives that every address of the read set and of the write set exists (R52). -/
theorem mapped_of_allMapped {map : List Region} {l : Layout} {o : Opnd} (h : allMapped map l o = true) {a : Nat}
    (ha : (∃ r ∈ o.reads, r.has a = true) ∨ (o.writes l).has a = true) : mapped map a = true := by
  rw [allMapped, Bool.and_eq_true, List.all_eq_true] at h
  obtain ⟨hreads, hwrites⟩ := h
  rcases ha with ⟨r, hr, hra⟩ | hwa
  · exact (Span.allMapped_iff map r).1 (hreads r hr) a hra
  · exact (Span.allMapped_iff map _).1 hwrites a hwa

/-- P3 gives that no address of the write set is in the read set (R61). -/
theorem not_reads_has_of_selfDisjoint {l : Layout} {o : Opnd} (h : selfDisjoint l o = true) {a : Nat}
    (hw : (o.writes l).has a = true) : ¬ ∃ r ∈ o.reads, r.has a = true := by
  rintro ⟨r, hr, hra⟩
  rw [selfDisjoint, List.all_eq_true] at h
  exact (Span.disjoint_iff _ r).1 (h r hr) a ⟨hw, hra⟩

end Sys2Proof

namespace Sys2Proof.Machine

/-! ### The first class that applies is the outcome (R205) -/

/-- A command to which a class applies, offered on a ready port, has the outcome of the class. -/
theorem offer_stops {i : Instr} {stop : State → Option Stop} {go : State → Out} {s : State} {q : Port} {st : Stop}
    (hready : s.readyPort q) (hwf : i.wellFormed s.cfg = true) (hstop : stop s = some st) :
    offer i stop go s = st.out := by
  obtain ⟨hadm, hq, hidle⟩ := hready
  simp [offer, hadm, hq, hidle, hwf, hstop]

/-- The same of `exec`, for the six commands at once (R230). -/
theorem exec_stops {i : Instr} {s : State} {q : Port} {st : Stop} (hready : s.readyPort q)
    (hwf : i.wellFormed s.cfg = true) (hstop : stopOf i s = some st) : exec i s = st.out := by
  rw [exec_eq]
  exact offer_stops hready hwf hstop

/-- The same of a conversion, whose tier must exist and whose addresses must be `AW` bits wide (R84, R86). -/
theorem exec_conv_stops {l : Layout} {t : Byte} {o : Opnd} {s : State} {q : Port} {st : Stop} (hready : s.readyPort q)
    (htier : t.toNat < s.cfg.nt) (hfits : o.fits s.cfg.aw = true) (hstop : convStop l t o s = some st) :
    exec (Instr.conv l t o) s = st.out :=
  exec_stops hready (by simp [htier, hfits]) (by rw [stopOf_conv, hstop])

/-! ### When a class is the first -/

theorem lookupStop_of_empty {l : Layout} {s : State} (h : (s.sr.get l).v = false) :
    lookupStop l s = some (.fault (.lookupEmpty l)) := by
  simp [lookupStop, firstStop, h]

/-- U11 is a refusal with one port and a fault with any other number (R201). -/
theorem initStop_of_used {s : State} (t : Byte) (h : s.used = true) :
    initStop t s = some (if s.cfg.np = 1 then .refuse .lateInit else .fault .lateInit) := by
  by_cases hnp : s.cfg.np = 1 <;> simp [initStop, firstStop, h, hnp]

theorem convStop_of_wraps {l : Layout} {o : Opnd} {s : State} (t : Byte) (h : noWrap s.cfg.aw l o = false) :
    convStop l t o s = some (.refuse .wraps) := by
  simp [convStop, firstStop, h]

theorem convStop_of_unmapped {l : Layout} {t : Byte} {o : Opnd} {s : State} (hwrap : noWrap s.cfg.aw l o = true)
    (hcap : capable s.cfg t = true) (h : allMapped s.cfg.map l o = false) :
    convStop l t o s = some (.fault .unmapped) := by
  simp [convStop, firstStop, hwrap, hcap, h]

theorem convStop_of_selfOverlap {l : Layout} {t : Byte} {o : Opnd} {s : State} (hwrap : noWrap s.cfg.aw l o = true)
    (hcap : capable s.cfg t = true) (hmap : allMapped s.cfg.map l o = true) (h : selfDisjoint l o = false) :
    convStop l t o s = some (.fault .selfOverlap) := by
  simp [convStop, firstStop, hwrap, hcap, hmap, h]

/-! ### The statements -/

/-- Settles O41: the address `a` contradicts P2 (`mapped_of_allMapped`). -/
theorem unmappedByteFaults : Obligations.UnmappedByteFaults := by
  intro s q l t o a hready htier hfits hwrap hcap ha hrange
  have hmap : allMapped s.cfg.map l o = false := by
    refine Bool.eq_false_iff.2 fun hall => ?_
    have hin : (∃ r ∈ o.reads, r.has a = true) ∨ (o.writes l).has a = true := by
      rw [Opnd.reads_has_iff, Opnd.writes_has_iff, or_assoc, or_assoc]
      exact hrange
    exact Bool.eq_false_iff.1 ha (mapped_of_allMapped hall hin)
  exact exec_conv_stops hready htier hfits (convStop_of_unmapped hwrap hcap hmap)

/-- Settles O42: the address `a` contradicts P3 (`not_reads_has_of_selfDisjoint`). -/
theorem selfOverlapFaults : Obligations.SelfOverlapFaults := by
  intro s q l t o a hready htier hfits hwrap hcap hmap hwrite hread
  have hself : selfDisjoint l o = false := Bool.eq_false_iff.2 fun hdisj =>
    not_reads_has_of_selfDisjoint hdisj ((o.writes_has_iff l a).2 hwrite) ((o.reads_has_iff a).2 hread)
  exact exec_conv_stops hready htier hfits (convStop_of_selfOverlap hwrap hcap hmap hself)

/-- Settles O36: U1 is the first class of a `LOOKUP`, and every `LOOKUP` is well formed. -/
theorem lookupOfEmptySlotFaults : Obligations.LookupOfEmptySlotFaults :=
  fun _ _ l hready hempty => exec_stops (i := .lookup l) hready rfl (lookupStop_of_empty hempty)

/-- Settles O38: U11 is the first class of an `INIT` once `USED` is set, and the number of ports gives its outcome. -/
theorem lateInitStops : Obligations.LateInitStops := by
  intro s q t hready htier hused
  have hwf : (Instr.init t).wellFormed s.cfg = true := decide_eq_true htier
  have hexec := exec_stops hready hwf (initStop_of_used t hused)
  constructor
  · intro hnp
    rw [hexec, if_pos hnp]
    rfl
  · intro hnp
    rw [hexec, if_neg hnp.ne']
    rfl

/-- Settles O40: the range that ends past the top contradicts P1 (`noWrap_iff`). -/
theorem wrappingConversionIsRefused : Obligations.WrappingConversionIsRefused := by
  intro s q l t o hready htier hfits hpast
  have hwrap : noWrap s.cfg.aw l o = false := by
    refine Bool.eq_false_iff.2 fun hfit => ?_
    have hranges := (noWrap_iff s.cfg.aw l o).1 hfit
    omega
  exact exec_conv_stops hready htier hfits (convStop_of_wraps t hwrap)

end Sys2Proof.Machine
end

section
/-! PROOFS. The decoder against the encoder: the round trip (R99), the reserved words (R94), the words of the conversions (R90). -/

namespace Sys2Proof

/-- The six commands as three rows: `INIT`, `LOOKUP`, and the conversion of a layout (R88 to R90). -/
theorem Instr.init_lookup_or_conv (i : Instr) :
    (∃ t, i = .init t) ∨ (∃ l, i = .lookup l) ∨ ∃ l t o, i = Instr.conv l t o := by
  cases i with
  | init t => exact .inl ⟨t, rfl⟩
  | lookup l => exact .inr (.inl ⟨l, rfl⟩)
  | convRgb t o => exact .inr (.inr ⟨.rgb, t, o, rfl⟩)
  | convRgba t o => exact .inr (.inr ⟨.rgba, t, o, rfl⟩)
  | convBgr t o => exact .inr (.inr ⟨.bgr, t, o, rfl⟩)
  | convBgra t o => exact .inr (.inr ⟨.bgra, t, o, rfl⟩)

theorem Instr.conv_inj {l l' : Layout} {t t' : Byte} {o o' : Opnd} :
    Instr.conv l t o = Instr.conv l' t' o' ↔ l = l' ∧ t = t' ∧ o = o' := by
  cases l <;> cases l' <;> simp [Instr.conv]

/-- The word of `CONV.<l> t`, its constraint and its operands, which are taken as they stand (R90, R87). -/
theorem decode_eq_conv_iff (c : Config) (k : Command) (l : Layout) (t : Byte) (o : Opnd) :
    decode c k = .ok (Instr.conv l t o) ↔
      k.cw = kernelRef l t ∧ t.toNat < c.nt ∧ o.fits c.aw = true ∧ o = k.opnd := by
  rw [decode_eq_ok_iff, kernelRef, eq_commandWord_iff]
  constructor
  · rintro ⟨hz0, hz1, ⟨-, -, -, hi⟩ | ⟨-, -, hi⟩ | ⟨hopc, htier, hfits, hi⟩⟩
    · exact absurd hi.symm (init_ne_conv _ _ _ _)
    · exact absurd hi.symm (lookup_ne_conv _ _ _ _)
    · obtain ⟨rfl, rfl, rfl⟩ := Instr.conv_inj.1 hi
      exact ⟨⟨hopc, (Layout.field_ofField _).symm, rfl, hz0, hz1⟩, htier, hfits, rfl⟩
  · rintro ⟨⟨hopc, hlay, rfl, hz0, hz1⟩, htier, hfits, rfl⟩
    exact ⟨hz0, hz1, .inr (.inr ⟨hopc, htier, hfits, by rw [hlay, Layout.ofField_field]⟩)⟩

/-- The decoder answers a command exactly for its own word and operands, row by row of the opcode table. -/
theorem decode_eq_ok_iff_encode (c : Config) (k : Command) (i : Instr) :
    decode c k = .ok i ↔ i.wellFormed c = true ∧ (encode i).cw = k.cw ∧ ∀ o, i.opnd = some o → o = k.opnd := by
  obtain ⟨t, rfl⟩ | ⟨l, rfl⟩ | ⟨l, t, o, rfl⟩ := i.init_lookup_or_conv
  · rw [decode_eq_init_iff]
    simp [Instr.wellFormed, encode, Instr.opnd, and_comm, eq_comm]
  · rw [decode_eq_lookup_iff]
    simp [Instr.wellFormed, encode, Instr.opnd, eq_comm]
  · rw [decode_eq_conv_iff, wellFormed_conv, encode_conv, opnd_conv, Bool.and_eq_true, decide_eq_true_iff]
    constructor
    · rintro ⟨hcw, htier, hfits, rfl⟩
      exact ⟨⟨htier, hfits⟩, hcw.symm, fun o' ho => (Option.some.inj ho).symm⟩
    · rintro ⟨⟨htier, hfits⟩, hcw, ho⟩
      exact ⟨hcw.symm, htier, hfits, ho o rfl⟩

theorem encode_opnd {i : Instr} {o : Opnd} (h : i.opnd = some o) : (encode i).opnd = o := by
  cases i <;> cases h <;> rfl

/-- Settles O1: the encoding of a command has that command's own word and operands (`decode_eq_ok_iff_encode`). -/
theorem decodeReadsBackEveryCommand : Obligations.DecodeReadsBackEveryCommand :=
  fun c i hwf => (decode_eq_ok_iff_encode c (encode i) i).2 ⟨hwf, rfl, fun _ ho => (encode_opnd ho).symm⟩

/-- Settles O2: `decode_eq_ok_iff_encode`, which needs no width of the bundle, since a well-formed conversion bounds it. -/
theorem decoderAcceptsExactlyTheEncodings : Obligations.DecoderAcceptsExactlyTheEncodings :=
  fun c k i _ => decode_eq_ok_iff_encode c k i

/-- A command is rejected exactly when it has no meaning. -/
theorem decode_eq_error_iff (c : Config) (k : Command) : (∃ e, decode c k = .error e) ↔ ¬ ∃ i, decode c k = .ok i := by
  cases decode c k <;> simp

/-- Which commands have a meaning: the conditions of the three rows, by the fields of the word. -/
theorem exists_decode_eq_ok_iff (c : Config) (k : Command) :
    (∃ i, decode c k = .ok i) ↔ z0Field k.cw = 0 ∧ z1Field k.cw = 0 ∧
      ((opcField k.cw = 1 ∧ layoutField k.cw = 0 ∧ (tierField k.cw).toNat < c.nt) ∨
        (opcField k.cw = 2 ∧ tierField k.cw = 0) ∨
        (opcField k.cw = 3 ∧ (tierField k.cw).toNat < c.nt ∧ k.opnd.fits c.aw = true)) := by
  simp only [decode_eq_ok_iff]
  constructor
  · rintro ⟨i, hz0, hz1, ⟨h1, hl, ht, -⟩ | ⟨h2, ht, -⟩ | ⟨h3, ht, hf, -⟩⟩
    · exact ⟨hz0, hz1, .inl ⟨h1, hl, ht⟩⟩
    · exact ⟨hz0, hz1, .inr (.inl ⟨h2, ht⟩)⟩
    · exact ⟨hz0, hz1, .inr (.inr ⟨h3, ht, hf⟩)⟩
  · rintro ⟨hz0, hz1, ⟨h1, hl, ht⟩ | ⟨h2, ht⟩ | ⟨h3, ht, hf⟩⟩
    · exact ⟨_, hz0, hz1, .inl ⟨h1, hl, ht, rfl⟩⟩
    · exact ⟨_, hz0, hz1, .inr (.inl ⟨h2, ht, rfl⟩)⟩
    · exact ⟨_, hz0, hz1, .inr (.inr ⟨h3, ht, hf, rfl⟩)⟩

/-- A value of `OPC` is one of the three opcodes, or else 0 or 4 to 15 (R82). -/
theorem opcode_cases (p : BitVec 4) : ((p = 0 ∨ 4 ≤ p.toNat) ∧ p ≠ 1 ∧ p ≠ 2 ∧ p ≠ 3) ∨ p = 1 ∨ p = 2 ∨ p = 3 := by
  revert p
  decide

/-- Settles O3: the complement of the accepted words (`exists_decode_eq_ok_iff`), opcode by opcode. -/
theorem reservedWordsAreRejected : Obligations.ReservedWordsAreRejected := by
  intro c w o hfits
  rw [decode_eq_error_iff, exists_decode_eq_ok_iff]
  simp only [hfits, and_true, ← not_lt (b := c.nt)]
  change ¬ (z0Field w = 0 ∧ z1Field w = 0 ∧ _) ↔ (opcField w = 0 ∨ 4 ≤ (opcField w).toNat) ∨ z0Field w ≠ 0 ∨
    z1Field w ≠ 0 ∨ (opcField w = 1 ∧ layoutField w ≠ 0) ∨ (opcField w = 2 ∧ tierField w ≠ 0) ∨
      ((opcField w = 1 ∨ opcField w = 3) ∧ ¬ (tierField w).toNat < c.nt)
  rcases opcode_cases (opcField w) with ⟨hres, h1, h2, h3⟩ | hopc | hopc | hopc
  · refine iff_of_true ?_ (.inl hres)
    rintro ⟨-, -, ⟨h, -⟩ | ⟨h, -⟩ | ⟨h, -⟩⟩
    exacts [h1 h, h2 h, h3 h]
  all_goals
    simp [hopc]
    tauto

/-- Settles O6: the mask pins every field of `CONV.<L>` but `TIER`, which the constraint bounds. -/
theorem conversionWordsByMaskAndMatch : Obligations.ConversionWordsByMaskAndMatch := by
  intro c w o t l hfits
  have hmatch : (match l with | .rgb => 0x03 | .rgba => 0x13 | .bgr => 0x23 | .bgra => 0x33 : Word) =
      commandWord 3 l.field 0 := by cases l <;> decide
  simp only [decode_eq_conv_iff, hfits, and_true]
  rw [← kernelRef_eq]
  refine ⟨?_, Iff.rfl⟩
  calc (∃ t', w = kernelRef l t' ∧ t'.toNat < c.nt)
      ↔ w = commandWord 3 l.field (tierField w) ∧ (tierField w).toNat < c.nt := by
        refine ⟨?_, fun h => ⟨_, h⟩⟩
        rintro ⟨t', hw, ht⟩
        obtain ⟨-, -, rfl, -⟩ := (eq_commandWord_iff w 3 l.field t').1 hw
        exact ⟨hw, ht⟩
    _ ↔ _ := by
        rw [← and_tierMask_eq_iff, ← hmatch]
        rfl

/-- Settles O7: the words of the rows `INIT`, `LOOKUP` and `CONV` (`decode_eq_init_iff` and its companions), with tier 1 below
two tiers and tier 2 not. -/
theorem sampleWordsOfEachCommandDecode : Obligations.SampleWordsOfEachCommandDecode :=
  ⟨(decode_eq_init_iff _ _ 1).2 (by decide), (decode_eq_lookup_iff _ _ .bgra).2 (by decide),
    (decode_eq_conv_iff _ _ .rgb 1 _).2 (by decide), (decode_eq_conv_iff _ _ .rgba 0 _).2 (by decide),
    (decode_eq_conv_iff _ _ .bgr 1 _).2 (by decide), (decode_eq_conv_iff _ _ .bgra 1 _).2 (by decide), by decide⟩

end Sys2Proof
end

section
/-! PROOFS. Invariants, the means: a predicate kept by each part of an event is kept by every step; changes of one port in the
list; what a port in flight is. -/

namespace Sys2Proof.Machine

/-! ### A step part by part -/

/-- The parts of which every event but reset is made keep `P`: acceptance, the body of a command, its completion, a byte of an
engine, an access of the host. -/
structure KeptByParts (P : State → Prop) : Prop where
  present : ∀ {s : State} {p : Nat} {q : Port}, s.ports[p]? = some q → P s → P { s with cur := p }
  accept : ∀ {s : State} {q : Port} {i : Instr}, s.ports[s.cur]? = some q → q.cond = .idle → q.cidx < q.prog.length →
    i.wellFormed s.cfg = true → stopOf i s = none → P s → P (s.accept i)
  body : ∀ {s : State} {q : Port} {i : Instr}, s.ports[s.cur]? = some q → q.cond = .busy i [] → P s → P (body i s)
  completes : ∀ {s t : State} {q : Port} {i : Instr} {w : List Nat}, s.ports[s.cur]? = some q → q.cond = .busy i w →
    completes i s = .next t → P s → P t
  store : ∀ {s : State} {p k : Nat} {q : Port} {i : Instr} {w : List Nat} {l : Layout}, s.ports[p]? = some q →
    q.cond = .busy i w → i.layout = some l → k < q.a.n.toNat * l.step → P s → P (stored s p k q i w l)
  hostWrite : ∀ {s : State} (a : Nat) (v : Byte), mapped s.cfg.map a = true → P s → P { s with mem := s.mem.write a v }
  hostRead : ∀ {s : State} (cs : List Host.Cell), P s → P { s with seen := cs }

/-- Between acceptance and completion of a big step its port is in flight. -/
theorem body_accept_get {s : State} {q : Port} (i : Instr) (hq : s.ports[s.cur]? = some q) :
    (body i (s.accept i)).ports[(body i (s.accept i)).cur]? = some (q.accept i) := by
  obtain ⟨-, -, hports, -, hcur⟩ := body_fields i (s.accept i)
  rw [hports, hcur]
  simp [hq]

/-- A big step is acceptance, body and completion (R230), so it keeps what they keep. -/
theorem KeptByParts.exec {P : State → Prop} (hP : KeptByParts P) {i : Instr} {s t : State}
    (hidx : ∀ q, s.ports[s.cur]? = some q → q.cidx < q.prog.length) (hs : P s) (h : exec i s = .next t) : P t := by
  rcases exec_next h with rfl | ⟨q, hq, hidle, hwf, hstop, hcomp⟩
  · exact hs
  have hbody := hP.body (q := q.accept i) (by simp [hq]) rfl (hP.accept hq hidle (hidx q hq) hwf hstop hs)
  exact hP.completes (body_accept_get i hq) rfl hcomp hbody

/-- Every event but reset keeps what its parts keep. -/
theorem KeptByParts.did {P : State → Prop} (hP : KeptByParts P) {s t : State} (hs : P s) (h : Did s t) : P t := by
  cases h with
  | wait => exact hs
  | ran p q k i t hp hc hk hd h =>
    refine hP.exec (fun q' hq' => ?_) (hP.present hp hs) h
    cases hp.symm.trans hq'
    exact State.cidx_lt_of_offered hk
  | accepted p q k i t hp hc hk hd h =>
    have hcur := hP.present hp hs
    rcases acceptOnly_next h with rfl | ⟨q', hq', hidle, hwf, hstop, rfl⟩
    · exact hcur
    · cases hp.symm.trans hq'
      exact hP.accept (s := { s with cur := p }) hp hidle (State.cidx_lt_of_offered hk) hwf hstop hcur
  | wrote p k q i w l hp hc hl hk hw => exact hP.store hp hc hl hk hs
  | completed p q i w t hp hc hf h => exact hP.completes (s := { s with cur := p }) hp hc h (hP.present hp hs)
  | hostWrote a v hm hw hr => exact hP.hostWrite a v hm hs
  | hostRead a hm hw => exact hP.hostRead _ hs

/-- A step keeps what the parts of its events keep, if reset does and the schedule is no part of it. -/
theorem KeptByParts.step {P : State → Prop} (hP : KeptByParts P) (hsched : ∀ {s : State} (es : List Event), P s →
    P { s with sched := es }) (hreset : ∀ {s : State}, P s → P s.atReset) {s t : State} (hs : P s)
    (h : step s = .next t) : P t := by
  obtain ⟨-, hdid | ⟨-, rfl⟩⟩ := step_next h
  · exact hP.did (hsched _ hs) hdid
  · exact hreset (hsched _ hs)

/-! ### Changing one port of the list -/

/-- What holds of every port, and of the changed one, holds of every port after the change. -/
theorem forall_mem_modify {P : Port → Prop} {xs : List Port} {p : Nat} {f : Port → Port} (h : ∀ q ∈ xs, P q)
    (hf : ∀ q, xs[p]? = some q → P q → P (f q)) : ∀ q ∈ xs.modify p f, P q := by
  intro q hq
  obtain ⟨j, hj⟩ := List.mem_iff_getElem?.1 hq
  rw [List.getElem?_modify] at hj
  split at hj
  · next hpj =>
    subst hpj
    obtain ⟨r, hr, rfl⟩ := Option.map_eq_some_iff.1 hj
    exact hf r hr (h r (List.mem_of_getElem? hr))
  · rw [id_map'] at hj
    exact h q (List.mem_of_getElem? hj)

/-- What holds of every two ports, in either order, and of the changed one with every other, holds after the change. -/
theorem pairwise_modify {R : Port → Port → Prop} (hsymm : ∀ q q', R q q' → R q' q) {xs : List Port} {p : Nat}
    {f : Port → Port} (h : xs.Pairwise R)
    (hf : ∀ q q', xs[p]? = some q → q' ∈ xs → R q q' → R (f q) q') : (xs.modify p f).Pairwise R := by
  rw [List.pairwise_iff_getElem] at h ⊢
  intro i j hi hj hij
  rw [List.length_modify] at hi hj
  have hR := h i j hi hj hij
  simp only [List.getElem_modify]
  split_ifs with hpi hpj hpj
  · omega
  · subst hpi
    exact hf _ _ (List.getElem?_eq_getElem hi) (List.getElem_mem hj) hR
  · subst hpj
    exact hsymm _ _ (hf _ _ (List.getElem?_eq_getElem hj) (List.getElem_mem hi) (hsymm _ _ hR))
  · exact hR

/-! ### Commands in flight -/

theorem Port.flight_of_idle {q : Port} (h : q.cond = .idle) : q.flight = none := by
  simp [Port.flight, h]

/-- A `BUSY` port has its latches in flight when its command is a conversion (R24, R33). -/
theorem Port.flight_of_busy {q : Port} {i : Instr} {w : List Nat} (h : q.cond = .busy i w) :
    q.flight = i.layout.map fun l => (l, q.a) := by
  simp [Port.flight, h]

theorem Port.flight_accept (i : Instr) (q : Port) :
    (q.accept i).flight = i.layout.map fun l => (l, i.opnd.getD q.a) :=
  Port.flight_of_busy (w := []) rfl

/-- No `INIT` is in flight exactly when each port has none. -/
theorem State.initBusy_eq_false_iff (s : State) :
    s.initBusy = false ↔ ∀ q ∈ s.ports, q.cond.cmd.any Instr.isInit = false := by
  simp only [State.initBusy, List.any_eq_false, Bool.not_eq_true]

theorem State.lookupBusy_eq_false_iff (s : State) :
    s.lookupBusy = false ↔ ∀ q ∈ s.ports, q.cond.cmd.any Instr.isLookup = false := by
  simp only [State.lookupBusy, List.any_eq_false, Bool.not_eq_true]

/-- P4 of R143: compatible with each conversion in flight. -/
theorem raceFree_iff (s : State) (l : Layout) (o : Opnd) :
    raceFree s l o = true ↔ ∀ q ∈ s.ports, ∀ f, q.flight = some f → compatible l o f.1 f.2 = true := by
  simp only [raceFree, List.all_eq_true, Option.all_eq_true]

/-! ### The promise of a command in flight, command by command -/

section flightOk
variable {c : Config} {r : Registry} {q : Port} {w : List Nat}

theorem flightOk_of_idle (h : q.cond = .idle) : FlightOk c r q := by
  simp [FlightOk, h]

theorem flightOk_init_iff {t : Byte} (h : q.cond = .busy (.init t) w) :
    FlightOk c r q ↔ (Instr.init t).wellFormed c = true ∧ capable c t = true ∧ w = [] := by
  unfold FlightOk
  rw [h]
  rfl

theorem flightOk_lookup_iff {l : Layout} (h : q.cond = .busy (.lookup l) w) :
    FlightOk c r q ↔ (r.get l).v = true ∧ w = [] := by
  unfold FlightOk
  rw [h]
  exact and_iff_right rfl

theorem flightOk_conv_iff {i : Instr} {l : Layout} (h : q.cond = .busy i w) (hl : i.layout = some l) :
    FlightOk c r q ↔ i.wellFormed c = true ∧ i.opnd = some q.a ∧ noWrap c.aw l q.a = true ∧
      allMapped c.map l q.a = true ∧ selfDisjoint l q.a = true ∧ w.Pairwise (· < ·) ∧
      ∀ k ∈ w, k < q.a.n.toNat * l.step := by
  obtain ⟨t, o, rfl⟩ := eq_conv_of_layout hl
  unfold FlightOk
  rw [h]
  cases l <;> rfl

/-- A registry in which no slot was emptied serves the same `LOOKUP`s. -/
theorem FlightOk.mono {r' : Registry} (hr : ∀ l, (r.get l).v = true → (r'.get l).v = true) (h : FlightOk c r q) :
    FlightOk c r' q := by
  cases hc : q.cond with
  | idle => exact flightOk_of_idle hc
  | busy i w =>
    obtain ⟨t, rfl⟩ | ⟨l, rfl⟩ | ⟨l, t, o, rfl⟩ := i.init_lookup_or_conv
    · exact (flightOk_init_iff hc).2 ((flightOk_init_iff hc).1 h)
    · obtain ⟨hv, hw⟩ := (flightOk_lookup_iff hc).1 h
      exact (flightOk_lookup_iff hc).2 ⟨hr l hv, hw⟩
    · have hl := layout_conv l t o
      exact (flightOk_conv_iff hc hl).2 ((flightOk_conv_iff hc hl).1 h)

end flightOk

/-! ### Memory by its reads -/

theorem Memory.read_of_mem {m : Memory} (h : m.wf) {c : Host.Cell} (hc : c ∈ m) : m.read c.1 = c.2 := by
  induction m with
  | nil => cases hc
  | cons d rest ih =>
    rcases List.mem_cons.1 hc with rfl | hc
    · simp [Memory.read]
    · have hne : c.1 ≠ d.1 := (Memory.wf_head_lt h c hc).ne'
      simpa [Memory.read, hne] using ih (Memory.wf_tail h) hc

theorem Memory.mem_of_read {m : Memory} {a : Nat} (h : m.read a ≠ Memory.unlisted) : (a, m.read a) ∈ m := by
  induction m with
  | nil => exact absurd rfl h
  | cons c rest ih =>
    obtain ⟨b, v⟩ := c
    by_cases hab : a = b
    · subst hab
      simp [Memory.read]
    · rw [Memory.read, if_neg hab] at h ⊢
      exact List.mem_cons_of_mem _ (ih h)

/-- Canonical memory holds only bytes of `MAP` exactly when every other address reads as unlisted. -/
theorem memOk_iff (s : State) :
    MemOk s ↔ s.mem.wf ∧ ∀ a, mapped s.cfg.map a = false → s.mem.read a = Memory.unlisted := by
  refine and_congr_right fun hwf => ⟨fun h a ha => ?_, fun h c hc => ?_⟩
  · by_contra hread
    have hin := h _ (Memory.mem_of_read hread)
    exact Bool.eq_false_iff.1 ha hin
  · by_contra hm
    have hread := h c.1 (Bool.eq_false_iff.2 hm)
    rw [Memory.read_of_mem hwf hc] at hread
    exact hwf.2 c hc hread

end Sys2Proof.Machine
end

section
/-! PROOFS. Invariants: canonical memory, the uniform registry (R23), the races (R67, R68), and the invariant of the machine. -/

namespace Sys2Proof.Machine

/-! ### Memory and the registry -/

theorem wf_kept : KeptByParts fun s => s.mem.wf where
  present _ h := h
  accept _ _ _ _ _ h := h
  body _ _ h := wf_body _ h
  completes _ _ hcomp h := by
    obtain ⟨-, hmem, -⟩ := completes_fields hcomp
    rwa [hmem]
  store _ _ _ _ h := Memory.wf_write _ _ h
  hostWrite a v _ h := Memory.wf_write a v h
  hostRead _ h := h

/-- Settles O54: only bytes are written, and a write keeps the canonical form (`Memory.wf_write`). -/
theorem everyStepKeepsMemoryCanonical : Obligations.EveryStepKeepsMemoryCanonical :=
  fun _ _ hs h => wf_kept.step (fun _ h => h) (fun h => h) hs h

/-- The slots as four equal ones, from the registry alone. -/
theorem registryUniform_of_sr {s t : State} (h : t.sr = s.sr) (hs : RegistryUniform s) : RegistryUniform t := by
  unfold RegistryUniform
  rwa [h]

theorem registryUniform_of_all {s : State} {x : Slot} (h : s.sr = Registry.all x) : RegistryUniform s := by
  intro l
  rw [h, Registry.get_all]
  exact ⟨rfl, fun _ => rfl⟩

theorem registryUniform_kept : KeptByParts RegistryUniform where
  present _ h := h
  accept _ _ _ _ _ h := h
  body {s _ i} _ _ h := by
    obtain ⟨-, hsr, -⟩ := body_fields i s
    exact registryUniform_of_sr hsr h
  completes _ _ hcomp h := by
    obtain ⟨-, -, -, -, -, hsr | ⟨r, -, hsr⟩, -⟩ := completes_fields hcomp
    · exact registryUniform_of_sr hsr h
    · exact registryUniform_of_all hsr
  store _ _ _ _ h := h
  hostWrite _ _ _ h := h
  hostRead _ h := h

theorem registryUniform_atReset (s : State) : RegistryUniform s.atReset :=
  registryUniform_of_all (x := Slot.empty) rfl

/-- Settles O55: the registry is written by `INIT`, all four slots at once, and by reset. -/
theorem slotsNeverDiffer : Obligations.SlotsNeverDiffer :=
  fun _ _ hs h => registryUniform_kept.step (fun _ h => h) (fun _ => registryUniform_atReset _) hs h

/-! ### Races (R67, R68) -/

theorem MayOverlap.symm {q q' : Port} (h : MayOverlap q q') : MayOverlap q' q := by
  obtain ⟨hconv, hinit, hlookup⟩ := h
  refine ⟨fun f f' hf hf' => ?_, fun h' => ⟨?_, ?_⟩, fun h' => ?_⟩
  · rw [compatible_comm]
    exact hconv f' f hf' hf
  · refine Bool.eq_false_iff.2 fun h => ?_
    obtain ⟨hno, -⟩ := hinit h
    exact Bool.eq_false_iff.1 hno h'
  · exact Bool.eq_false_iff.2 fun h => Bool.eq_false_iff.1 (hlookup h) h'
  · refine Bool.eq_false_iff.2 fun h => ?_
    obtain ⟨-, hno⟩ := hinit h
    exact Bool.eq_false_iff.1 hno h'

theorem mayOverlap_of_idle {q : Port} (h : q.cond = .idle) (q' : Port) : MayOverlap q q' := by
  simp [MayOverlap, Port.flight_of_idle h, h]

/-- Which commands may be in flight together is seen from the commands and the latches (R31, R24). -/
theorem MayOverlap.of_same_flight {q r q' : Port} (hf : r.flight = q.flight) (hc : r.cond.cmd = q.cond.cmd)
    (h : MayOverlap q q') : MayOverlap r q' := by
  unfold MayOverlap
  rwa [hf, hc]

/-- What no class stops may be in flight with every command in flight: U2, U3 and U7 are the rest (R193, R194, R198). -/
theorem mayOverlap_accept {s : State} {i : Instr} (hstop : stopOf i s = none) (q : Port) {q' : Port}
    (hq' : q' ∈ s.ports) : MayOverlap (q.accept i) q' := by
  obtain ⟨t, rfl⟩ | ⟨l, rfl⟩ | ⟨l, t, o, rfl⟩ := i.init_lookup_or_conv
  · obtain ⟨-, -, hinit, hlookup⟩ := (initStop_eq_none t s).1 hstop
    rw [State.initBusy_eq_false_iff] at hinit
    rw [State.lookupBusy_eq_false_iff] at hlookup
    exact ⟨by simp [Port.flight_accept, Instr.layout], fun _ => ⟨hinit q' hq', hlookup q' hq'⟩,
      by simp [Instr.isLookup]⟩
  · obtain ⟨-, hinit⟩ := (lookupStop_eq_none l s).1 hstop
    rw [State.initBusy_eq_false_iff] at hinit
    exact ⟨by simp [Port.flight_accept, Instr.layout], by simp [Instr.isInit], fun _ => hinit q' hq'⟩
  · rw [stopOf_conv] at hstop
    obtain ⟨-, -, -, -, hrace⟩ := (convStop_eq_none l t o s).1 hstop
    rw [raceFree_iff] at hrace
    refine ⟨fun f f' hf hf' => ?_, by simp, by simp⟩
    rw [Port.flight_accept, layout_conv, opnd_conv] at hf
    cases hf
    exact hrace q' hq' f' hf'

theorem raceFreeFlights_kept : KeptByParts RaceFreeFlights where
  present _ h := h
  accept _ _ _ _ hstop h :=
    pairwise_modify (fun _ _ => MayOverlap.symm) h fun q _ _ hq' _ => mayOverlap_accept hstop q hq'
  body {s _ i} _ _ h := by
    obtain ⟨-, -, hports, -⟩ := body_fields i s
    unfold RaceFreeFlights
    rwa [hports]
  completes _ _ hcomp h := by
    obtain ⟨-, -, -, -, -, -, f, v, hports, -, hf⟩ := completes_fields hcomp
    unfold RaceFreeFlights
    rw [hports]
    refine pairwise_modify (fun _ _ => MayOverlap.symm) h fun q q' _ _ _ => ?_
    obtain ⟨hidle, -⟩ := hf q
    exact mayOverlap_of_idle hidle q'
  store {s p _ q i w l} hp hc hl _ h := by
    refine pairwise_modify (fun _ _ => MayOverlap.symm) h fun q' r hq' _ hover => ?_
    cases hp.symm.trans hq'
    refine hover.of_same_flight ?_ ?_
    · rw [Port.flight_of_busy rfl, Port.flight_of_busy hc]
    · rw [hc]
      rfl
  hostWrite _ _ _ h := h
  hostRead _ h := h

theorem raceFreeFlights_of_idle {s : State} (h : ∀ q ∈ s.ports, q.cond = .idle) : RaceFreeFlights s :=
  List.pairwise_of_forall_mem_list fun q hq q' _ => mayOverlap_of_idle (h q hq) q'

theorem atReset_idle (s : State) : ∀ q ∈ s.atReset.ports, q.cond = .idle := by simp

/-- Settles O56: what no class stops may overlap with all that is in flight (`mayOverlap_accept`), and nothing else brings a
command into flight. -/
theorem flightsStayRaceFree : Obligations.FlightsStayRaceFree :=
  fun _ _ hs h => raceFreeFlights_kept.step (fun _ h => h) (fun _ => raceFreeFlights_of_idle (atReset_idle _)) hs h

/-! ### The invariant, part by part -/

/-- A port accepts into its contract: the promise of a command just accepted (R91, R143). -/
theorem flightOk_accept {s : State} {i : Instr} (hwf : i.wellFormed s.cfg = true) (hstop : stopOf i s = none) (q : Port) :
    FlightOk s.cfg s.sr (q.accept i) := by
  obtain ⟨t, rfl⟩ | ⟨l, rfl⟩ | ⟨l, t, o, rfl⟩ := i.init_lookup_or_conv
  · obtain ⟨hcap, -⟩ := (initStop_eq_none t s).1 hstop
    exact (flightOk_init_iff rfl).2 ⟨hwf, hcap, rfl⟩
  · obtain ⟨hv, -⟩ := (lookupStop_eq_none l s).1 hstop
    exact (flightOk_lookup_iff rfl).2 ⟨hv, rfl⟩
  · rw [stopOf_conv] at hstop
    obtain ⟨hwrap, -, hmap, hself, -⟩ := (convStop_eq_none l t o s).1 hstop
    refine (flightOk_conv_iff rfl (layout_conv l t o)).2 ?_
    simp only [Port.accept_a, opnd_conv, Option.getD_some]
    exact ⟨hwf, trivial, hwrap, hmap, hself, List.Pairwise.nil, by simp⟩

/-- The latches of a port that accepts a well-formed command have the width of R24. -/
theorem fits_accept {c : Config} {i : Instr} {q : Port} (hwf : i.wellFormed c = true) (h : q.a.fits c.aw = true) :
    (q.accept i).a.fits c.aw = true := by
  obtain ⟨t, rfl⟩ | ⟨l, rfl⟩ | ⟨l, t, o, rfl⟩ := i.init_lookup_or_conv
  · exact h
  · exact h
  · rw [wellFormed_conv, Bool.and_eq_true] at hwf
    obtain ⟨-, hfits⟩ := hwf
    simpa using hfits

/-- `USED` after an acceptance: an `INIT` comes before use (U11), a `LOOKUP` finds its slot populated (U1) and no `INIT`
(U3), a conversion has no part in it. -/
theorem usePhase_accept {s : State} {i : Instr} (huni : RegistryUniform s) (hphase : UsePhase s)
    (hstop : stopOf i s = none) : UsePhase (s.accept i) := by
  intro hused
  rw [State.accept_used, Bool.or_eq_true] at hused
  rw [State.initBusy_eq_false_iff]
  have hbusy (hb : s.initBusy = false) (hi : i.isInit = false) :
      ∀ q ∈ (s.accept i).ports, q.cond.cmd.any Instr.isInit = false :=
    forall_mem_modify ((State.initBusy_eq_false_iff s).1 hb) fun q _ _ => by simp [hi]
  obtain ⟨t, rfl⟩ | ⟨l, rfl⟩ | ⟨l, t, o, rfl⟩ := i.init_lookup_or_conv
  · obtain ⟨-, hunused, -⟩ := (initStop_eq_none t s).1 hstop
    simp [hunused, Instr.isLookup] at hused
  · obtain ⟨hv, hb⟩ := (lookupStop_eq_none l s).1 hstop
    obtain ⟨hsame, -⟩ := huni l
    exact ⟨hsame.symm.trans hv, hbusy hb rfl⟩
  · obtain ⟨hv, hb⟩ := hphase (by simpa using hused)
    exact ⟨hv, hbusy hb (isInit_conv l t o)⟩

theorem inv_accept {s : State} {q : Port} {i : Instr} (hq : s.ports[s.cur]? = some q) (hidle : q.cond = .idle)
    (hidx : q.cidx < q.prog.length) (hwf : i.wellFormed s.cfg = true) (hstop : stopOf i s = none) (h : Inv s) :
    Inv (s.accept i) where
  mem := h.mem
  uniform := h.uniform
  legal := h.legal
  phase := usePhase_accept h.uniform h.phase hstop
  ports := by
    obtain ⟨hlen, hcur, hall⟩ := h.ports
    refine ⟨by simpa using hlen, by simpa using hcur, forall_mem_modify hall fun q' hq' hok => ?_⟩
    cases hq.symm.trans hq'
    obtain ⟨hfits, -, hone⟩ := hok
    refine ⟨fits_accept hwf hfits, hidx, ?_⟩
    simp [Port.oneResponseEach, hidle] at hone ⊢
    omega
  flights := forall_mem_modify h.flights fun q' _ _ => flightOk_accept hwf hstop q'
  races := raceFreeFlights_kept.accept hq hidle hidx hwf hstop h.races

/-- The row of a conversion in flight writes in `MAP` only (P2 of R143). -/
theorem memOk_body {s : State} {q : Port} {i : Instr} (hq : s.ports[s.cur]? = some q) (hc : q.cond = .busy i [])
    (hf : FlightOk s.cfg s.sr q) (h : MemOk s) : MemOk (body i s) := by
  unfold body
  split
  · exact h
  next l hl =>
  rw [State.runRow_eq l s q hq]
  obtain ⟨-, -, -, hmap, -⟩ := (flightOk_conv_iff hc hl).1 hf
  rw [memOk_iff] at h ⊢
  obtain ⟨hwf, hread⟩ := h
  refine ⟨wf_row _ _ _ _ hwf, fun a ha => ?_⟩
  have hout : ¬ (q.a.writes l).has a = true := fun hw =>
    Bool.eq_false_iff.1 ha (mapped_of_allMapped hmap (.inr hw))
  rw [Opnd.writes_has_iff] at hout
  exact (read_row_outside _ l q.a _ hwf a (by omega)).trans (hread a ha)

theorem inv_body {s : State} {q : Port} {i : Instr} (hq : s.ports[s.cur]? = some q) (hc : q.cond = .busy i [])
    (h : Inv s) : Inv (body i s) := by
  obtain ⟨hcfg, hsr, hports, hused, hcur⟩ := body_fields i s
  have hmem := memOk_body hq hc (h.flights q (List.mem_of_getElem? hq)) h.mem
  obtain ⟨-, huni, hlegal, hphase, hpok, hflights, hraces⟩ := h
  refine ⟨hmem, registryUniform_of_sr hsr huni, ?_, ?_, ?_, ?_, ?_⟩
  · unfold RegistryLegal
    rwa [hcfg, hsr]
  · unfold UsePhase State.initBusy
    rwa [hused, hsr, hports]
  · unfold PortsOk
    rwa [hcfg, hcur, hports]
  · unfold FlightsOk
    rwa [hcfg, hsr, hports]
  · unfold RaceFreeFlights
    rwa [hports]

/-- What the completion of a command leaves in the slots: what they held, or the reference of an `INIT` in flight, of a legal
tier and never over a used registry (R172, R208). -/
theorem registry_completes {s t : State} {q : Port} {i : Instr} {w : List Nat} (hq : s.ports[s.cur]? = some q)
    (hc : q.cond = .busy i w) (hcomp : completes i s = .next t) (h : Inv s) :
    t.sr = s.sr ∨ ∃ r : Byte, t.sr = Registry.all (Slot.kref r) ∧ r.toNat < s.cfg.nt ∧ capable s.cfg r = true := by
  obtain ⟨-, -, -, -, -, hsr | ⟨r, rfl, hsr⟩, -⟩ := completes_fields hcomp
  · exact .inl hsr
  · obtain ⟨hwf, hcap, -⟩ := (flightOk_init_iff hc).1 (h.flights q (List.mem_of_getElem? hq))
    exact .inr ⟨r, hsr, of_decide_eq_true hwf, hcap⟩

theorem inv_completes {s t : State} {q : Port} {i : Instr} {w : List Nat} (hq : s.ports[s.cur]? = some q)
    (hc : q.cond = .busy i w) (hcomp : completes i s = .next t) (h : Inv s) : Inv t := by
  have hregistry := registry_completes hq hc hcomp h
  have huni := registryUniform_kept.completes hq hc hcomp h.uniform
  have hraces := raceFreeFlights_kept.completes hq hc hcomp h.races
  obtain ⟨hcfg, hmem, hused, hcur, -, -, f, v, hports, -, hf⟩ := completes_fields hcomp
  refine ⟨?_, huni, ?_, ?_, ?_, ?_, hraces⟩
  · have hm := h.mem
    unfold MemOk at hm ⊢
    rwa [hmem, hcfg]
  · unfold RegistryLegal
    rw [hcfg]
    rcases hregistry with hsr | ⟨r, hsr, htier, hcap⟩
    · rw [hsr]
      exact h.legal
    · rw [hsr]
      exact fun _ => ⟨htier, hcap⟩
  · intro hu
    obtain ⟨hv, hb⟩ := h.phase (hused ▸ hu)
    rw [State.initBusy_eq_false_iff] at hb ⊢
    refine ⟨?_, ?_⟩
    · rcases hregistry with hsr | ⟨r, hsr, -⟩
      · rw [hsr, hv]
      · rw [hsr]
        rfl
    · rw [hports]
      refine forall_mem_modify hb fun q' _ _ => ?_
      obtain ⟨hidle, -⟩ := hf q'
      rw [hidle]
      rfl
  · obtain ⟨hlen, hlt, hall⟩ := h.ports
    unfold PortsOk
    rw [hcfg, hcur, hports, List.length_modify]
    refine ⟨hlen, hlt, forall_mem_modify hall fun q' hq' hok => ?_⟩
    cases hq.symm.trans hq'
    obtain ⟨hidle, hprog, hcidx, hrsps, hbefore, ha⟩ := hf q
    obtain ⟨hfits, hle, hone⟩ := hok
    refine ⟨?_, by rwa [hcidx, hprog], ?_⟩
    · rcases ha with ha | ⟨k, ha⟩
      · rwa [ha]
      · rw [ha]
        exact fits_freeLatches _ k
    · simp [Port.oneResponseEach, hc, hidle, hcidx, hrsps, hbefore] at hone ⊢
      omega
  · have hslots : ∀ l, (s.sr.get l).v = true → (t.sr.get l).v = true := by
      rcases hregistry with hsr | ⟨r, hsr, -⟩
      · rw [hsr]
        exact fun _ hv => hv
      · rw [hsr]
        exact fun l _ => by rw [Registry.get_all]; rfl
    unfold FlightsOk
    rw [hcfg, hports]
    refine forall_mem_modify (fun q' hq' => (h.flights q' hq').mono hslots) fun q' _ _ => ?_
    obtain ⟨hidle, -⟩ := hf q'
    exact flightOk_of_idle hidle

/-- The engine's byte is in its write set, and so in `MAP` (P2 of R143). -/
theorem memOk_write {s : State} {a : Nat} (v : Byte) (ha : mapped s.cfg.map a = true) (h : MemOk s) :
    MemOk { s with mem := s.mem.write a v } := by
  rw [memOk_iff] at h ⊢
  obtain ⟨hwf, hread⟩ := h
  refine ⟨Memory.wf_write a v hwf, fun b hb => ?_⟩
  have hne : b ≠ a := fun e => by
    rw [e, ha] at hb
    cases hb
  exact (Memory.read_write_other _ v hne).trans (hread b hb)

theorem inv_store {s : State} {p k : Nat} {q : Port} {i : Instr} {w : List Nat} {l : Layout} (hp : s.ports[p]? = some q)
    (hc : q.cond = .busy i w) (hl : i.layout = some l) (hk : k < q.a.n.toNat * l.step) (h : Inv s) :
    Inv (stored s p k q i w l) := by
  obtain ⟨hwf, hopnd, hwrap, hmap, hself, hsorted, hbound⟩ :=
    (flightOk_conv_iff hc hl).1 (h.flights q (List.mem_of_getElem? hp))
  refine ⟨?_, h.uniform, h.legal, ?_, ?_, ?_, raceFreeFlights_kept.store hp hc hl hk h.races⟩
  · have hin : (q.a.writes l).has (q.a.d.toNat + k) = true := (Opnd.writes_has_iff _ _ _).2 (by omega)
    exact memOk_write _ (mapped_of_allMapped hmap (.inr hin)) h.mem
  · intro hused
    obtain ⟨hv, hb⟩ := h.phase hused
    rw [State.initBusy_eq_false_iff] at hb ⊢
    refine ⟨hv, forall_mem_modify hb fun q' hq' hno => ?_⟩
    cases hp.symm.trans hq'
    rwa [hc] at hno
  · obtain ⟨hlen, hcur, hall⟩ := h.ports
    refine ⟨(List.length_modify ..).trans hlen, hcur.trans_eq (List.length_modify ..).symm,
      forall_mem_modify hall fun q' hq' hok => ?_⟩
    cases hp.symm.trans hq'
    obtain ⟨hfits, hle, hone⟩ := hok
    refine ⟨hfits, hle, ?_⟩
    unfold Port.oneResponseEach at hone ⊢
    rwa [hc] at hone
  · refine forall_mem_modify h.flights fun q' hq' _ => ?_
    cases hp.symm.trans hq'
    refine (flightOk_conv_iff rfl hl).2 ⟨hwf, hopnd, hwrap, hmap, hself, pairwise_insertOffset k hsorted, fun j hj => ?_⟩
    rcases (mem_insertOffset k j w).1 hj with rfl | hj
    · exact hk
    · exact hbound j hj

theorem inv_kept : KeptByParts Inv where
  present hp h := by
    obtain ⟨hmem, huni, hlegal, hphase, ⟨hlen, -, hall⟩, hflights, hraces⟩ := h
    exact ⟨hmem, huni, hlegal, hphase, ⟨hlen, (List.getElem?_eq_some_iff.1 hp).1, hall⟩, hflights, hraces⟩
  accept := inv_accept
  body := inv_body
  completes := inv_completes
  store := inv_store
  hostWrite a v ha h := ⟨memOk_write v ha h.mem, h.uniform, h.legal, h.phase, h.ports, h.flights, h.races⟩
  hostRead _ h := ⟨h.mem, h.uniform, h.legal, h.phase, h.ports, h.flights, h.races⟩

theorem inv_sched {s : State} (es : List Event) (h : Inv s) : Inv { s with sched := es } :=
  ⟨h.mem, h.uniform, h.legal, h.phase, h.ports, h.flights, h.races⟩

theorem fits_latchesAtReset (aw : Nat) : latchesAtReset.fits aw = true := by
  simp [Opnd.fits, latchesAtReset]

theorem inv_atReset {s : State} (h : Inv s) : Inv s.atReset where
  mem := h.mem
  uniform := registryUniform_atReset s
  legal := by simp [RegistryLegal, Registry.empty, Slot.empty]
  phase := by simp [UsePhase]
  ports := by
    obtain ⟨hlen, hcur, -⟩ := h.ports
    refine ⟨by simpa using hlen, by simpa using Nat.zero_lt_of_lt hcur, fun q hq => ?_⟩
    obtain ⟨r, -, rfl⟩ := List.mem_map.1 hq
    exact ⟨fits_latchesAtReset _, Nat.zero_le _, by simp [Port.oneResponseEach]⟩
  flights q hq := flightOk_of_idle (atReset_idle s q hq)
  races := raceFreeFlights_of_idle (atReset_idle s)

/-- Settles O52: each part of an event keeps the invariant (`inv_accept`, `inv_body`, `inv_completes`, `inv_store`), and so
does reset. -/
theorem everyStepKeepsTheMachineInvariant : Obligations.EveryStepKeepsTheMachineInvariant :=
  fun _ _ hs h => inv_kept.step inv_sched inv_atReset hs h

/-- Settles O53: at reset nothing is in memory, in the slots or in flight. -/
theorem machineInvariantHoldsAtReset : Obligations.MachineInvariantHoldsAtReset := by
  intro c hnp
  have hports : ∀ q ∈ (State.resetOf c).ports, q = Port.reset := fun q hq => List.eq_of_mem_replicate hq
  have hidle : ∀ q ∈ (State.resetOf c).ports, q.cond = .idle := fun q hq => by
    rw [hports q hq]
    rfl
  exact
    { mem := ⟨Memory.wf_nil, by simp [State.resetOf]⟩
      uniform := registryUniform_of_all (x := Slot.empty) rfl
      legal := by simp [RegistryLegal, State.resetOf, Registry.empty, Slot.empty]
      phase := by simp [UsePhase, State.resetOf]
      ports := ⟨List.length_replicate, hnp.trans_eq List.length_replicate.symm, fun q hq => by
        rw [hports q hq]
        exact ⟨fits_latchesAtReset _, Nat.le_refl _, rfl⟩⟩
      flights := fun q hq => flightOk_of_idle (hidle q hq)
      races := raceFreeFlights_of_idle hidle }

/-- Settles O50: every port of the state after reset is `Port.reset`. -/
theorem resetLeavesEmptyAndIdle : Obligations.ResetLeavesEmptyAndIdle := by
  intro c
  refine ⟨fun l => by cases l <;> rfl, fun q hq => ?_, List.length_replicate, rfl, rfl⟩
  rw [List.eq_of_mem_replicate hq]
  exact ⟨rfl, rfl⟩

end Sys2Proof.Machine
end

section
/-! PROOFS. The datapath family: the corners bound every sample (R113), the 32-bit datapath is exact (R122), mid-grey (R127). -/

namespace Sys2Proof

/-! ### The overflow check (R113) -/

/-- An expression of R113 as what it is: affine in the three samples. -/
structure Affine where
  y : Int
  u : Int
  v : Int
  const : Int

def Affine.eval (f : Affine) (y u v : Int) : Int := f.y * y + (f.u * u + (f.v * v + f.const))

/-- The expressions of R113, in the order of `Coef.expressions`. -/
def Coef.affine (c : Coef) : List Affine :=
  [⟨0, 0, 0, c.tCon1⟩, ⟨0, 0, 0, c.tCon2⟩, ⟨0, 0, 0, c.tCon3⟩, ⟨0, 0, 0, c.tCon4⟩, ⟨0, 0, 0, c.tCon5⟩,
   ⟨0, 0, 0, c.tCon6⟩, ⟨0, 0, 0, c.tCon7⟩, ⟨0, 0, 0, c.tCon8⟩,
   ⟨0, 0, c.tCon1, 0⟩, ⟨0, 0, c.tCon2, 0⟩, ⟨0, c.tCon3, 0, 0⟩, ⟨0, c.tCon4, 0, 0⟩, ⟨c.tCon5, 0, 0, 0⟩,
   ⟨0, 0, c.tCon2, -c.tCon7⟩, ⟨0, 0, c.tCon1, c.tCon6⟩, ⟨0, c.tCon3, -c.tCon2, c.tCon7⟩, ⟨0, c.tCon4, 0, c.tCon8⟩,
   ⟨c.tCon5, 0, c.tCon1, c.tCon6⟩, ⟨c.tCon5, -c.tCon3, c.tCon2, -c.tCon7⟩, ⟨c.tCon5, c.tCon4, 0, c.tCon8⟩]

theorem Coef.expressions_eq_affine (c : Coef) (y u v : Int) :
    c.expressions y u v = c.affine.map fun f => f.eval y u v := by
  simp only [Coef.expressions, Coef.rBias, Coef.gBias, Coef.bBias, Coef.yScaled, Coef.affine, Affine.eval, List.map_cons,
    List.map_nil, zero_mul, zero_add, add_zero, neg_mul, List.cons.injEq, and_true, true_and]
  refine ⟨?_, ?_, ?_⟩ <;> ring

theorem inAcc_iff (x : Int) : inAcc x = true ↔ -(2 ^ 31) ≤ x ∧ x ≤ 2 ^ 31 - 1 := by
  rw [inAcc, Bool.and_eq_true, decide_eq_true_iff, decide_eq_true_iff]
  exact and_congr_right fun _ => Int.le_sub_one_iff.symm

/-- An affine function of one sample that fits at 0 and at 255 fits between them. -/
theorem inAcc_of_ends {a b x : Int} (h0 : inAcc (a * 0 + b) = true) (h255 : inAcc (a * 255 + b) = true)
    (hx : 0 ≤ x ∧ x ≤ 255) : inAcc (a * x + b) = true := by
  rw [inAcc_iff] at *
  obtain ⟨hlo, hhi⟩ := hx
  rcases le_total 0 a with ha | ha
  · have hup := mul_le_mul_of_nonneg_left hhi ha
    have hdown := mul_nonneg ha hlo
    omega
  · have hup := mul_le_mul_of_nonpos_left hhi ha
    have hdown := mul_nonpos_of_nonpos_of_nonneg ha hlo
    omega

/-- An affine function that fits at the eight corners fits at every triple of samples, one sample after another. -/
theorem Affine.inAcc_of_corners {f : Affine} (h : ∀ k ∈ corners, inAcc (f.eval k.1 k.2.1 k.2.2) = true) {y u v : Int}
    (hy : 0 ≤ y ∧ y ≤ 255) (hu : 0 ≤ u ∧ u ≤ 255) (hv : 0 ≤ v ∧ v ≤ 255) : inAcc (f.eval y u v) = true := by
  have hv' : ∀ y' ∈ [(0 : Int), 255], ∀ u' ∈ [(0 : Int), 255], inAcc (f.eval y' u' v) = true := by
    intro y' hy' u' hu'
    have hline (v' : Int) (hv' : v' ∈ [(0 : Int), 255]) : inAcc (f.v * v' + (f.y * y' + f.u * u' + f.const)) = true := by
      have hcorner : (y', u', v') ∈ corners := by
        simp at hy' hu' hv'
        rcases hy' with rfl | rfl <;> rcases hu' with rfl | rfl <;> rcases hv' with rfl | rfl <;> decide
      rw [show f.v * v' + (f.y * y' + f.u * u' + f.const) = f.eval y' u' v' by unfold Affine.eval; ring]
      exact h _ hcorner
    rw [show f.eval y' u' v = f.v * v + (f.y * y' + f.u * u' + f.const) by unfold Affine.eval; ring]
    exact inAcc_of_ends (hline 0 (by simp)) (hline 255 (by simp)) hv
  have hu' : ∀ y' ∈ [(0 : Int), 255], inAcc (f.eval y' u v) = true := by
    intro y' hy'
    have hline (u' : Int) (hu' : u' ∈ [(0 : Int), 255]) : inAcc (f.u * u' + (f.y * y' + f.v * v + f.const)) = true := by
      rw [show f.u * u' + (f.y * y' + f.v * v + f.const) = f.eval y' u' v by unfold Affine.eval; ring]
      exact hv' y' hy' u' hu'
    rw [show f.eval y' u v = f.u * u + (f.y * y' + f.v * v + f.const) by unfold Affine.eval; ring]
    exact inAcc_of_ends (hline 0 (by simp)) (hline 255 (by simp)) hu
  exact inAcc_of_ends (hu' 0 (by simp)) (hu' 255 (by simp)) hy

theorem byte_range (x : Byte) : 0 ≤ (x.toNat : Int) ∧ (x.toNat : Int) ≤ 255 := by
  have := x.isLt
  omega

/-- The corners bound every sample. -/
theorem inAcc_of_noOverflow {c : Coef} (h : c.noOverflow = true) (y u v : Byte) :
    ∀ x ∈ c.expressions y.toNat u.toNat v.toNat, inAcc x = true := by
  simp only [Coef.noOverflow, Coef.expressions_eq_affine, List.all_eq_true, List.forall_mem_map] at h ⊢
  exact fun f hf => Affine.inAcc_of_corners (fun k hk => h k hk f hf) (byte_range y) (byte_range u) (byte_range v)

/-- Settles O47: each expression is affine in the samples (`Coef.expressions_eq_affine`), so its extremes are at corners. -/
theorem cornersBoundEverySample : Obligations.CornersBoundEverySample :=
  fun _ h y u v x hx => (inAcc_iff x).1 (inAcc_of_noOverflow h y u v x hx)

/-! ### The 32-bit datapath (R122) -/

theorem setWidth_eq_acc (x : Byte) : x.setWidth 32 = acc (zext x) := by
  apply BitVec.eq_of_toNat_eq
  simp [acc, zext]

/-- The accumulators add, subtract and multiply as the integers do, modulo `2^32`. -/
theorem acc_add (x y : Int) : acc x + acc y = acc (x + y) := (BitVec.ofInt_add x y).symm
theorem acc_mul (x y : Int) : acc x * acc y = acc (x * y) := (BitVec.ofInt_mul x y).symm
theorem acc_sub (x y : Int) : acc x - acc y = acc (x - y) := by
  rw [sub_eq_add_neg x y, BitVec.sub_eq_add_neg]
  simp only [acc, BitVec.ofInt_add, BitVec.ofInt_neg]

/-- A value that fits is what the accumulator holds. -/
theorem toInt_acc {x : Int} (h : inAcc x = true) : (acc x).toInt = x := by
  rw [inAcc_iff] at h
  rw [acc, BitVec.toInt_ofInt]
  exact Int.bmod_eq_of_le (by norm_num; omega) (by norm_num; omega)

/-- Where the accumulator fits, the bit-level saturating shift gives the byte of the integer one (R120). -/
theorem satshiftBits_acc {x : Int} (h : inAcc x = true) : satshiftBits (acc x) = BitVec.ofInt 8 (satshift x) := by
  rw [satshiftBits_eq_ofInt_satshift, toInt_acc h]

/-- Settles O48: the datapath computes each accumulator of R119 modulo `2^32` (`acc_add` and its companions), and the overflow
check makes that the accumulator itself. -/
theorem thirtyTwoBitDatapathIsExact : Obligations.ThirtyTwoBitDatapathIsExact := by
  intro c h y u v
  have hfit := inAcc_of_noOverflow h y u v
  have hr : inAcc (c.rAcc (zext y) (zext v)) = true := hfit _ (by simp [Coef.expressions, Coef.rAcc, zext])
  have hg : inAcc (c.gAcc (zext y) (zext u) (zext v)) = true := hfit _ (by simp [Coef.expressions, Coef.gAcc, zext])
  have hb : inAcc (c.bAcc (zext y) (zext u)) = true := hfit _ (by simp [Coef.expressions, Coef.bAcc, zext])
  simp only [Coef.pixBits, setWidth_eq_acc, acc_add, acc_mul, acc_sub]
  rw [Coef.pix, ← satshiftBits_acc hr, ← satshiftBits_acc hg, ← satshiftBits_acc hb]
  rfl

/-- Settles O49: red is the saturating shift that `MIDGREY` names (`pix_toNat`), and the check makes the other two equal it. -/
theorem midGreyIsNeutral : Obligations.MidGreyIsNeutral := by
  intro c h
  rw [Coef.admissible, Bool.and_eq_true, Coef.midgreyNeutral, Bool.and_eq_true] at h
  obtain ⟨-, hrg, hgb⟩ := h
  have hrg : (c.pix 128 128 128).r = (c.pix 128 128 128).g := of_decide_eq_true hrg
  have hgb : (c.pix 128 128 128).g = (c.pix 128 128 128).b := of_decide_eq_true hgb
  have hr : ((c.pix 128 128 128).r.toNat : Int) = c.midgrey := by
    obtain ⟨hr, -⟩ := pix_toNat c 128 128 128
    have hsample : zext 128 = 128 := rfl
    rw [hr, Coef.midgrey, Coef.rAcc, Coef.yScaled, Coef.rBias, hsample]
    congr 1
    ring
  exact ⟨hr, hrg ▸ hr, hgb ▸ hrg ▸ hr⟩

end Sys2Proof
end

section
/-! PROOFS. Undefined behaviour: U2 and U3 (R193, R194), U10 (R202), U7 of conversions and of the host (R198), U12 (R203), and
the programs that are refused whatever the schedule (R232). -/

namespace Sys2Proof.Machine

/-! ### Classes of one command -/

theorem initStop_of_incapable {t : Byte} {s : State} (hused : s.used = false) (hcap : capable s.cfg t = false) :
    initStop t s = some (.fault (.noCapability t)) := by
  simp [initStop, firstStop, hused, hcap]

theorem initStop_of_initBusy {t : Byte} {s : State} (hused : s.used = false) (hcap : capable s.cfg t = true)
    (hinit : s.initBusy = true) : initStop t s = some (.fault .concurrentInit) := by
  simp [initStop, firstStop, hused, hcap, hinit]

theorem initStop_of_lookupBusy {t : Byte} {s : State} (hused : s.used = false) (hcap : capable s.cfg t = true)
    (hinit : s.initBusy = false) (hlookup : s.lookupBusy = true) : initStop t s = some (.fault .initWithLookup) := by
  simp [initStop, firstStop, hused, hcap, hinit, hlookup]

theorem lookupStop_of_initBusy {l : Layout} {s : State} (hv : (s.sr.get l).v = true) (hinit : s.initBusy = true) :
    lookupStop l s = some (.fault .initWithLookup) := by
  simp [lookupStop, firstStop, hv, hinit]

theorem convStop_of_incapable {l : Layout} {t : Byte} {o : Opnd} {s : State} (hwrap : noWrap s.cfg.aw l o = true)
    (hcap : capable s.cfg t = false) : convStop l t o s = some (.fault (.noCapability t)) := by
  simp [convStop, firstStop, hwrap, hcap]

theorem convStop_of_race {l : Layout} {t : Byte} {o : Opnd} {s : State} (hwrap : noWrap s.cfg.aw l o = true)
    (hcap : capable s.cfg t = true) (hmap : allMapped s.cfg.map l o = true) (hself : selfDisjoint l o = true)
    (h : raceFree s l o = false) : convStop l t o s = some (.fault .race) := by
  simp [convStop, firstStop, hwrap, hcap, hmap, hself, h]

/-- Settles O37: U2 and U3 are the first classes that apply, in the order of R205. -/
theorem concurrentRegistrationFaults : Obligations.ConcurrentRegistrationFaults := by
  refine fun s q hready => ⟨fun t htier hcap hused => ?_, fun l hv hinit => ?_⟩
  · have hwf : (Instr.init t).wellFormed s.cfg = true := decide_eq_true htier
    exact ⟨fun hinit => exec_stops hready hwf (initStop_of_initBusy hused hcap hinit),
      fun hinit hlookup => exec_stops hready hwf (initStop_of_lookupBusy hused hcap hinit hlookup)⟩
  · exact exec_stops (i := .lookup l) hready rfl (lookupStop_of_initBusy hv hinit)

/-- Settles O39: U10 is the first class that applies, in the order of R205. -/
theorem incapableTierFaults : Obligations.IncapableTierFaults := by
  refine fun s q t hready htier hcap => ⟨fun hused => ?_, fun l o hfits hwrap => ?_⟩
  · exact exec_stops (i := .init t) hready (decide_eq_true htier) (initStop_of_incapable hused hcap)
  · exact exec_conv_stops hready htier hfits (convStop_of_incapable hwrap hcap)

/-- Compatible conversions share no address that either writes (R67). -/
theorem compatible_iff (l : Layout) (o : Opnd) (l' : Layout) (o' : Opnd) :
    compatible l o l' o' = true ↔ ∀ a,
      ((o.writes l).has a = true → ¬ (o'.writes l').has a = true ∧ ¬ ∃ r ∈ o'.reads, r.has a = true) ∧
        ((o'.writes l').has a = true → ¬ ∃ r ∈ o.reads, r.has a = true) := by
  simp only [compatible, Bool.and_eq_true, List.all_eq_true, Span.disjoint_iff]
  constructor
  · rintro ⟨⟨hww, hwr⟩, hrw⟩ a
    exact ⟨fun hw => ⟨fun hw' => hww a ⟨hw, hw'⟩, fun ⟨r, hr, hra⟩ => hwr r hr a ⟨hw, hra⟩⟩,
      fun hw' ⟨r, hr, hra⟩ => hrw r hr a ⟨hw', hra⟩⟩
  · intro h
    refine ⟨⟨fun a ⟨hw, hw'⟩ => ?_, fun r hr a ⟨hw, hra⟩ => ?_⟩, fun r hr a ⟨hw', hra⟩ => ?_⟩
    · obtain ⟨hno, -⟩ := (h a).1 hw
      exact hno hw'
    · obtain ⟨-, hno⟩ := (h a).1 hw
      exact hno ⟨r, hr, hra⟩
    · exact (h a).2 hw' ⟨r, hr, hra⟩

/-- Settles O43: the address `a` contradicts the compatibility that P4 asks of the conversion in flight (`compatible_iff`). -/
theorem racingConversionFaults : Obligations.RacingConversionFaults := by
  intro s q q' l l' t o i w a hready htier hfits hwrap hcap hmap hself hq' hbusy hlay hshare
  refine exec_conv_stops hready htier hfits (convStop_of_race hwrap hcap hmap hself (Bool.eq_false_iff.2 fun hfree => ?_))
  have hflight : q'.flight = some (l', q'.a) := by rw [Port.flight_of_busy hbusy, hlay]; rfl
  have hcompat := (raceFree_iff s l o).1 hfree q' hq' _ hflight
  obtain ⟨hwrites, hreads⟩ := (compatible_iff l o l' q'.a).1 hcompat a
  rcases hshare with ⟨hw, hw' | hr'⟩ | ⟨hw', hr⟩
  · exact (hwrites hw).1 hw'
  · exact (hwrites hw).2 hr'
  · exact hreads hw' hr

/-! ### The host's accesses (R198) -/

/-- A port has a conversion in flight exactly when it is `BUSY` with one (R33). -/
theorem Port.flight_eq_some_iff (q : Port) (l : Layout) (o : Opnd) :
    q.flight = some (l, o) ↔ o = q.a ∧ ∃ i w, q.cond = .busy i w ∧ i.layout = some l := by
  cases hc : q.cond with
  | idle => simp [Port.flight_of_idle hc]
  | busy i w =>
    rw [Port.flight_of_busy hc]
    cases hl : i.layout <;> simp [hl, eq_comm, and_comm]

/-- A test of the conversions in flight, as a statement about the `BUSY` ports. -/
theorem any_flight_iff (ps : List Port) (g : Layout × Opnd → Bool) :
    (ps.any fun q => q.flight.any g) = true ↔
      ∃ q i w l, q ∈ ps ∧ q.cond = .busy i w ∧ i.layout = some l ∧ g (l, q.a) = true := by
  simp only [List.any_eq_true, Option.any_eq_true]
  constructor
  · rintro ⟨q, hq, ⟨l, o⟩, hf, hg⟩
    obtain ⟨rfl, i, w, hc, hl⟩ := (Port.flight_eq_some_iff q l o).1 hf
    exact ⟨q, i, w, l, hq, hc, hl, hg⟩
  · rintro ⟨q, i, w, l, hq, hc, hl, hg⟩
    exact ⟨q, hq, (l, q.a), (Port.flight_eq_some_iff q l q.a).2 ⟨rfl, i, w, hc, hl⟩, hg⟩

theorem State.writing_iff (s : State) (a : Nat) :
    s.writing a = true ↔ ∃ q i w l, q ∈ s.ports ∧ q.cond = .busy i w ∧ i.layout = some l ∧
      q.a.d.toNat ≤ a ∧ a < q.a.d.toNat + q.a.n.toNat * l.step := by
  simp only [State.writing, any_flight_iff, Opnd.writes_has_iff]

theorem State.reading_iff (s : State) (a : Nat) :
    s.reading a = true ↔ ∃ q i w l, q ∈ s.ports ∧ q.cond = .busy i w ∧ i.layout = some l ∧
      ((q.a.y.toNat ≤ a ∧ a < q.a.y.toNat + q.a.n.toNat) ∨
        (q.a.u.toNat ≤ a ∧ a < q.a.u.toNat + (q.a.n.toNat + 1) / 2) ∨
        (q.a.v.toNat ≤ a ∧ a < q.a.v.toNat + (q.a.n.toNat + 1) / 2)) := by
  rw [State.reading, any_flight_iff]
  simp only [List.any_eq_true, Opnd.reads_has_iff]

section host
variable {s : State} {a : Nat} (hm : mapped s.cfg.map a = true)
include hm

theorem hostWrites_of_race (v : Byte) (h : s.writing a = true ∨ s.reading a = true) : hostWrites a v s = .fault .race := by
  simp [hostWrites, hm, h]

theorem hostWrites_of_free (v : Byte) (hw : ¬ s.writing a = true) (hr : ¬ s.reading a = true) :
    hostWrites a v s = .next { s with mem := s.mem.write a v } := by
  simp [hostWrites, hm, hw, hr]

theorem hostReads_of_race (h : s.writing a = true) : hostReads a s = .fault .race := by
  simp [hostReads, hm, h]

theorem hostReads_of_free (h : ¬ s.writing a = true) :
    hostReads a s = .next { s with seen := s.seen ++ [(a, s.mem.read a)] } := by
  simp [hostReads, hm, h]

end host

/-- Settles O44: `State.writing_iff` and `State.reading_iff` spell out what the host's accesses are checked for. -/
theorem hostAccessesRaceOrGoAhead : Obligations.HostAccessesRaceOrGoAhead := by
  intro s a v rest hg hm writes reads
  have hw : s.writing a = true ↔ writes := s.writing_iff a
  have hr : s.reading a = true ↔ reads := s.reading_iff a
  clear_value writes reads
  rw [← hw, ← hr]
  refine ⟨fun hs => ?_, fun hs => ?_⟩
  · rw [step_event hg hs]
    exact ⟨hostWrites_of_race (s := { s with sched := rest }) hm v, hostWrites_of_free (s := { s with sched := rest }) hm v⟩
  · rw [step_event hg hs]
    exact ⟨hostReads_of_race (s := { s with sched := rest }) hm, hostReads_of_free (s := { s with sched := rest }) hm⟩

/-! ### Programs and configurations without meaning (R203, R232) -/

theorem step_of_refusal {s : State} {r : Refusal} (h : programRefusal s = some r) : step s = .refused r := by
  simp [step, move, h]

/-- A program that runs is in an admissible configuration (R203). -/
theorem admissible_of_programRefusal {s : State} (h : programRefusal s = none) : s.cfg.admissible = true := by
  unfold programRefusal at h
  split at h
  · cases h
  · next ha => simpa using ha

/-- Settles O11: an inadmissible configuration is the first thing that is looked for. -/
theorem inadmissibleConfigurationIsRefused : Obligations.InadmissibleConfigurationIsRefused :=
  fun s h => step_of_refusal (by simp [programRefusal, h])

/-- The host's lists hold a reserved word exactly when some command of theirs is rejected. -/
theorem firstReject_eq_none_iff (c : Config) (ks : List Command) :
    firstReject c ks = none ↔ ∀ k ∈ ks, ∃ i, decode c k = .ok i := by
  induction ks with
  | nil => simp [firstReject]
  | cons k rest ih =>
    rw [firstReject, List.forall_mem_cons, ← ih]
    cases decode c k <;> simp

/-- No `INIT` stands after a `LOOKUP`, and if one has been seen before, none stands in the list at all. -/
theorem lateInitIn_eq_false_iff (looked : Bool) (is : List Instr) :
    lateInitIn looked is = false ↔ (looked = true → ∀ i ∈ is, i.isInit = false) ∧
      is.Pairwise fun i j => i.isLookup = true → j.isInit = false := by
  induction is generalizing looked with
  | nil => simp [lateInitIn]
  | cons i rest ih =>
    rw [lateInitIn, Bool.or_eq_false_iff, ih, List.pairwise_cons, List.forall_mem_cons]
    cases looked <;> cases i.isLookup <;> simp <;> tauto

theorem isLookup_eq_true_iff (i : Instr) : i.isLookup = true ↔ ∃ l, i = .lookup l := by
  cases i <;> simp [Instr.isLookup]

theorem isInit_eq_true_iff (i : Instr) : i.isInit = true ↔ ∃ t, i = .init t := by
  cases i <;> simp [Instr.isInit]

theorem toOption_decode_iff {c : Config} {k : Command} {i : Instr} :
    (decode c k).toOption = some i ↔ decode c k = .ok i := by
  cases decode c k <;> simp [Except.toOption]

/-- R201 in the terms of the list's commands: an `INIT` stands after a `LOOKUP`. -/
theorem lateInitIn_instrs_iff (s : State) (q : Port) :
    lateInitIn false (s.instrs q) = true ↔
      ∃ (j j' : Nat) (k k' : Command) (l : Layout) (t : Byte), j < j' ∧
        (s.shapes q)[j]? = some k ∧ decode s.cfg k = .ok (.lookup l) ∧
        (s.shapes q)[j']? = some k' ∧ decode s.cfg k' = .ok (.init t) := by
  rw [← not_iff_not, Bool.not_eq_true, lateInitIn_eq_false_iff, State.instrs, List.pairwise_filterMap,
    List.pairwise_iff_getElem]
  constructor
  · rintro ⟨-, hpair⟩ ⟨j, j', k, k', l, t, hlt, hk, hd, hk', hd'⟩
    obtain ⟨hj, rfl⟩ := List.getElem?_eq_some_iff.1 hk
    obtain ⟨hj', rfl⟩ := List.getElem?_eq_some_iff.1 hk'
    have hno := hpair j j' hj hj' hlt _ (toOption_decode_iff.2 hd) _ (toOption_decode_iff.2 hd') rfl
    cases hno
  · intro hnone
    refine ⟨fun h => (by cases h), fun j j' hj hj' hlt i hi i' hi' hlookup => Bool.eq_false_iff.2 fun hinit => hnone ?_⟩
    obtain ⟨l, rfl⟩ := (isLookup_eq_true_iff i).1 hlookup
    obtain ⟨t, rfl⟩ := (isInit_eq_true_iff i').1 hinit
    exact ⟨j, j', _, _, l, t, hlt, List.getElem?_eq_getElem hj, toOption_decode_iff.1 hi, List.getElem?_eq_getElem hj',
      toOption_decode_iff.1 hi'⟩

theorem instrWraps_conv (c : Config) (l : Layout) (t : Byte) (o : Opnd) :
    instrWraps c (Instr.conv l t o) = !noWrap c.aw l o := by
  simp [instrWraps]

/-- Settles O10: the tests of `programRefusal` in their order, each in the terms of the lists' commands. -/
theorem programsWithoutMeaningAreRefused : Obligations.ProgramsWithoutMeaningAreRefused := by
  intro s q hadm hq late
  refine ⟨fun k e hk hd => ?_, fun hall => ⟨fun hnp hlate => ?_, fun hnolate k l t o hk hd hwrap => ?_⟩⟩
  · have hsome : firstReject s.cfg (s.ports.flatMap s.shapes) ≠ none := fun hnone => by
      obtain ⟨i, hi⟩ := (firstReject_eq_none_iff _ _).1 hnone k (List.mem_flatMap.2 ⟨q, hq, hk⟩)
      rw [hd] at hi
      cases hi
    obtain ⟨e', he'⟩ := Option.ne_none_iff_exists'.1 hsome
    exact ⟨e', step_of_refusal (by simp [programRefusal, hadm, he'])⟩
  all_goals
    have hnone : firstReject s.cfg (s.ports.flatMap s.shapes) = none :=
      (firstReject_eq_none_iff _ _).2 fun k hk => by
        obtain ⟨q', hq', hk'⟩ := List.mem_flatMap.1 hk
        exact hall q' hq' k hk'
    apply step_of_refusal
    simp only [programRefusal, hadm, hnone]
  · have hany : (s.ports.any fun q' => lateInitIn false (s.instrs q')) = true :=
      List.any_eq_true.2 ⟨q, hq, (lateInitIn_instrs_iff s q).2 hlate⟩
    simp [hnp, hany]
  · have hno : (decide (s.cfg.np = 1) && s.ports.any fun q' => lateInitIn false (s.instrs q')) = false := by
      refine Bool.eq_false_iff.2 fun h => ?_
      obtain ⟨hnp, hany⟩ := Bool.and_eq_true_iff.1 h
      obtain ⟨q', hq', hlate⟩ := List.any_eq_true.1 hany
      rcases hnolate with hne | hnolate
      · exact hne (of_decide_eq_true hnp)
      · exact hnolate q' hq' ((lateInitIn_instrs_iff s q').1 hlate)
    have hin : Instr.conv l t o ∈ s.instrs q := List.mem_filterMap.2 ⟨k, hk, toOption_decode_iff.2 hd⟩
    have hany : (s.ports.any fun q' => (s.instrs q').any (instrWraps s.cfg)) = true :=
      List.any_eq_true.2 ⟨q, hq, List.any_eq_true.2 ⟨_, hin, by rw [instrWraps_conv, hwrap]; rfl⟩⟩
    simp [hno, hany]

end Sys2Proof.Machine
end

section
/-! PROOFS. One step: the scheduled command, the default order (log 9), waiting (R91, R98), acceptance, reset (R220), and what
changes the registry and `USED` (R170, R32). -/

namespace Sys2Proof.Machine

/-! ### Taking up a command -/

/-- Settles O8: the step of a scheduled run presents the port's command (`present_offered`). -/
theorem stepRunsTheDecodedCommand : Obligations.StepRunsTheDecodedCommand := by
  intro s p rest q k i hg hs hp hc hk hd
  rw [step_event hg hs]
  exact present_offered (s := { s with sched := rest }) hp hc hk hd

/-- Settles O12: of any command, what `exec` does first is offer it (`exec_eq`). -/
theorem busyPortAcceptsNothing : Obligations.BusyPortAcceptsNothing := by
  intro s q j w i hadm hq hc
  rw [exec_eq]
  exact offer_waits hadm hq hc

/-- Settles O13: nothing stops the command, so the next state is `State.accept`. -/
theorem acceptanceLoadsTheLatches : Obligations.AcceptanceLoadsTheLatches := by
  intro s q i hready hwf hstop
  have haccept : acceptOnly i s = .next (s.accept i) := offer_accepts hready hwf hstop
  obtain ⟨-, hq, -⟩ := hready
  refine ⟨s.accept i, haccept, rfl, ?_, fun j hj => ?_, ?_⟩
  · rw [State.accept_ports, List.getElem?_modify_eq, hq]
    cases i <;> rfl
  · exact List.getElem?_modify_ne _ _ hj.symm
  · rw [State.accept_used, Bool.or_eq_true, isLookup_eq_true_iff]

/-! ### The default order -/

/-- The search finds nothing exactly when no port is picked. -/
theorem findPort_eq_none_iff (sel : Port → Bool) (p : Nat) (ps : List Port) :
    findPort sel p ps = none ↔ ∀ q ∈ ps, sel q = false := by
  induction ps generalizing p with
  | nil => simp [findPort]
  | cons q rest ih =>
    rw [findPort, List.forall_mem_cons, ← ih (p + 1)]
    cases sel q <;> simp

/-- The search finds the first port that is picked, under its number. -/
theorem findPort_eq_some_iff (sel : Port → Bool) (p j : Nat) (q : Port) (ps : List Port) :
    findPort sel p ps = some (j, q) ↔
      ∃ i, j = p + i ∧ ps[i]? = some q ∧ sel q = true ∧ ∀ i' < i, ∀ q', ps[i']? = some q' → sel q' = false := by
  induction ps generalizing p with
  | nil => simp [findPort]
  | cons r rest ih =>
    rw [findPort]
    split
    · next hr =>
      constructor
      · rintro ⟨⟩
        exact ⟨0, rfl, rfl, hr, nofun⟩
      · rintro ⟨i, rfl, hi, -, hbefore⟩
        cases i with
        | zero =>
          cases hi
          rfl
        | succ i =>
          have hno := hbefore 0 (Nat.succ_pos i) r rfl
          rw [hr] at hno
          cases hno
    · next hr =>
      rw [ih (p + 1)]
      constructor
      · rintro ⟨i, rfl, hi, hq, hbefore⟩
        refine ⟨i + 1, by omega, hi, hq, fun i' hi' q' hq' => ?_⟩
        cases i' with
        | zero =>
          cases hq'
          simpa using hr
        | succ i' => exact hbefore i' (by omega) q' hq'
      · rintro ⟨i, rfl, hi, hq, hbefore⟩
        cases i with
        | zero =>
          cases hi
          exact absurd hq hr
        | succ i => exact ⟨i, by omega, hi, hq, fun i' hi' q' hq' => hbefore (i' + 1) (by omega) q' hq'⟩

/-- With nothing scheduled a step is what the block does of itself. -/
theorem step_unscheduled {s : State} (hg : programRefusal s = none) (hs : s.sched = []) : step s = idleMove s := by
  simp [step, move, hg, advance, hs]

theorem findPort_busy_of_allIdle {s : State} (h : s.allIdle = true) :
    findPort (fun q => !q.cond.isIdle) 0 s.ports = none :=
  (findPort_eq_none_iff _ _ _).2 fun q hq => by
    have hidle : q.cond.isIdle = true := List.all_eq_true.1 h q hq
    rw [hidle]
    rfl

/-- With nothing in flight, the lowest port on which the host presents a command runs it. -/
theorem idleMove_of_offered {s : State} (h : s.allIdle = true) {p : Nat} {q : Port}
    (hfind : findPort (fun q => (s.offered q).isSome) 0 s.ports = some (p, q)) : idleMove s = perform (.run p) s := by
  simp [idleMove, findPort_busy_of_allIdle h, hfind]

theorem idleMove_of_not_offered {s : State} (h : s.allIdle = true)
    (hfind : findPort (fun q => (s.offered q).isSome) 0 s.ports = none) : idleMove s = .next s := by
  simp [idleMove, findPort_busy_of_allIdle h, hfind]

theorem idle_of_isIdle {x : PortCond} (h : x.isIdle = true) : x = .idle := by
  cases x
  · rfl
  · cases h

/-- Settles O9: the search of `idleMove` finds the lowest port on which a command is presented (`findPort_eq_some_iff`). -/
theorem stepWithoutScheduleTakesTheLowestPort : Obligations.StepWithoutScheduleTakesTheLowestPort := by
  intro s hg hs hidle
  rw [step_unscheduled hg hs]
  refine ⟨fun p q k i hp hlow hk hd => ?_, fun hnone => ?_⟩
  · have hfind : findPort (fun q => (s.offered q).isSome) 0 s.ports = some (p, q) :=
      (findPort_eq_some_iff _ _ _ _ _).2 ⟨p, by omega, hp, by rw [hk]; rfl, fun j hj q' hq' => by
        rw [hlow j hj q' hq']
        rfl⟩
    rw [idleMove_of_offered hidle hfind]
    exact present_offered hp (idle_of_isIdle (List.all_eq_true.1 hidle q (List.mem_of_getElem? hp))) hk hd
  · have hfind : findPort (fun q => (s.offered q).isSome) 0 s.ports = none :=
      (findPort_eq_none_iff _ _ _).2 fun q hq => by
        rw [hnone q hq]
        rfl
    exact idleMove_of_not_offered hidle hfind

/-! ### Waiting (R98) -/

/-- A wait is over exactly when each port it names has completed as many commands as it waits for. -/
theorem waitOver_iff (ps : List Port) (need : List Nat) :
    waitOver ps need = true ↔ ∀ (j n : Nat) (r : Port), need[j]? = some n → ps[j]? = some r → n ≤ r.answered := by
  rw [waitOver, List.all_eq_true]
  constructor
  · intro h j n r hn hr
    exact of_decide_eq_true (h (n, r) (List.mem_of_getElem? (i := j) (List.getElem?_zip_eq_some.2 ⟨hn, hr⟩)))
  · rintro h ⟨n, r⟩ hmem
    obtain ⟨j, hj⟩ := List.mem_iff_getElem?.1 hmem
    obtain ⟨hn, hr⟩ := List.getElem?_zip_eq_some.1 hj
    exact decide_eq_true (h j n r hn hr)

theorem State.offered_of_waiting {s : State} {q : Port} {x : Issue} (hx : q.pending = some x)
    (h : waitOver s.ports x.need = false) : s.offered q = none := by
  simp [State.offered, hx, h]

theorem State.offered_of_waited {s : State} {q : Port} {x : Issue} (hx : q.pending = some x)
    (h : waitOver s.ports x.need = true) :
    s.offered q = (sourceWord s.ports x.src).map fun w => { cw := w, opnd := x.opnd } := by
  simp [State.offered, hx, h]

/-- Where the host presents nothing, a run or an acceptance changes nothing (log 12). -/
theorem present_of_not_offered {go : Instr → State → Out} {p : Nat} {s : State} {q : Port} (hp : s.ports[p]? = some q)
    (hc : q.cond = .idle) (ho : s.offered q = none) : present go p s = .next s := by
  simp [present, hp, hc, ho]

/-- Settles O35: `State.offered` is nothing until the counts are reached (`waitOver_iff`), and then the entry's word. -/
theorem waitHoldsBackLaterCommands : Obligations.WaitHoldsBackLaterCommands := by
  intro s p q x hp hc hx
  refine ⟨fun j n r hn hr hlt => ?_, fun hover => ?_⟩
  · have hwait : waitOver s.ports x.need = false :=
      Bool.eq_false_iff.2 fun h => absurd ((waitOver_iff _ _).1 h j n r hn hr) (by omega)
    have hnone := State.offered_of_waiting hx hwait
    refine ⟨hnone, fun rest hg => ⟨?_, ?_⟩⟩
    · exact (step_event (s := { s with sched := .run p :: rest }) hg rfl).trans
        (present_of_not_offered (s := { s with sched := rest }) hp hc hnone)
    · exact (step_event (s := { s with sched := .accept p :: rest }) hg rfl).trans
        (present_of_not_offered (s := { s with sched := rest }) hp hc hnone)
  · rw [State.offered_of_waited hx ((waitOver_iff _ _).2 hover)]
    refine ⟨fun w hsrc => ?_, fun p' j q' w hsrc hq' hw => ?_⟩
    · rw [hsrc]
      rfl
    · rw [hsrc, sourceWord, hq', Option.bind_some, Port.response, hw]
      rfl

/-! ### Reset, the registry and `USED` -/

/-- Settles O51: the reset event is `State.atReset`. -/
theorem resetEventAbandonsCommands : Obligations.ResetEventAbandonsCommands := by
  intro s rest hg hs
  refine ⟨State.atReset { s with sched := rest }, step_event hg hs, fun l => by cases l <;> rfl, rfl, rfl, rfl,
    List.length_map .., fun j q q' hq hq' => ?_⟩
  rw [State.atReset_ports, List.getElem?_map, hq] at hq'
  cases hq'
  exact ⟨rfl, rfl, rfl, rfl⟩

theorem used_kept : KeptByParts fun s => s.used = true where
  present _ h := h
  accept _ _ _ _ _ h := by simp [h]
  body {s _ i} _ _ h := by
    obtain ⟨-, -, -, hused, -⟩ := body_fields i s
    rwa [hused]
  completes _ _ hcomp h := by
    obtain ⟨-, -, hused, -⟩ := completes_fields hcomp
    rwa [hused]
  store _ _ _ _ h := h
  hostWrite _ _ _ h := h
  hostRead _ h := h

/-- Settles O59: every event but reset keeps a set `USED` (`used_kept`). -/
theorem usedStaysSetUntilReset : Obligations.UsedStaysSetUntilReset := by
  intro s t h hnoreset hused
  obtain ⟨-, hdid | ⟨hreset, -⟩⟩ := step_next h
  · exact used_kept.did (s := { s with sched := s.sched.tail }) hused hdid
  · exact absurd hreset hnoreset

/-- What a completion on port `p` does to the registry: nothing, or it is that of an `INIT`, which fills the slots and sends
its response 0. -/
theorem completes_registry {i : Instr} {s t : State} {q : Port} (hq : s.ports[s.cur]? = some q)
    (h : completes i s = .next t) :
    t.sr = s.sr ∨ ∃ (r : Byte) (q' : Port), i = .init r ∧ (∀ l, t.sr.get l = { v := true, tier := r }) ∧
      t.ports[s.cur]? = some q' ∧ q'.cond = .idle ∧ q'.rsps = q.rsps ++ [0x00000000] := by
  obtain ⟨-, -, -, -, -, hsr | ⟨r, rfl, hsr⟩, f, v, hports, hzero, hf⟩ := completes_fields h
  · exact .inl hsr
  obtain ⟨hidle, -, -, hrsps, -⟩ := hf q
  refine .inr ⟨r, f q, rfl, fun l => by rw [hsr, Registry.get_all]; rfl, ?_, hidle, by rw [hrsps, hzero rfl]⟩
  rw [hports, List.getElem?_modify_eq, hq]
  rfl

/-- The same of a big step. -/
theorem exec_registry {i : Instr} {s t : State} {q : Port} (hq : s.ports[s.cur]? = some q) (h : exec i s = .next t) :
    t.sr = s.sr ∨ ∃ (r : Byte) (q' : Port), i = .init r ∧ (∀ l, t.sr.get l = { v := true, tier := r }) ∧
      t.ports[s.cur]? = some q' ∧ q'.cond = .idle ∧ q'.rsps = q.rsps ++ [0x00000000] := by
  rcases exec_next h with rfl | ⟨q', hq', -, -, -, hcomp⟩
  · exact .inl rfl
  obtain ⟨-, hsr, -, -, hcur⟩ := body_fields i (s.accept i)
  rcases completes_registry (body_accept_get i hq) hcomp with hsame | hfilled
  · exact .inl (hsame.trans hsr)
  · rw [hcur] at hfilled
    exact .inr hfilled

/-- Settles O58: only a completion writes the registry (`completes_registry`), of a command in flight or of one just run. -/
theorem onlyInitWritesTheRegistry : Obligations.OnlyInitWritesTheRegistry := by
  intro s t h hnoreset
  obtain ⟨-, hdid | ⟨hreset, -⟩⟩ := step_next h
  case inr => exact absurd hreset hnoreset
  cases hdid with
  | wait => exact .inl rfl
  | ran p q k i t hp hc hk hd h =>
    rcases exec_registry (s := { s with sched := s.sched.tail, cur := p }) hp h with
      hsame | ⟨r, q', rfl, hall, hq', hidle, hrsps⟩
    · exact .inl hsame
    · exact .inr ⟨r, p, q, q', hall, hp, hq', hidle, hrsps, .inl ⟨hc, k, hk, hd⟩⟩
  | accepted p q k i t hp hc hk hd h =>
    rcases acceptOnly_next h with rfl | ⟨-, -, -, -, -, rfl⟩ <;> exact .inl rfl
  | wrote p k q i w l hp hc hl hk hw => exact .inl rfl
  | completed p q i w t hp hc hf h =>
    rcases completes_registry (s := { s with sched := s.sched.tail, cur := p }) hp h with
      hsame | ⟨r, q', rfl, hall, hq', hidle, hrsps⟩
    · exact .inl hsame
    · exact .inr ⟨r, p, q, q', hall, hp, hq', hidle, hrsps, .inr ⟨w, hc⟩⟩
  | hostWrote a v hm hw hr => exact .inl rfl
  | hostRead a hm hw => exact .inl rfl

end Sys2Proof.Machine
end

section
/-! PROOFS. What a command leaves unchanged: the frames of the registry commands and of the conversions, the read set (R59), and
the order of the byte writes (R65). -/

namespace Sys2Proof.Machine

/-! ### The frames -/

/-- When `exec` answers a next state, the command waited or it was offered on a ready port inside its contract. -/
theorem exec_next_ready {i : Instr} {s t : State} (h : exec i s = .next t) :
    t = s ∨ ∃ q, s.readyPort q ∧ i.wellFormed s.cfg = true ∧ stopOf i s = none := by
  rw [exec_eq] at h
  obtain ⟨q, hq, hadm, ⟨-, -, -, hsame⟩ | ⟨hidle, hwf, hstop, -⟩⟩ := offer_next h
  · exact .inl hsame
  · exact .inr ⟨q, ⟨hadm, hq, hidle⟩, hwf, hstop⟩

theorem exec_init_next {r : Byte} {s t : State} (h : exec (.init r) s = .next t) : t = s ∨ t = s.registered r := by
  rcases exec_next_ready h with hsame | ⟨q, hready, hwf, hstop⟩
  · exact .inl hsame
  · rw [exec_init hready ⟨of_decide_eq_true hwf, (initStop_eq_none r s).1 hstop⟩] at h
    cases h
    exact .inr rfl

theorem exec_lookup_next {l : Layout} {s t : State} (h : exec (.lookup l) s = .next t) :
    t = s ∨ t = { s with
      used := true, ports := s.ports.modify s.cur (Port.answer (kernelRef l (s.sr.get l).tier)) } := by
  rcases exec_next_ready h with hsame | ⟨q, hready, -, hstop⟩
  · exact .inl hsame
  · rw [exec_lookup hready ((lookupStop_eq_none l s).1 hstop)] at h
    cases h
    exact .inr rfl

/-- What a change of one port leaves of the others, and of what the change keeps of that port. -/
theorem modify_frame {P : Port → Port → Prop} {f : Port → Port} (hf : ∀ q, P q (f q)) (xs : List Port) (p : Nat) :
    (xs.modify p f).length = xs.length ∧ (∀ j, j ≠ p → (xs.modify p f)[j]? = xs[j]?) ∧
      ∀ q q', xs[p]? = some q → (xs.modify p f)[p]? = some q' → P q q' := by
  refine ⟨List.length_modify .., fun j hj => List.getElem?_modify_ne _ _ hj.symm, fun q q' hq hq' => ?_⟩
  rw [List.getElem?_modify_eq, hq] at hq'
  cases hq'
  exact hf q

/-- What `INIT` and `LOOKUP` may change: the registry or `USED`, and one port other than in its latches and its list. -/
def RegistryCommandChange (i : Instr) (s t : State) : Prop :=
  ∃ f : Port → Port, t = { s with sr := t.sr, used := t.used, ports := s.ports.modify s.cur f } ∧
    (∀ q, (f q).a = q.a ∧ (f q).prog = q.prog) ∧ ((∃ l, i = .lookup l) → t.sr = s.sr) ∧
    ((∃ r, i = .init r) → t.used = s.used)

theorem RegistryCommandChange.refl (i : Instr) (s : State) : RegistryCommandChange i s s :=
  ⟨id, by rw [List.modify_id], fun _ => ⟨rfl, rfl⟩, fun _ => rfl, fun _ => rfl⟩

theorem registryCommandChange_of_exec {i : Instr} {s t : State} (hi : (∃ r, i = .init r) ∨ ∃ l, i = .lookup l)
    (h : exec i s = .next t) : RegistryCommandChange i s t := by
  rcases hi with ⟨r, rfl⟩ | ⟨l, rfl⟩
  · rcases exec_init_next h with rfl | rfl
    · exact .refl _ t
    · exact ⟨Port.answer 0, rfl, fun _ => ⟨rfl, rfl⟩, nofun, fun _ => rfl⟩
  · rcases exec_lookup_next h with rfl | rfl
    · exact .refl _ t
    · exact ⟨_, rfl, fun _ => ⟨rfl, rfl⟩, fun _ => rfl, nofun⟩

/-- Settles O19: `RegistryCommandChange` names all that changes. -/
theorem registryCommandsFrame : Obligations.RegistryCommandsFrame := by
  intro s t i hi h
  obtain ⟨f, ht, hf, hsr, hused⟩ := registryCommandChange_of_exec hi h
  obtain ⟨hlen, hothers, hown⟩ := modify_frame (P := fun q q' => q'.a = q.a ∧ q'.prog = q.prog) hf s.ports s.cur
  have hports : t.ports = s.ports.modify s.cur f := by rw [ht]
  rw [← hports] at hlen hothers hown
  have hmem : t.mem = s.mem := by rw [ht]
  refine ⟨hmem, fun a => by rw [hmem], ?_, ?_, ?_, ?_, ?_, hlen, hothers, hown, hsr, hused⟩ <;> rw [ht]

theorem offA_lt {l : Layout} {k : Nat} (h : l.offA = some k) : k < l.step := by
  cases l <;> cases h <;> decide

/-- Storing a pixel leaves every byte outside the pixel, in every memory. -/
theorem read_storePixel_outside (l : Layout) (x : Rgb) (p : Nat) (m : Memory) {b : Nat} (hb : b < p ∨ p + l.step ≤ b) :
    (storePixel l x p m).read b = m.read b := by
  have hne : ∀ k < l.step, b ≠ p + k := fun k hk => by omega
  have hcolours : (((m.write (p + l.offR) x.r).write (p + l.offG) x.g).write (p + l.offB) x.b).read b = m.read b := by
    rw [Memory.read_write_other _ _ (hne _ l.offB_lt), Memory.read_write_other _ _ (hne _ l.offG_lt),
      Memory.read_write_other _ _ (hne _ l.offR_lt)]
  unfold storePixel storeOpacity
  split
  · next k hk => rw [Memory.read_write_other _ _ (hne k (offA_lt hk)), hcolours]
  · exact hcolours

/-- A row leaves every byte outside its columns, in every memory: `read_row_outside` without the canonical form. -/
theorem read_row_outside_any (c : Coef) (l : Layout) (o : Opnd) (n : Nat) (m : Memory) {b : Nat}
    (hb : b < o.d.toNat ∨ o.d.toNat + n * l.step ≤ b) : (row c l o n m).read b = m.read b := by
  induction n with
  | zero => rfl
  | succ n ih =>
    rw [Nat.succ_mul] at hb
    exact (read_storePixel_outside l _ _ _ (by omega)).trans (ih (by omega))

/-- A conversion that answers a next state waited, or ran on a ready port inside its contract. -/
theorem exec_conv_next {l : Layout} {r : Byte} {o : Opnd} {s t : State} (h : exec (Instr.conv l r o) s = .next t) :
    t = s ∨ ∃ q, s.readyPort q ∧ convContract l r o s := by
  rcases exec_next_ready h with hsame | ⟨q, hready, hwf, hstop⟩
  · exact .inl hsame
  · exact .inr ⟨q, hready, (convContract_iff l r o s).2 ⟨hwf, stopOf_conv l r o ▸ hstop⟩⟩

/-- Settles O25: a conversion that ran answered the state of `exec_conv_accepted`. -/
theorem conversionsFrame : Obligations.ConversionsFrame := by
  intro s t l r o h
  rcases exec_conv_next h with rfl | ⟨q, hready, hc⟩
  · refine ⟨fun _ _ => rfl, rfl, rfl, rfl, rfl, rfl, rfl, rfl, fun _ _ => rfl, fun q q' hq hq' => ?_⟩
    cases hq.symm.trans hq'
    rfl
  · rw [exec_conv_accepted l s q r o hready hc] at h
    cases h
    obtain ⟨hlen, hothers, hown⟩ := modify_frame (P := fun q q' => q'.prog = q.prog)
      (f := fun p => { p with
        a := freeLatches s.cfg.aw s.fresh, cidx := p.cidx + 1, rsps := p.rsps ++ [0x00000000] })
      (fun _ => rfl) s.ports s.cur
    exact ⟨fun a ha => read_row_outside_any _ l o _ _ ha, rfl, rfl, rfl, rfl, rfl, rfl, hlen, hothers, hown⟩

/-! ### The read set -/

/-- A byte of the row depends on the read set alone (R59). -/
theorem rowByte_congr (c : Coef) {l : Layout} {o : Opnd} {m m' : Memory} {k : Nat} (hk : k < o.n.toNat * l.step)
    (h : ∀ b, (∃ r ∈ o.reads, r.has b = true) → m.read b = m'.read b) : rowByte c l o m k = rowByte c l o m' k := by
  have hcol : k / l.step < o.n.toNat := Nat.div_lt_of_lt_mul (by rwa [Nat.mul_comm])
  simp only [Opnd.reads_has_iff] at h
  rw [rowByte, rowByte]
  generalize k / l.step = i at hcol
  rw [columnPixel_congr c o i (h _ (.inl ?_)) (h _ (.inr (.inl ?_))) (h _ (.inr (.inr ?_)))] <;> omega

/-- Byte `k` of the write set after the whole row. -/
theorem read_row_byte (c : Coef) {l : Layout} {o : Opnd} (hself : selfDisjoint l o = true) {m : Memory} (hwf : m.wf) {k : Nat}
    (hk : k < o.n.toNat * l.step) : (row c l o o.n.toNat m).read (o.d.toNat + k) = rowByte c l o m k := by
  rw [read_row c hself (Nat.le_refl _) hwf, if_pos (by omega), Nat.add_sub_cancel_left]

theorem selfDisjoint_of_convContract {l : Layout} {t : Byte} {o : Opnd} {s : State} (h : convContract l t o s) :
    selfDisjoint l o = true := by
  obtain ⟨-, -, -, -, hself, -⟩ := h
  exact hself

/-- Settles O28: each byte of the write set is the row's byte (`read_row_byte`), a function of the read set
(`rowByte_congr`). -/
theorem onlyTheReadSetMatters : Obligations.OnlyTheReadSetMatters := by
  intro s q l t o m hready hc hwf hwfm hy hu hv
  refine ⟨_, _, exec_conv_accepted l s q t o hready hc, exec_conv_accepted l { s with mem := m } q t o hready hc,
    fun k hk => ?_⟩
  have hself := selfDisjoint_of_convContract hc
  refine (read_row_byte _ hself hwfm hk).trans (.trans ?_ (read_row_byte _ hself hwf hk).symm)
  refine rowByte_congr _ hk fun b hb => ?_
  rcases (Opnd.reads_has_iff o b).1 hb with ⟨hle, hlt⟩ | ⟨hle, hlt⟩ | ⟨hle, hlt⟩ <;>
    obtain ⟨j, rfl⟩ := Nat.exists_eq_add_of_le hle
  · exact hy j (by omega)
  · exact hu j (by omega)
  · exact hv j (by omega)

/-! ### The order of the writes (R65) -/

/-- Writes that are each computed from memory at their time, but never from an address in `S`, where all of them go: the bytes
end as in `M`, whatever the order. -/
theorem foldl_writes {ι : Type} {g : Memory → ι → Memory} {addr : ι → Nat} {S : Nat → Prop} {m₀ M : Memory} {xs : List ι}
    (hS : ∀ x ∈ xs, S (addr x))
    (hg : ∀ x ∈ xs, ∀ m, (∀ b, ¬ S b → m.read b = m₀.read b) → g m x = m.write (addr x) (M.read (addr x)))
    {m : Memory} (hwf : m.wf) (hm : ∀ b, ¬ S b → m.read b = m₀.read b) :
    (xs.foldl g m).wf ∧ ∀ b, (xs.foldl g m).read b = if b ∈ xs.map addr then M.read b else m.read b := by
  induction xs generalizing m with
  | nil => exact ⟨hwf, fun b => by simp⟩
  | cons x rest ih =>
    have hx : S (addr x) := hS x List.mem_cons_self
    have hstep := hg x List.mem_cons_self m hm
    have hm' : ∀ b, ¬ S b → (g m x).read b = m₀.read b := fun b hb => by
      have hne : b ≠ addr x := fun e => hb (e ▸ hx)
      rw [hstep, Memory.read_write_other _ _ hne, hm b hb]
    obtain ⟨hwf', hread⟩ := ih (fun y hy => hS y (List.mem_cons_of_mem _ hy)) (fun y hy => hg y (List.mem_cons_of_mem _ hy))
      (hstep ▸ Memory.wf_write _ _ hwf) hm'
    refine ⟨hwf', fun b => ?_⟩
    rw [List.foldl_cons, hread, hstep, Memory.read_write _ _ _ _ hwf]
    by_cases hb : b = addr x <;> simp [hb]

/-- Where the writes go to every address at which `M` differs, they leave `M`. -/
theorem foldl_writes_eq {ι : Type} {g : Memory → ι → Memory} {addr : ι → Nat} {S : Nat → Prop} {m₀ M : Memory} {xs : List ι}
    (hS : ∀ x ∈ xs, S (addr x))
    (hg : ∀ x ∈ xs, ∀ m, (∀ b, ¬ S b → m.read b = m₀.read b) → g m x = m.write (addr x) (M.read (addr x)))
    (hwf : m₀.wf) (hM : M.wf) (hrest : ∀ b, b ∉ xs.map addr → M.read b = m₀.read b) : xs.foldl g m₀ = M := by
  obtain ⟨hwf', hread⟩ := foldl_writes hS hg hwf fun _ _ => rfl
  refine Memory.ext_read hwf' hM fun b => ?_
  rw [hread]
  split
  · rfl
  · next hb => rw [hrest b hb]

/-- Settles O30: no byte of the row is computed from the write set (P3), so `foldl_writes_eq` applies, and the offsets reach all
of the write set. -/
theorem anyWriteOrderLeavesTheSameMemory : Obligations.AnyWriteOrderLeavesTheSameMemory := by
  intro c l o m ks hself hwf hperm
  have hlt : ∀ k, k ∈ ks ↔ k < o.n.toNat * l.step := fun k => by rw [hperm.mem_iff, List.mem_range]
  refine foldl_writes_eq (S := fun b => (o.writes l).has b = true) (addr := fun k => o.d.toNat + k)
    (fun k hk => ?_) (fun k hk m' hm' => ?_) hwf (wf_row c l o _ hwf) fun b hb => ?_
  · have := (hlt k).1 hk
    exact (Opnd.writes_has_iff o l _).2 (by omega)
  · have hk' := (hlt k).1 hk
    have hsame : rowByte c l o m' k = rowByte c l o m k := rowByte_congr c hk' fun b hb =>
      hm' b fun hw => not_reads_has_of_selfDisjoint hself hw hb
    simp only [read_row_byte c hself hwf hk', hsame]
  · refine read_row_outside c l o _ hwf b ?_
    by_contra hin
    exact hb (List.mem_map.2 ⟨b - o.d.toNat, (hlt _).2 (by omega), by omega⟩)

end Sys2Proof.Machine
end

section
/-! PROOFS. Commands in flight: each byte once (R60), completion after the last byte (R156), and how much work is left (R230). -/

namespace Sys2Proof.Machine

/-! ### The progress of a conversion -/

/-- The offsets below `n`, rising, are no more than `n`. -/
theorem subperm_range {w : List Nat} {n : Nat} (hs : w.Pairwise (· < ·)) (hb : ∀ k ∈ w, k < n) :
    List.Subperm w (List.range n) :=
  List.subperm_of_subset (hs.imp Nat.ne_of_lt) fun k hk => List.mem_range.2 (hb k hk)

/-- As many offsets are written as there are exactly when every one is. -/
theorem length_eq_iff_forall_mem {w : List Nat} {n : Nat} (hs : w.Pairwise (· < ·)) (hb : ∀ k ∈ w, k < n) :
    w.length = n ↔ ∀ k < n, k ∈ w := by
  have hsub := subperm_range hs hb
  constructor
  · intro hlen k hk
    exact (hsub.perm_of_length_le (by simp [hlen])).mem_iff.2 (List.mem_range.2 hk)
  · intro hall
    have hle : (List.range n).length ≤ w.length :=
      (List.subperm_of_subset List.nodup_range fun k hk => hall k (List.mem_range.1 hk)).length_le
    have hge := hsub.length_le
    rw [List.length_range] at hle hge
    omega

/-- A conversion in flight is finished exactly when its write set is written. -/
theorem finished_iff {q : Port} {i : Instr} {w : List Nat} {l : Layout} (hc : q.cond = .busy i w) (hl : i.layout = some l)
    (hs : w.Pairwise (· < ·)) (hb : ∀ k ∈ w, k < q.a.n.toNat * l.step) :
    q.finished = true ↔ ∀ k < q.a.n.toNat * l.step, k ∈ w := by
  rw [← length_eq_iff_forall_mem hs hb]
  simp [Port.finished, hc, hl]

theorem length_insertOffset {k : Nat} {w : List Nat} (h : k ∉ w) : (insertOffset k w).length = w.length + 1 := by
  induction w with
  | nil => rfl
  | cons j rest ih =>
    rw [List.mem_cons, not_or] at h
    obtain ⟨hne, hrest⟩ := h
    rw [insertOffset]
    split
    · rfl
    · rw [List.length_cons, ih hrest, List.length_cons]

/-- Settles O33: the write is `stored`, and `storeByte` asks first whether the byte is there to be written. -/
theorem eachDestinationByteIsWrittenOnce : Obligations.EachDestinationByteIsWrittenOnce := by
  intro s p k q i w l hp hc hl hwf
  refine ⟨fun hk hw => ⟨_, _, storeByte_stored hp hc hl hk hw, rfl, ?_, fun j => mem_insertOffset k j w, fun j hj => ?_,
    fun a => Memory.read_write _ _ _ _ hwf⟩, fun h => ?_⟩
  · exact (List.getElem?_modify_eq ..).trans (by rw [hp]; rfl)
  · exact List.getElem?_modify_ne _ _ hj.symm
  · have hno : (decide (k < q.a.n.toNat * l.step) && !w.contains k) = false := by
      rcases h with hw | hk
      · simp [hw]
      · simp [hk]
    simp only [storeByte, hp, hc, hl, hno]
    rfl

/-! ### Completion -/

theorem completePort_waits {p : Nat} {s : State} {q : Port} (hp : s.ports[p]? = some q) (hf : q.finished = false) :
    completePort p s = .next s := by
  cases hc : q.cond <;> simp [completePort, hp, hc, hf]

/-- The completion event of a finished conversion releases the latches and responds 0 (R156). -/
theorem completePort_conv {p : Nat} {s : State} {q : Port} {i : Instr} {w : List Nat} {l : Layout} (hp : s.ports[p]? = some q)
    (hc : q.cond = .busy i w) (hl : i.layout = some l) (hf : q.finished = true) :
    completePort p s = .next (State.respond (State.releaseLatches { s with cur := p }) 0) := by
  obtain ⟨t, o, rfl⟩ := eq_conv_of_layout hl
  rw [completePort_finished hp hc hf, completes_conv]
  rfl

/-- Settles O34: `finished_iff` says when the completion event is enabled. -/
theorem conversionCompletesAfterItsLastByte : Obligations.ConversionCompletesAfterItsLastByte := by
  intro s p q i w l rest hg hs hp hc hl hflight
  obtain ⟨-, -, -, -, -, hsorted, hbound⟩ := (flightOk_conv_iff hc hl).1 hflight
  have hfin := finished_iff hc hl hsorted hbound
  rw [step_event hg hs]
  refine ⟨fun ⟨k, hk, hw⟩ => ?_, fun hall => ?_⟩
  · have hf : q.finished = false := Bool.eq_false_iff.2 fun hf => hw (hfin.1 hf k hk)
    exact completePort_waits (s := { s with sched := rest }) hp hf
  · refine ⟨_, freeLatches s.cfg.aw s.fresh, completePort_conv (s := { s with sched := rest }) hp hc hl (hfin.2 hall), rfl,
      rfl, rfl, ?_, fun j hj => ?_⟩
    · simp [hp]
    · simp [List.getElem?_modify_ne _ _ hj.symm]

/-! ### The work left (R230) -/

theorem work_of_idle {q : Port} (h : q.cond = .idle) : q.work = 0 := by
  simp [Port.work, h]

theorem work_of_finished {q : Port} {i : Instr} {w : List Nat} (hc : q.cond = .busy i w) (hf : q.finished = true) :
    q.work = 1 := by
  cases hl : i.layout with
  | none => simp [Port.work, hc, hl]
  | some l =>
    have hlen : w.length = q.a.n.toNat * l.step := by simpa [Port.finished, hc, hl] using hf
    simp [Port.work, hc, hl, hlen]

/-- Writing one more byte takes one unit of work. -/
theorem work_of_stored {q : Port} {i : Instr} {w : List Nat} {l : Layout} {k : Nat} (hc : q.cond = .busy i w)
    (hl : i.layout = some l) (hs : w.Pairwise (· < ·)) (hb : ∀ j ∈ w, j < q.a.n.toNat * l.step)
    (hk : k < q.a.n.toNat * l.step) (hw : k ∉ w) :
    Port.work { q with cond := .busy i (insertOffset k w) } + 1 = q.work := by
  have hle : w.length ≤ q.a.n.toNat * l.step := by simpa using (subperm_range hs hb).length_le
  have hne : w.length ≠ q.a.n.toNat * l.step := fun h => hw ((length_eq_iff_forall_mem hs hb).1 h k hk)
  simp only [Port.work, hc, hl, length_insertOffset hw]
  omega

/-- Changing one port changes the sum of the work by that port's. -/
theorem sum_work_modify {ps : List Port} {p : Nat} {q : Port} (f : Port → Port) (hp : ps[p]? = some q) :
    ((ps.modify p f).map Port.work).sum + q.work = (ps.map Port.work).sum + (f q).work := by
  induction ps generalizing p with
  | nil => cases hp
  | cons r rest ih =>
    cases p with
    | zero =>
      cases hp
      simp
      omega
    | succ p =>
      have hrest := ih hp
      simp
      omega

theorem work_of_modify {s t : State} {p : Nat} {q : Port} {f : Port → Port} (hp : s.ports[p]? = some q)
    (hports : t.ports = s.ports.modify p f) (hf : (f q).work + 1 = q.work) : t.work + 1 = s.work := by
  have hsum := sum_work_modify f hp
  rw [State.work, State.work, hports]
  omega

theorem work_of_allIdle {s : State} (h : s.allIdle = true) : s.work = 0 := by
  refine List.sum_eq_zero fun n hn => ?_
  obtain ⟨q, hq, rfl⟩ := List.mem_map.1 hn
  exact work_of_idle (idle_of_isIdle (List.all_eq_true.1 h q hq))

/-! ### The engines of themselves (log 9) -/

/-- The search for an unwritten byte finds one, and finds none only where all are written. -/
theorem nextOffset_eq_some {w : List Nat} {k n j : Nat} (h : nextOffset w k n = some j) : j < k + n ∧ j ∉ w := by
  induction n generalizing k with
  | zero => cases h
  | succ n ih =>
    rw [nextOffset] at h
    split at h
    · obtain ⟨hlt, hw⟩ := ih h
      exact ⟨by omega, hw⟩
    · next hk =>
      cases h
      exact ⟨by omega, by simpa using hk⟩

theorem nextOffset_eq_none {w : List Nat} {k n : Nat} (h : nextOffset w k n = none) : ∀ j, k ≤ j → j < k + n → j ∈ w := by
  induction n generalizing k with
  | zero => omega
  | succ n ih =>
    rw [nextOffset] at h
    split at h
    · next hk =>
      intro j hle hlt
      rcases Nat.eq_or_lt_of_le hle with rfl | hlt'
      · simpa using hk
      · exact ih h j hlt' (by omega)
    · cases h

/-- What the engine of a `BUSY` port does of itself: it writes a byte that is left, or completes when none is (R92). -/
theorem move_of_busy {c : Config} {r : Registry} {q : Port} {i : Instr} {w : List Nat} (p : Nat) (hc : q.cond = .busy i w)
    (hf : FlightOk c r q) :
    (∃ k l, i.layout = some l ∧ k < q.a.n.toNat * l.step ∧ k ∉ w ∧ q.move p = .store p k) ∨
      (q.finished = true ∧ q.move p = .complete p) := by
  cases hl : i.layout with
  | none => exact .inr (by simp [Port.finished, Port.move, hc, hl])
  | some l =>
    obtain ⟨-, -, -, -, -, hsorted, hbound⟩ := (flightOk_conv_iff hc hl).1 hf
    cases hn : nextOffset w 0 (q.a.n.toNat * l.step) with
    | none =>
      have hall := nextOffset_eq_none hn
      exact .inr ⟨(finished_iff hc hl hsorted hbound).2 fun k hk => hall k (Nat.zero_le k) (by omega),
        by simp [Port.move, hc, hl, hn]⟩
    | some k =>
      obtain ⟨hk, hw⟩ := nextOffset_eq_some hn
      exact .inl ⟨k, l, rfl, by omega, hw, by simp [Port.move, hc, hl, hn]⟩

/-- A completion answers a next state, unless it is that of a `LOOKUP` whose slot is EMPTY. -/
theorem completes_isNext {i : Instr} {s : State} (h : ∀ l, i = .lookup l → (s.sr.get l).v = true) :
    ∃ t, completes i s = .next t := by
  obtain ⟨t, rfl⟩ | ⟨l, rfl⟩ | ⟨l, t, o, rfl⟩ := i.init_lookup_or_conv
  · exact ⟨_, rfl⟩
  · exact ⟨_, if_pos (h l rfl)⟩
  · exact ⟨_, completes_conv l t o s⟩

/-- With nothing scheduled and a port `BUSY`, the lowest such port moves. -/
theorem idleMove_of_busy {s : State} (h : s.allIdle = false) :
    ∃ (p : Nat) (q : Port) (i : Instr) (w : List Nat), s.ports[p]? = some q ∧ q.cond = .busy i w ∧
      idleMove s = perform (q.move p) s := by
  have hsome : findPort (fun q => !q.cond.isIdle) 0 s.ports ≠ none := fun hnone => by
    rw [findPort_eq_none_iff] at hnone
    refine Bool.eq_false_iff.1 h (List.all_eq_true.2 fun q hq => ?_)
    simpa using hnone q hq
  obtain ⟨⟨p, q⟩, hfind⟩ := Option.ne_none_iff_exists'.1 hsome
  obtain ⟨i, hpi, hp, hbusy, -⟩ := (findPort_eq_some_iff _ _ _ _ _).1 hfind
  rw [Nat.zero_add] at hpi
  subst hpi
  cases hc : q.cond with
  | idle =>
    rw [hc] at hbusy
    cases hbusy
  | busy j w =>
    refine ⟨p, q, j, w, hp, hc, ?_⟩
    unfold idleMove
    rw [hfind]

/-- While some port is `BUSY` a step takes one unit of work, and schedules nothing. -/
theorem step_takes_work {s : State} (hinv : Inv s) (hg : programRefusal s = none) (hs : s.sched = [])
    (hbusy : s.allIdle = false) : ∃ u, step s = .next u ∧ u.work + 1 = s.work ∧ u.sched = [] := by
  obtain ⟨p, q, i, w, hp, hc, hmove⟩ := idleMove_of_busy hbusy
  have hflight := hinv.flights q (List.mem_of_getElem? hp)
  rw [step_unscheduled hg hs, hmove]
  rcases move_of_busy p hc hflight with ⟨k, l, hl, hk, hw, hev⟩ | ⟨hfin, hev⟩
  · obtain ⟨-, -, -, -, -, hsorted, hbound⟩ := (flightOk_conv_iff hc hl).1 hflight
    rw [hev]
    exact ⟨_, storeByte_stored hp hc hl hk hw, work_of_modify hp rfl (work_of_stored hc hl hsorted hbound hk hw), hs⟩
  · have hslot : ∀ l, i = .lookup l → (s.sr.get l).v = true := by
      rintro l rfl
      obtain ⟨hv, -⟩ := (flightOk_lookup_iff hc).1 hflight
      exact hv
    obtain ⟨u, hu⟩ := completes_isNext (s := { s with cur := p }) hslot
    obtain ⟨-, -, -, -, hsched, -, f, v, hports, -, hf⟩ := completes_fields hu
    obtain ⟨hidle, -⟩ := hf q
    rw [hev]
    refine ⟨u, (completePort_finished hp hc hfin).trans hu, work_of_modify hp hports ?_, hsched.trans hs⟩
    rw [work_of_idle hidle, work_of_finished hc hfin]

/-- As many steps as there is work left end with nothing in flight. -/
theorem run_work {n : Nat} {s : State} (hn : s.work = n) (hinv : Inv s) (hg : programRefusal s = none) (hs : s.sched = []) :
    ∃ t, Host.Core.run core n s = .next t ∧ t.allIdle = true ∧ t.sched = [] := by
  induction n generalizing s with
  | zero =>
    cases hidle : s.allIdle with
    | true => exact ⟨s, rfl, hidle, hs⟩
    | false =>
      obtain ⟨u, -, hwork, -⟩ := step_takes_work hinv hg hs hidle
      omega
  | succ n ih =>
    cases hidle : s.allIdle with
    | true =>
      rw [work_of_allIdle hidle] at hn
      omega
    | false =>
      obtain ⟨u, hstep, hwork, hsched⟩ := step_takes_work hinv hg hs hidle
      obtain ⟨hcfg, hprog⟩ := sameProgram_step hstep
      obtain ⟨t, hrun, ht⟩ := ih (by omega) (everyStepKeepsTheMachineInvariant s u hinv hstep)
        ((programRefusal_of_prog hcfg hprog).trans hg) hsched
      exact ⟨t, (run_succ (M := core) n hstep).trans hrun, ht⟩

/-- Settles O60: each step takes one unit of work (`step_takes_work`) and keeps the invariant. -/
theorem flightsFinishInBoundedSteps : Obligations.FlightsFinishInBoundedSteps := by
  intro s hinv hg hs
  obtain ⟨t, hrun, hidle, hsched⟩ := run_work rfl hinv hg hs
  refine ⟨t, hrun, hidle, hsched, fun hbusy => ?_⟩
  obtain ⟨u, hstep, hwork, -⟩ := step_takes_work hinv hg hs hbusy
  exact ⟨u, hstep, hwork⟩

end Sys2Proof.Machine
end

section
/-! PROOFS. Runs of events: a command in pieces is the big step (R230), and compatible conversions commute (R67). -/

namespace Sys2Proof.Machine

/-! ### The state after byte events -/

/-- A port with byte `k` written besides: its progress and nothing else. -/
def Port.progress (k : Nat) (q : Port) : Port :=
  match q.cond with
  | .idle => q
  | .busy i w => { q with cond := .busy i (insertOffset k w) }

/-- The ports after a byte event. -/
def Event.progress (ps : List Port) : Event → List Port
  | .store p k => ps.modify p (Port.progress k)
  | _ => ps

/-- The conversion in flight on port `p`, if any. -/
def flightAt (ps : List Port) (p : Nat) : Option (Layout × Opnd) := ps[p]?.bind Port.flight

/-- Memory after a byte event, for the conversions in flight `fl`. -/
def Event.writeByte (c : Coef) (fl : Nat → Option (Layout × Opnd)) (m : Memory) : Event → Memory
  | .store p k =>
    match fl p with
    | some (l, o) => m.write (o.d.toNat + k) (rowByte c l o m k)
    | none => m
  | _ => m

/-- The state after the byte events `es`, with `rest` to come. -/
def State.afterStores (s : State) (es rest : List Event) : State :=
  { s with
    mem := es.foldl (Event.writeByte s.cfg.coef (flightAt s.ports)) s.mem
    ports := es.foldl Event.progress s.ports
    sched := rest }

/-- The event is the write of a byte that a conversion in flight has not written. -/
def Event.Enabled (ps : List Port) (e : Event) : Prop :=
  ∃ (p k : Nat) (q : Port) (i : Instr) (w : List Nat) (l : Layout), e = .store p k ∧ ps[p]? = some q ∧
    q.cond = .busy i w ∧ i.layout = some l ∧ k < q.a.n.toNat * l.step ∧ k ∉ w

theorem Port.progress_of_busy {q : Port} {i : Instr} {w : List Nat} (k : Nat) (h : q.cond = .busy i w) :
    q.progress k = { q with cond := .busy i (insertOffset k w) } := by
  simp [Port.progress, h]

theorem Port.flight_progress (k : Nat) (q : Port) : (q.progress k).flight = q.flight := by
  cases hc : q.cond with
  | idle => simp [Port.progress, hc]
  | busy i w =>
    rw [Port.progress_of_busy k hc, Port.flight_of_busy hc]
    exact Port.flight_of_busy rfl

/-- Progress changes no port other than in its condition. -/
theorem Port.progress_eq (k : Nat) (q : Port) : ∃ c, q.progress k = { q with cond := c } := by
  cases hc : q.cond with
  | idle =>
    have hsame : q.progress k = q := by simp [Port.progress, hc]
    exact ⟨q.cond, hsame⟩
  | busy i w => exact ⟨_, Port.progress_of_busy k hc⟩

/-- Byte events leave the conversions in flight as they are, in layout and operands. -/
theorem flightAt_progress (ps : List Port) (e : Event) : flightAt (e.progress ps) = flightAt ps := by
  funext j
  cases e with
  | store p k =>
    simp only [flightAt, Event.progress, List.getElem?_modify]
    cases ps[j]? with
    | none => rfl
    | some q =>
      by_cases hpj : p = j
      · simp [hpj, Port.flight_progress]
      · simp [hpj]
  | _ => rfl

/-- The byte events that are left to come stay enabled after one of them. -/
theorem Event.Enabled.progress {ps : List Port} {e e' : Event} (h : e'.Enabled ps) (hne : e ≠ e') :
    e'.Enabled (e.progress ps) := by
  obtain ⟨p', k', q, i, w, l, rfl, hp, hc, hl, hk, hw⟩ := h
  cases e with
  | store p k =>
    by_cases hpp : p = p'
    · subst hpp
      refine ⟨p, k', q.progress k, i, insertOffset k w, l, rfl, ?_, ?_, hl, ?_, fun hin => ?_⟩
      · simp [Event.progress, hp]
      · rw [Port.progress_of_busy k hc]
      · rwa [Port.progress_of_busy k hc]
      · rcases (mem_insertOffset k k' w).1 hin with rfl | hin
        · exact hne rfl
        · exact hw hin
    · exact ⟨p', k', q, i, w, l, rfl, (List.getElem?_modify_ne _ _ hpp).trans hp, hc, hl, hk, hw⟩
  | _ => exact ⟨p', k', q, i, w, l, rfl, hp, hc, hl, hk, hw⟩

/-- The step of an enabled byte event. -/
theorem step_store {s : State} {e : Event} {rest : List Event} (hg : programRefusal s = none) (hs : s.sched = e :: rest)
    (he : e.Enabled s.ports) : step s = .next (s.afterStores [e] rest) := by
  obtain ⟨p, k, q, i, w, l, rfl, hp, hc, hl, hk, hw⟩ := he
  have hflight : flightAt s.ports p = some (l, q.a) := by
    rw [flightAt, hp, Option.bind_some, Port.flight_of_busy hc, hl]
    rfl
  have hports : s.ports.modify p (fun q' => { q' with cond := .busy i (insertOffset k w) }) =
      s.ports.modify p (Port.progress k) := modify_congr _ _ q hp (Port.progress_of_busy k hc).symm
  rw [step_event hg hs]
  refine (storeByte_stored (s := { s with sched := rest }) hp hc hl hk hw).trans ?_
  simp only [stored, State.updPort, hports, State.afterStores, List.foldl_cons, List.foldl_nil, Event.writeByte, hflight,
    Event.progress]

/-- A run of enabled byte events, each once, goes on, and ends in the state after them. -/
theorem run_stores {s : State} {es rest : List Event} (hg : programRefusal s = none) (hs : s.sched = es ++ rest)
    (hnodup : es.Nodup) (he : ∀ e ∈ es, e.Enabled s.ports) :
    Host.Core.run core es.length s = .next (s.afterStores es rest) := by
  induction es generalizing s with
  | nil =>
    rw [List.nil_append] at hs
    subst hs
    rfl
  | cons e es ih =>
    obtain ⟨hnew, hnodup⟩ := List.nodup_cons.1 hnodup
    have hstep := step_store hg hs (he e List.mem_cons_self)
    obtain ⟨hcfg, hprog⟩ := sameProgram_step hstep
    have hrun := ih (s := s.afterStores [e] (es ++ rest)) ((programRefusal_of_prog hcfg hprog).trans hg) rfl hnodup
      fun e' he' => (he e' (List.mem_cons_of_mem _ he')).progress fun heq => hnew (heq ▸ he')
    refine (run_succ (M := core) es.length hstep).trans (hrun.trans ?_)
    have hflight : flightAt (s.afterStores [e] (es ++ rest)).ports = flightAt s.ports := flightAt_progress s.ports e
    rw [State.afterStores, hflight]
    rfl

/-- The progress of one port after one event: the byte joins it if it is one of that port. -/
theorem progress_get_one {ps : List Port} {p : Nat} {q : Port} {i : Instr} {w : List Nat} (e : Event) (hp : ps[p]? = some q)
    (hc : q.cond = .busy i w) :
    ∃ w', (e.progress ps)[p]? = some { q with cond := .busy i w' } ∧ (∀ k, k ∈ w' ↔ .store p k = e ∨ k ∈ w) ∧
      (w.Pairwise (· < ·) → w'.Pairwise (· < ·)) := by
  have hsame : ps[p]? = some { q with cond := .busy i w } := by rw [← hc]; exact hp
  cases e with
  | store p' k' =>
    by_cases hpp : p' = p
    · subst hpp
      refine ⟨insertOffset k' w, ?_, fun k => ?_, pairwise_insertOffset k'⟩
      · simp [Event.progress, hp, Port.progress_of_busy k' hc]
      · simp [mem_insertOffset]
    · exact ⟨w, (List.getElem?_modify_ne _ _ hpp).trans hsame, fun k => by simp [Ne.symm hpp], id⟩
  | _ => exact ⟨w, hsame, fun k => by simp, id⟩

/-- The progress of one port after byte events: what was written of its conversion, and what the events write of it. -/
theorem progress_get {ps : List Port} {p : Nat} {q : Port} {i : Instr} {w : List Nat} (es : List Event) (hp : ps[p]? = some q)
    (hc : q.cond = .busy i w) :
    ∃ w', (es.foldl Event.progress ps)[p]? = some { q with cond := .busy i w' } ∧
      (∀ k, k ∈ w' ↔ .store p k ∈ es ∨ k ∈ w) ∧ (w.Pairwise (· < ·) → w'.Pairwise (· < ·)) := by
  induction es generalizing ps q w with
  | nil => exact ⟨w, by rw [← hc]; exact hp, by simp, id⟩
  | cons e es ih =>
    obtain ⟨w₁, hget₁, hmem₁, hsorted₁⟩ := progress_get_one e hp hc
    obtain ⟨w', hget, hmem, hsorted⟩ := ih hget₁ rfl
    refine ⟨w', hget, fun k => ?_, fun h => hsorted (hsorted₁ h)⟩
    rw [hmem, hmem₁, List.mem_cons]
    tauto

/-- A conversion just accepted is finished after byte events that write all of its write set and nothing else of it. -/
theorem finished_after_stores {ps : List Port} {p : Nat} {q : Port} {i : Instr} {l : Layout} {es : List Event}
    (hp : ps[p]? = some q) (hc : q.cond = .busy i []) (hl : i.layout = some l)
    (hall : ∀ k, .store p k ∈ es ↔ k < q.a.n.toNat * l.step) :
    ∃ w, (es.foldl Event.progress ps)[p]? = some { q with cond := .busy i w } ∧
      Port.finished { q with cond := .busy i w } = true := by
  obtain ⟨w, hget, hmem, hsorted⟩ := progress_get es hp hc
  have hin : ∀ k, k ∈ w ↔ k < q.a.n.toNat * l.step := fun k => by simp [hmem, hall]
  have hfin := finished_iff (q := { q with cond := .busy i w }) rfl hl (hsorted List.Pairwise.nil) fun k hk => (hin k).1 hk
  exact ⟨w, hget, hfin.2 fun k hk => (hin k).2 hk⟩

/-! ### A command in pieces (R230) -/

theorem contract_conv (l : Layout) (t : Byte) (o : Opnd) (s : State) :
    contract (Instr.conv l t o) s ↔ convContract l t o s := by cases l <;> rfl

/-- The contract of a command is what an offer checks of it (R143, R172, R175). -/
theorem contract_iff (i : Instr) (s : State) : contract i s ↔ i.wellFormed s.cfg = true ∧ stopOf i s = none := by
  obtain ⟨t, rfl⟩ | ⟨l, rfl⟩ | ⟨l, t, o, rfl⟩ := i.init_lookup_or_conv
  · exact and_congr decide_eq_true_iff.symm (initStop_eq_none t s).symm
  · exact (lookupStop_eq_none l s).symm.trans (and_iff_right rfl).symm
  · rw [stopOf_conv, ← convContract_iff, contract_conv]

/-- Acceptance by itself, inside the contract on a ready port. -/
theorem acceptOnly_of_contract {i : Instr} {s : State} {q : Port} (hready : s.readyPort q) (hc : contract i s) :
    acceptOnly i s = .next (s.accept i) := by
  obtain ⟨hwf, hstop⟩ := (contract_iff i s).1 hc
  exact offer_accepts hready hwf hstop

/-- The big step, inside the contract on a ready port. -/
theorem exec_of_contract {i : Instr} {s : State} {q : Port} (hready : s.readyPort q) (hc : contract i s) :
    exec i s = completes i (body i (s.accept i)) := by
  obtain ⟨hwf, hstop⟩ := (contract_iff i s).1 hc
  rw [exec_eq]
  exact offer_accepts hready hwf hstop

/-- A completion forgets the progress of its port: states that differ in that alone complete alike. -/
theorem completes_of_progress {i : Instr} {s s' : State} (hs : s' = { s with ports := s'.ports })
    (hports : ∀ f : Port → Port, (∀ q c, f { q with cond := c } = f q) → s'.ports.modify s.cur f = s.ports.modify s.cur f) :
    completes i s' = completes i s := by
  have hrespond (v : Word) : s'.ports.modify s.cur (fun q => { q with cond := .idle, rsps := q.rsps ++ [v] }) =
      s.ports.modify s.cur fun q => { q with cond := .idle, rsps := q.rsps ++ [v] } := hports _ fun _ _ => rfl
  rw [hs]
  obtain ⟨t, rfl⟩ | ⟨l, rfl⟩ | ⟨l, t, o, rfl⟩ := i.init_lookup_or_conv
  · simp only [completes, initCompletes, State.respond, State.updPort, hrespond]
  · simp only [completes, lookupCompletes, State.respond, State.updPort, hrespond]
  · simp only [completes_conv, convCompletes, State.respond, State.releaseLatches, State.updPort, List.modify_modify_eq]
    rw [hports _ fun _ _ => rfl]

/-- What a change of port `p` overwrites does not depend on the progress of its conversion. -/
theorem modify_progress {p : Nat} {f : Port → Port} (hf : ∀ q c, f { q with cond := c } = f q) (ks : List Nat)
    (ps : List Port) : ((ks.map (Event.store p)).foldl Event.progress ps).modify p f = ps.modify p f := by
  induction ks generalizing ps with
  | nil => rfl
  | cons k ks ih =>
    have hfk : f ∘ Port.progress k = f := funext fun q => by
      obtain ⟨c, hc⟩ := q.progress_eq k
      rw [Function.comp_apply, hc, hf]
    rw [List.map_cons, List.foldl_cons, ih, Event.progress, List.modify_modify_eq, hfk]

theorem bytesWritten_conv (l : Layout) (t : Byte) (o : Opnd) : bytesWritten (Instr.conv l t o) = o.n.toNat * l.step := by
  cases l <;> rfl

end Sys2Proof.Machine
end

section
/-! PROOFS. A command in pieces ends as the big step (R230), and compatible conversions give one memory (R67). -/

namespace Sys2Proof.Machine

/-! ### The pieces of a run -/

theorem sameProgram_run {n : Nat} {s t : core.State} (h : Host.Core.run core n s = .next t) : SameProgram s t := by
  induction n generalizing s with
  | zero =>
    cases h
    exact .refl _
  | succ n ih =>
    rw [Host.Core.run] at h
    split at h
    · next u hu => exact (sameProgram_step hu).trans (ih h)
    · cases h
    · cases h

/-- A run does not come to be refused: the lists stay (R34, R232). -/
theorem programRefusal_run {n : Nat} {s t : State} (h : Host.Core.run core n s = .next t) (hg : programRefusal s = none) :
    programRefusal t = none := by
  obtain ⟨hcfg, hprog⟩ := sameProgram_run h
  exact (programRefusal_of_prog hcfg hprog).trans hg

/-- The step of a scheduled acceptance, inside the contract. -/
theorem step_accept {s : State} {p : Nat} {rest : List Event} {q : Port} {k : Command} {i : Instr}
    (hg : programRefusal s = none) (hs : s.sched = .accept p :: rest) (hp : s.ports[p]? = some q) (hc : q.cond = .idle)
    (hk : s.offered q = some k) (hd : decode s.cfg k = .ok i) (hcon : contract i s) :
    step s = .next (State.accept i { s with sched := rest, cur := p }) := by
  rw [step_event hg hs]
  refine (present_offered (s := { s with sched := rest }) hp hc hk hd).trans ?_
  exact acceptOnly_of_contract (s := { s with sched := rest, cur := p }) ⟨admissible_of_programRefusal hg, hp, hc⟩ hcon

/-- The step of a scheduled completion of a finished command. -/
theorem step_complete {s : State} {p : Nat} {rest : List Event} {q : Port} {i : Instr} {w : List Nat}
    (hg : programRefusal s = none) (hs : s.sched = .complete p :: rest) (hp : s.ports[p]? = some q)
    (hc : q.cond = .busy i w) (hf : q.finished = true) : step s = completes i { s with sched := rest, cur := p } := by
  rw [step_event hg hs]
  exact completePort_finished (s := { s with sched := rest }) hp hc hf

/-! ### One command in pieces (R230) -/

theorem bytesWritten_of_layout {i : Instr} {l : Layout} (hl : i.layout = some l) (q : Port) :
    bytesWritten i = (q.accept i).a.n.toNat * l.step := by
  obtain ⟨t, o, rfl⟩ := eq_conv_of_layout hl
  rw [bytesWritten_conv, Port.accept_a, opnd_conv, Option.getD_some]

theorem bytesWritten_of_no_layout {i : Instr} (hl : i.layout = none) : bytesWritten i = 0 := by
  simp [bytesWritten, hl]

theorem mem_map_store {p p' k : Nat} {ks : List Nat} : .store p k ∈ ks.map (Event.store p') ↔ p' = p ∧ k ∈ ks := by
  simp only [List.mem_map, Event.store.injEq]
  constructor
  · rintro ⟨j, hj, rfl, rfl⟩
    exact ⟨rfl, hj⟩
  · rintro ⟨rfl, hk⟩
    exact ⟨k, hk, rfl, rfl⟩

theorem nodup_map_store (p : Nat) {ks : List Nat} (h : ks.Nodup) : (ks.map (Event.store p)).Nodup :=
  h.map fun _ _ heq => (Event.store.inj heq).2

/-- The bytes of one conversion, as the events write them. -/
theorem foldl_writeByte_store (c : Coef) {fl : Nat → Option (Layout × Opnd)} {p : Nat} {l : Layout} {o : Opnd}
    (h : fl p = some (l, o)) (ks : List Nat) (m : Memory) :
    (ks.map (Event.store p)).foldl (Event.writeByte c fl) m =
      ks.foldl (fun m' k => m'.write (o.d.toNat + k) (rowByte c l o m' k)) m := by
  simp only [List.foldl_map, Event.writeByte, h]

theorem flightAt_of_busy {ps : List Port} {p : Nat} {q : Port} {i : Instr} {w : List Nat} {l : Layout}
    (hp : ps[p]? = some q) (hc : q.cond = .busy i w) (hl : i.layout = some l) : flightAt ps p = some (l, q.a) := by
  rw [flightAt, hp, Option.bind_some, Port.flight_of_busy hc, hl]
  rfl

/-- The body of a command changes memory and nothing else. -/
theorem body_eq (i : Instr) (s : State) : body i s = { s with mem := (body i s).mem } := by
  unfold body
  split
  · rfl
  · unfold State.runRow
    split <;> rfl

section pieces
variable {s : State} {p : Nat} {q : Port} {i : Instr} {ks : List Nat} (hp : s.ports[p]? = some q)
  (hc : q.cond = .busy i []) (hnone : i.layout = none → ks = [])
  (hsome : ∀ l, i.layout = some l → ks.Perm (List.range (q.a.n.toNat * l.step)))
include hp hc hnone hsome

/-- The bytes of a command just accepted, in any order, leave the memory of its body (`anyWriteOrderLeavesTheSameMemory`). -/
theorem mem_afterStores (rest : List Event) (hf : FlightOk s.cfg s.sr q) (hwf : s.mem.wf) (hcur : s.cur = p) :
    (s.afterStores (ks.map (Event.store p)) rest).mem = (body i s).mem := by
  subst hcur
  unfold body
  split
  · next hl =>
    rw [hnone hl]
    rfl
  · next l hl =>
    obtain ⟨-, -, -, -, hself, -⟩ := (flightOk_conv_iff hc hl).1 hf
    rw [State.runRow_eq l s q hp]
    exact (foldl_writeByte_store _ (flightAt_of_busy hp hc hl) ks s.mem).trans
      (anyWriteOrderLeavesTheSameMemory _ l q.a s.mem ks hself hwf (hsome l hl))

/-- Once its bytes are written, in any order, a command just accepted is finished. -/
theorem finished_pieces :
    ∃ w, ((ks.map (Event.store p)).foldl Event.progress s.ports)[p]? = some { q with cond := .busy i w } ∧
      Port.finished { q with cond := .busy i w } = true := by
  cases hl : i.layout with
  | none =>
    rw [hnone hl]
    exact ⟨[], by rw [← hc]; exact hp, by simp [Port.finished, hl]⟩
  | some l =>
    refine finished_after_stores hp hc hl fun k => ?_
    rw [mem_map_store, (hsome l hl).mem_iff, List.mem_range]
    exact and_iff_right rfl

/-- Each byte of a command just accepted is there to be written. -/
theorem enabled_pieces : ∀ e ∈ ks.map (Event.store p), e.Enabled s.ports := by
  intro e he
  obtain ⟨k, hk, rfl⟩ := List.mem_map.1 he
  cases hl : i.layout with
  | none =>
    rw [hnone hl] at hk
    cases hk
  | some l =>
    rw [(hsome l hl).mem_iff, List.mem_range] at hk
    exact ⟨p, k, q, i, [], l, rfl, hp, hc, hl, hk, List.not_mem_nil⟩

end pieces

/-- Settles O31: after acceptance and the bytes in any order (`run_stores`), the state differs from the one before the completion
of the big step in the progress alone, which the completion forgets (`completes_of_progress`). -/
theorem byteEventsRefineTheBigStep : Obligations.ByteEventsRefineTheBigStep := by
  intro s p q k i ks rest hg hp hc hk hd hcon hwf hperm
  obtain ⟨hiwf, hstop⟩ := (contract_iff i s).1 hcon
  have hnone : i.layout = none → ks = [] := fun hl => by
    rw [bytesWritten_of_no_layout hl] at hperm
    exact hperm.eq_nil
  have hsome : ∀ l, i.layout = some l → ks.Perm (List.range ((q.accept i).a.n.toNat * l.step)) := fun l hl => by
    rwa [← bytesWritten_of_layout hl q]
  have hbig : step { s with sched := .run p :: rest } =
      completes i (body i (State.accept i { s with sched := rest, cur := p })) :=
    (stepRunsTheDecodedCommand { s with sched := .run p :: rest } p rest q k i hg rfl hp hc hk hd).trans
      (exec_of_contract (s := { s with sched := rest, cur := p }) ⟨admissible_of_programRefusal hg, hp, hc⟩ hcon)
  let s₀ := State.accept i { s with sched := rest, cur := p }
  let s₁ := State.accept i { s with sched := ks.map (Event.store p) ++ .complete p :: rest, cur := p }
  have hp₀ : s₀.ports[p]? = some (q.accept i) := by simp [s₀, hp]
  have hp₁ : s₁.ports[p]? = some (q.accept i) := by simp [s₁, hp]
  have haccept : step { s with sched := .accept p :: (ks.map (Event.store p) ++ .complete p :: rest) } = .next s₁ :=
    step_accept (s := { s with sched := .accept p :: (ks.map (Event.store p) ++ .complete p :: rest) }) hg rfl hp hc hk hd hcon
  have hg₁ : programRefusal s₁ = none := programRefusal_run ((run_one (M := core) _).trans haccept) hg
  have hstores : Host.Core.run core ks.length s₁ =
      .next (s₁.afterStores (ks.map (Event.store p)) (.complete p :: rest)) := by
    have hrun := run_stores (rest := .complete p :: rest) hg₁ rfl
      (nodup_map_store p (hperm.nodup_iff.2 List.nodup_range)) (enabled_pieces hp₁ rfl hnone hsome)
    rwa [List.length_map] at hrun
  obtain ⟨w, hget, hfin⟩ := finished_pieces hp₁ rfl hnone hsome
  have hmem := mem_afterStores hp₀ rfl hnone hsome rest (flightOk_accept hiwf hstop q) hwf rfl
  have hcomplete : step (s₁.afterStores (ks.map (Event.store p)) (.complete p :: rest)) =
      completes i { s₁.afterStores (ks.map (Event.store p)) (.complete p :: rest) with sched := rest, cur := p } :=
    step_complete (programRefusal_run hstores hg₁) rfl hget rfl hfin
  refine (run_succ (M := core) (ks.length + 1) haccept).trans ((run_add (M := core) ks.length 1 hstores).trans
    ((run_one (M := core) _).trans (hcomplete.trans (.trans (completes_of_progress ?_ fun f hf => ?_) hbig.symm))))
  · rw [body_eq, ← hmem]
    rfl
  · obtain ⟨-, -, hports, -, hcur⟩ := body_fields i s₀
    rw [hports, hcur]
    exact modify_progress hf ks s₀.ports

end Sys2Proof.Machine
end

section
/-! PROOFS. Compatible conversions give one memory, in either order and interleaved (R67). -/

namespace Sys2Proof.Machine

/-! ### The memory of two compatible rows -/

/-- `M` is what the two rows leave of `m`: their bytes, each as computed from `m`, and every other byte of `m`. -/
structure TwoRows (c : Coef) (l : Layout) (o : Opnd) (l' : Layout) (o' : Opnd) (m M : Memory) : Prop where
  wf : M.wf
  first : ∀ k < o.n.toNat * l.step, M.read (o.d.toNat + k) = rowByte c l o m k
  second : ∀ k < o'.n.toNat * l'.step, M.read (o'.d.toNat + k) = rowByte c l' o' m k
  rest : ∀ b, ¬ (o.writes l).has b = true → ¬ (o'.writes l').has b = true → M.read b = m.read b

theorem TwoRows.symm {c : Coef} {l l' : Layout} {o o' : Opnd} {m M : Memory} (h : TwoRows c l o l' o' m M) :
    TwoRows c l' o' l o m M :=
  ⟨h.wf, h.second, h.first, fun b hb hb' => h.rest b hb' hb⟩

/-- An address of the write set is a byte of it (R60). -/
theorem exists_offset {o : Opnd} {l : Layout} {b : Nat} (h : (o.writes l).has b = true) :
    ∃ k < o.n.toNat * l.step, b = o.d.toNat + k := by
  rw [Opnd.writes_has_iff] at h
  exact ⟨b - o.d.toNat, by omega, by omega⟩

theorem writes_has_offset {o : Opnd} {l : Layout} {k : Nat} (h : k < o.n.toNat * l.step) :
    (o.writes l).has (o.d.toNat + k) = true :=
  (Opnd.writes_has_iff o l _).2 (by omega)

theorem TwoRows.unique {c : Coef} {l l' : Layout} {o o' : Opnd} {m M M' : Memory} (h : TwoRows c l o l' o' m M)
    (h' : TwoRows c l o l' o' m M') : M = M' := by
  refine Memory.ext_read h.wf h'.wf fun b => ?_
  by_cases hb : (o.writes l).has b = true
  · obtain ⟨k, hk, rfl⟩ := exists_offset hb
    rw [h.first k hk, h'.first k hk]
  by_cases hb' : (o'.writes l').has b = true
  · obtain ⟨k, hk, rfl⟩ := exists_offset hb'
    rw [h.second k hk, h'.second k hk]
  · rw [h.rest b hb hb', h'.rest b hb hb']

theorem read_row_of_not_writes (c : Coef) {l : Layout} {o : Opnd} (m : Memory) {b : Nat} (h : ¬ (o.writes l).has b = true) :
    (row c l o o.n.toNat m).read b = m.read b := by
  rw [Opnd.writes_has_iff] at h
  exact read_row_outside_any c l o _ m (by omega)

section compatible
variable {c : Coef} {l l' : Layout} {o o' : Opnd} (hself : selfDisjoint l o = true)
  (hcompat : compatible l o l' o' = true)
include hself hcompat

/-- One row after the other: neither row reads or writes what the other writes. -/
theorem twoRows_row_row (hself' : selfDisjoint l' o' = true) {m : Memory} (hwf : m.wf) :
    TwoRows c l o l' o' m (row c l' o' o'.n.toNat (row c l o o.n.toNat m)) := by
  rw [compatible_iff] at hcompat
  have hwf₁ := wf_row c l o o.n.toNat hwf
  refine ⟨wf_row c l' o' _ hwf₁, fun k hk => ?_, fun k hk => ?_, fun b hb hb' => ?_⟩
  · obtain ⟨hno, -⟩ := (hcompat _).1 (writes_has_offset hk)
    rw [read_row_of_not_writes c _ hno, read_row_byte c hself hwf hk]
  · rw [read_row_byte c hself' hwf₁ hk]
    refine rowByte_congr c hk fun b hb => read_row_of_not_writes c m fun hw => ?_
    obtain ⟨-, hno⟩ := (hcompat b).1 hw
    exact hno hb
  · rw [read_row_of_not_writes c _ hb', read_row_of_not_writes c _ hb]

/-- A byte of the first row is computed from no byte that either row writes. -/
theorem rowByte_of_agree {m m₀ : Memory} {k : Nat} (hk : k < o.n.toNat * l.step)
    (hm : ∀ b, ¬ ((o.writes l).has b = true ∨ (o'.writes l').has b = true) → m.read b = m₀.read b) :
    rowByte c l o m k = rowByte c l o m₀ k := by
  refine rowByte_congr c hk fun b hb => hm b ?_
  rintro (hw | hw)
  · exact not_reads_has_of_selfDisjoint hself hw hb
  · exact ((compatible_iff l o l' o').1 hcompat b).2 hw hb

end compatible

/-- Where a byte event writes, for the conversions in flight `fl`. -/
def Event.dest (fl : Nat → Option (Layout × Opnd)) : Event → Nat
  | .store p k =>
    match fl p with
    | some (_, o) => o.d.toNat + k
    | none => 0
  | _ => 0

/-- The bytes of two compatible conversions written in any interleaving leave the memory of the two rows. -/
theorem twoRows_foldl_writeByte {c : Coef} {l l' : Layout} {o o' : Opnd} {m M : Memory} {p p' : Nat}
    {fl : Nat → Option (Layout × Opnd)} {es : List Event} (hself : selfDisjoint l o = true)
    (hself' : selfDisjoint l' o' = true) (hcompat : compatible l o l' o' = true) (hwf : m.wf)
    (hp : fl p = some (l, o)) (hp' : fl p' = some (l', o')) (hM : TwoRows c l o l' o' m M)
    (hes : ∀ e, e ∈ es ↔ (∃ k < o.n.toNat * l.step, e = .store p k) ∨ ∃ k < o'.n.toNat * l'.step, e = .store p' k) :
    es.foldl (Event.writeByte c fl) m = M := by
  have hdest (k : Nat) : Event.dest fl (.store p k) = o.d.toNat + k := by simp [Event.dest, hp]
  have hdest' (k : Nat) : Event.dest fl (.store p' k) = o'.d.toNat + k := by simp [Event.dest, hp']
  refine foldl_writes_eq (S := fun b => (o.writes l).has b = true ∨ (o'.writes l').has b = true) (addr := Event.dest fl)
    (fun e he => ?_) (fun e he m' hm' => ?_) hwf hM.wf fun b hb => ?_
  · rcases (hes e).1 he with ⟨k, hk, rfl⟩ | ⟨k, hk, rfl⟩
    · rw [hdest]
      exact .inl (writes_has_offset hk)
    · rw [hdest']
      exact .inr (writes_has_offset hk)
  · rcases (hes e).1 he with ⟨k, hk, rfl⟩ | ⟨k, hk, rfl⟩
    · rw [hdest, hM.first k hk, ← rowByte_of_agree hself hcompat hk hm']
      simp only [Event.writeByte, hp]
    · rw [hdest', hM.second k hk, ← rowByte_of_agree hself' (compatible_comm l o l' o' ▸ hcompat) hk
        fun b hb => hm' b fun h => hb h.symm]
      simp only [Event.writeByte, hp']
  · refine hM.rest b (fun hw => hb ?_) fun hw => hb ?_
    · obtain ⟨k, hk, rfl⟩ := exists_offset hw
      exact List.mem_map.2 ⟨_, (hes _).2 (.inl ⟨k, hk, rfl⟩), hdest k⟩
    · obtain ⟨k, hk, rfl⟩ := exists_offset hw
      exact List.mem_map.2 ⟨_, (hes _).2 (.inr ⟨k, hk, rfl⟩), hdest' k⟩

/-! ### Two conversions on two ports -/

/-- A list looked at through what a change of one port leaves is as it was. -/
theorem map_modify_of_eq {α : Type} {g : Port → α} {f : Port → Port} (h : ∀ q, g (f q) = g q) (xs : List Port) (p : Nat) :
    (xs.modify p f).map g = xs.map g := by
  apply List.ext_getElem?
  intro j
  simp only [List.getElem?_map, List.getElem?_modify]
  cases xs[j]? <;> simp
  split <;> simp [h]

theorem waitOver_eq_map (ps : List Port) (need : List Nat) :
    waitOver ps need = (need.zip (ps.map Port.answered)).all fun x => decide (x.1 ≤ x.2) := by
  simp [waitOver, List.zip_map_right, List.all_map, Function.comp_def]

theorem response_eq_map (ps : List Port) (p j : Nat) :
    sourceWord ps (.response p j) = (ps.map Port.response)[p]?.bind fun g => g j := by
  simp [sourceWord, List.getElem?_map, Option.bind_map]

/-- What the host presents on a port depends on the responses of the others alone (R98). -/
theorem offered_of_modify {s t : State} {p : Nat} {f : Port → Port} (hports : t.ports = s.ports.modify p f)
    (hf : ∀ q, (f q).answered = q.answered ∧ (f q).response = q.response) (q : Port) : t.offered q = s.offered q := by
  have hwait (need : List Nat) : waitOver t.ports need = waitOver s.ports need := by
    rw [waitOver_eq_map, waitOver_eq_map, hports, map_modify_of_eq fun q => (hf q).1]
  have hword (src : Source) : sourceWord t.ports src = sourceWord s.ports src := by
    cases src with
    | word w => rfl
    | response j k => rw [response_eq_map, response_eq_map, hports, map_modify_of_eq fun q => (hf q).2]
  unfold State.offered
  simp only [hwait, hword]

/-- P4 of R143 where one port has changed, if what it has in flight now is no obstacle. -/
theorem raceFree_of_modify {s t : State} {p : Nat} {f : Port → Port} {l : Layout} {o : Opnd}
    (hports : t.ports = s.ports.modify p f)
    (hf : ∀ q g, s.ports[p]? = some q → (f q).flight = some g → compatible l o g.1 g.2 = true)
    (h : raceFree s l o = true) : raceFree t l o = true := by
  rw [raceFree_iff] at h ⊢
  rw [hports]
  exact forall_mem_modify h fun q hq _ g => hf q g hq

/-- A conversion's contract looks at the configuration and at what is in flight (R143), so the change of a port keeps it if what
that port has in flight now is no obstacle. -/
theorem convContract_of_modify {s t : State} {p : Nat} {f : Port → Port} {l : Layout} {r : Byte} {o : Opnd}
    (hcfg : t.cfg = s.cfg) (hports : t.ports = s.ports.modify p f)
    (hf : ∀ q g, s.ports[p]? = some q → (f q).flight = some g → compatible l o g.1 g.2 = true)
    (h : convContract l r o s) : convContract l r o t := by
  obtain ⟨htier, hfits, hwrap, hmap, hself, hrace, hcap⟩ := h
  unfold convContract
  rw [hcfg]
  exact ⟨htier, hfits, hwrap, hmap, hself, raceFree_of_modify hports hf hrace, hcap⟩

/-- Two conversions just accepted: their bytes, in any order, and the two completions go on, and memory is that of the bytes. -/
theorem run_bytes_and_completions {s : State} {p p' : Nat} {q q' : Port} {i i' : Instr} {l l' : Layout} {es rest : List Event}
    (hne : p ≠ p') (hg : programRefusal s = none) (hs : s.sched = es ++ .complete p :: .complete p' :: rest)
    (hp : s.ports[p]? = some q) (hc : q.cond = .busy i []) (hl : i.layout = some l)
    (hp' : s.ports[p']? = some q') (hc' : q'.cond = .busy i' []) (hl' : i'.layout = some l') (hnodup : es.Nodup)
    (hes : ∀ e, e ∈ es ↔ (∃ k < q.a.n.toNat * l.step, e = .store p k) ∨ ∃ k < q'.a.n.toNat * l'.step, e = .store p' k) :
    ∃ u, Host.Core.run core (es.length + 2) s = .next u ∧
      State.mem u = es.foldl (Event.writeByte s.cfg.coef (flightAt s.ports)) s.mem := by
  have henabled : ∀ e ∈ es, e.Enabled s.ports := fun e he => by
    rcases (hes e).1 he with ⟨k, hk, rfl⟩ | ⟨k, hk, rfl⟩
    · exact ⟨p, k, q, i, [], l, rfl, hp, hc, hl, hk, List.not_mem_nil⟩
    · exact ⟨p', k, q', i', [], l', rfl, hp', hc', hl', hk, List.not_mem_nil⟩
  obtain ⟨w, hget, hfin⟩ := finished_after_stores (es := es) hp hc hl fun k => by simp [hes, hne]
  obtain ⟨w', hget', hfin'⟩ := finished_after_stores (es := es) hp' hc' hl' fun k => by simp [hes, hne.symm]
  have hstores := run_stores hg hs hnodup henabled
  have hg₁ := programRefusal_run hstores hg
  obtain ⟨t, o, rfl⟩ := eq_conv_of_layout hl
  obtain ⟨t', o', rfl⟩ := eq_conv_of_layout hl'
  have hcomplete := (step_complete hg₁ rfl hget rfl hfin).trans (completes_conv l t o _)
  have hg₂ := programRefusal_run ((run_one (M := core) _).trans hcomplete) hg₁
  have hcomplete' := (step_complete hg₂ rfl (by simp [hne, State.afterStores, hget']) rfl hfin').trans
    (completes_conv l' t' o' _)
  exact ⟨_, (run_add (M := core) es.length 2 hstores).trans ((run_succ (M := core) 1 hcomplete).trans
    ((run_one (M := core) _).trans hcomplete')), rfl⟩

section interleaving
variable {p p' n n' : Nat} {es : List Event}
  (hperm : es.Perm ((List.range n).map (Event.store p) ++ (List.range n').map (Event.store p')))
include hperm

theorem mem_interleaving (e : Event) : e ∈ es ↔ (∃ k < n, e = .store p k) ∨ ∃ k < n', e = .store p' k := by
  simp [hperm.mem_iff, eq_comm]

theorem nodup_interleaving (hne : p ≠ p') : es.Nodup := by
  refine hperm.nodup_iff.2 (List.nodup_append'.2 ⟨nodup_map_store p List.nodup_range, nodup_map_store p' List.nodup_range,
    fun e he he' => ?_⟩)
  obtain ⟨j, -, rfl⟩ := List.mem_map.1 he
  exact hne (mem_map_store.1 he').1.symm

end interleaving

section two
variable {s : State} {p p' : Nat} {q q' : Port} {l l' : Layout} {r r' : Byte} {o o' : Opnd} (hne : p ≠ p')
  (hp : s.ports[p]? = some q) (hc : q.cond = .idle) (hp' : s.ports[p']? = some q')
  (hc' : q'.cond = .idle) (hcon : convContract l r o s) (hcon' : convContract l' r' o' s)
include hne hp hc hp' hc' hcon hcon'

/-- One conversion after the other, each as one big step. -/
theorem exec_conv_twice (hadm : s.cfg.admissible = true) :
    ∃ s1 s2, exec (Instr.conv l r o) { s with cur := p } = .next s1 ∧
      exec (Instr.conv l' r' o') { s1 with cur := p' } = .next s2 ∧
      s2.mem = row s.cfg.coef l' o' o'.n.toNat (row s.cfg.coef l o o.n.toNat s.mem) := by
  refine ⟨_, _, exec_conv_accepted l { s with cur := p } q r o ⟨hadm, hp, hc⟩ hcon,
    exec_conv_accepted l' _ q' r' o' ⟨hadm, (List.getElem?_modify_ne _ _ hne).trans hp', hc'⟩ ?_, rfl⟩
  refine convContract_of_modify (s := s) (p := p) rfl rfl (fun q'' g hq hg => ?_) hcon'
  cases hp.symm.trans hq
  rw [Port.flight_of_idle (by exact hc)] at hg
  cases hg

/-- Both conversions in flight, their bytes in any interleaving, and both completed: the run goes on, with the memory of the two
rows (R67). -/
theorem run_interleaved (hcompat : compatible l o l' o' = true) (hwf : s.mem.wf) {k k' : Command} {es : List Event}
    (rest : List Event) (hg : programRefusal s = none) (hk : s.offered q = some k)
    (hd : decode s.cfg k = .ok (Instr.conv l r o)) (hk' : s.offered q' = some k')
    (hd' : decode s.cfg k' = .ok (Instr.conv l' r' o'))
    (hperm : es.Perm ((List.range (o.n.toNat * l.step)).map (Event.store p) ++
      (List.range (o'.n.toNat * l'.step)).map (Event.store p'))) :
    ∃ u, Host.Core.run core (es.length + 4)
        { s with sched := .accept p :: .accept p' :: (es ++ .complete p :: .complete p' :: rest) } = .next u ∧
      State.mem u = row s.cfg.coef l' o' o'.n.toNat (row s.cfg.coef l o o.n.toNat s.mem) := by
  have hes := mem_interleaving hperm
  have hnodup := nodup_interleaving hperm hne
  -- acceptance of both
  let s₁ := State.accept (Instr.conv l r o)
    { s with sched := .accept p' :: (es ++ .complete p :: .complete p' :: rest), cur := p }
  have haccept : step { s with sched := .accept p :: .accept p' :: (es ++ .complete p :: .complete p' :: rest) } = .next s₁ :=
    step_accept (s := { s with sched := .accept p :: .accept p' :: (es ++ .complete p :: .complete p' :: rest) }) hg rfl hp hc
      hk hd ((contract_conv l r o _).2 hcon)
  have hg₁ : programRefusal s₁ = none := programRefusal_run ((run_one (M := core) _).trans haccept) hg
  have hports₁ : s₁.ports = s.ports.modify p (Port.accept (Instr.conv l r o)) := rfl
  have hcon₁ : convContract l' r' o' s₁ := by
    refine convContract_of_modify (s := s) rfl hports₁ (fun q'' g _ hflight => ?_) hcon'
    rw [Port.flight_accept, layout_conv, opnd_conv] at hflight
    cases hflight
    exact compatible_comm l o l' o' ▸ hcompat
  let s₂ := State.accept (Instr.conv l' r' o') { s₁ with sched := es ++ .complete p :: .complete p' :: rest, cur := p' }
  have haccept' : step s₁ = .next s₂ :=
    step_accept hg₁ rfl ((List.getElem?_modify_ne _ _ hne).trans hp') hc'
      ((offered_of_modify hports₁ (fun _ => ⟨rfl, rfl⟩) q').trans hk') hd' ((contract_conv l' r' o' _).2 hcon₁)
  have hg₂ : programRefusal s₂ = none := programRefusal_run ((run_one (M := core) _).trans haccept') hg₁
  -- the bytes and the completions
  have hp₂ : s₂.ports[p]? = some (q.accept (Instr.conv l r o)) := by simp [s₂, s₁, hne.symm, hp]
  have hp₂' : s₂.ports[p']? = some (q'.accept (Instr.conv l' r' o')) := by simp [s₂, s₁, hne, hp']
  obtain ⟨u, hu, hmem⟩ := run_bytes_and_completions hne hg₂ rfl hp₂ rfl (layout_conv l r o) hp₂' rfl (layout_conv l' r' o')
    hnodup (by simpa using hes)
  have hflight : flightAt s₂.ports p = some (l, o) := by
    simpa using flightAt_of_busy hp₂ rfl (layout_conv l r o)
  have hflight' : flightAt s₂.ports p' = some (l', o') := by
    simpa using flightAt_of_busy hp₂' rfl (layout_conv l' r' o')
  have hself := selfDisjoint_of_convContract hcon
  have hself' := selfDisjoint_of_convContract hcon'
  exact ⟨u, (run_succ (M := core) (es.length + 3) haccept).trans ((run_succ (M := core) (es.length + 2) haccept').trans hu),
    hmem.trans (twoRows_foldl_writeByte hself hself' hcompat hwf hflight hflight'
      (twoRows_row_row hself hcompat hself' hwf) hes)⟩

end two

/-- Settles O32: both orders leave the memory that the two rows determine (`twoRows_row_row`, `TwoRows.unique`), and so does every
interleaving of their bytes (`run_interleaved`). -/
theorem compatibleConversionsCommute : Obligations.CompatibleConversionsCommute := by
  intro s p p' q q' l l' t t' o o' hne hadm hp hc hp' hc' hcon hcon' hcompat hwf
  obtain ⟨s1, s2, h1, h2, hmem⟩ := exec_conv_twice hne hp hc hp' hc' hcon hcon' hadm
  obtain ⟨t1, t2, h1', h2', hmem'⟩ := exec_conv_twice hne.symm hp' hc' hp hc hcon' hcon hadm
  have hself := selfDisjoint_of_convContract hcon
  have hself' := selfDisjoint_of_convContract hcon'
  have hcompat' : compatible l' o' l o = true := compatible_comm l o l' o' ▸ hcompat
  have hsame : s2.mem = t2.mem := by
    rw [hmem, hmem']
    exact (twoRows_row_row hself hcompat hself' hwf).unique (twoRows_row_row hself' hcompat' hself hwf).symm
  refine ⟨s1, s2, t1, t2, h1, h2, h1', h2', hsame, fun k k' es rest hg hk hd hk' hd' hperm => ?_⟩
  obtain ⟨u, hrun, hu⟩ := run_interleaved hne hp hc hp' hc' hcon hcon' hcompat hwf rest hg hk hd hk' hd' hperm
  exact ⟨u, hrun, hu.trans hmem.symm⟩

end Sys2Proof.Machine
end

section
/-! PROOFS. The pseudo-instructions (R98): `CONVL`, a `LOOKUP` and the `CALL` of its response, and `INITALL` (R222). -/

namespace Sys2Proof.Machine

/-! ### `CONVL` (R178) -/

/-- The port that has just answered `v`, each command before with one response, presents the `CALL` of that answer as its next
entry with the word `v` (log 19). -/
theorem offered_call_of_answer {s : State} {q : Port} {p : Nat} {v : Word} {o : Opnd} (hp : s.ports[p]? = some (q.answer v))
    (hidle : q.cond = .idle) (hone : q.oneResponseEach)
    (hentry : q.prog[q.cidx + 1]? = some { src := .response p q.cidx, opnd := o, need := [] }) :
    s.offered (q.answer v) = some (callCommand v o) := by
  have hlen : q.rsps.length = q.before + q.cidx := by simpa [Port.oneResponseEach, hidle] using hone
  have hresponse : (q.answer v).response q.cidx = some v := by simp [Port.response, Port.answer, ← hlen]
  have hpending : (q.answer v).pending = some { src := .response p q.cidx, opnd := o, need := [] } := hentry
  rw [State.offered_of_waited hpending rfl, sourceWord, hp, Option.bind_some, hresponse]
  rfl

/-- Settles O17: the response is the conversion's own word (`decode_eq_conv_iff`), and it is what the `CALL` presents
(`offered_call_of_answer`). -/
theorem lookupThenCallConvertsThatLayout : Obligations.LookupThenCallConvertsThatLayout := by
  intro s q l o hready hcon htier hfits
  obtain ⟨hadm, hq, hidle⟩ := hready
  have hdecode : decode s.cfg (callCommand (kernelRef l (s.sr.get l).tier) o) = .ok (Instr.conv l (s.sr.get l).tier o) :=
    (decode_eq_conv_iff _ _ _ _ _).2 ⟨rfl, htier, hfits, rfl⟩
  have hanswer : (s.ports.modify s.cur (Port.answer (kernelRef l (s.sr.get l).tier)))[s.cur]? =
      some (q.answer (kernelRef l (s.sr.get l).tier)) := by simp [hq]
  refine ⟨_, _, _, exec_lookup ⟨hadm, hq, hidle⟩ hcon, hanswer, rfl, hdecode, fun hone hg hentry hentry' => ?_⟩
  have hlookup : step { s with sched := .run s.cur :: .run s.cur :: s.sched } = .next { s with
      used := true
      ports := s.ports.modify s.cur (Port.answer (kernelRef l (s.sr.get l).tier))
      sched := .run s.cur :: s.sched } :=
    (stepRunsTheDecodedCommand { s with sched := .run s.cur :: .run s.cur :: s.sched } s.cur _ q _ _ hg rfl hq hidle
      (State.offered_issueOf hentry) (decodeReadsBackEveryCommand s.cfg (.lookup l) rfl)).trans
      (exec_lookup (s := { s with sched := .run s.cur :: s.sched }) ⟨hadm, hq, hidle⟩ hcon)
  have hg' := programRefusal_run ((run_one (M := core) _).trans hlookup) hg
  exact (run_succ (M := core) 1 hlookup).trans ((run_one (M := core) _).trans
    (stepRunsTheDecodedCommand _ s.cur s.sched _ _ _ hg' rfl hanswer hidle
      (offered_call_of_answer hanswer hidle hone hentry') hdecode))

/-! ### `INITALL` (R222) -/

/-- The tiers of `INITALL` are the capable ones. -/
theorem mem_capableBelow (c : Config) {n : Nat} (hn : n ≤ 256) (t : Byte) :
    t ∈ capableBelow c n ↔ t.toNat < n ∧ capable c t = true := by
  induction n with
  | zero => simp [capableBelow]
  | succ n ih =>
    have htier : t = BitVec.ofNat 8 n ↔ t.toNat = n := by
      rw [← BitVec.toNat_inj, BitVec.toNat_ofNat, Nat.mod_eq_of_lt (by omega)]
    have hlast : t ∈ (if capable c (BitVec.ofNat 8 n) then [BitVec.ofNat 8 n] else []) ↔
        t.toNat = n ∧ capable c t = true := by
      rw [← htier]
      constructor
      · intro h
        split at h
        · next hcap =>
          obtain rfl := List.mem_singleton.1 h
          exact ⟨rfl, hcap⟩
        · cases h
      · rintro ⟨rfl, hcap⟩
        simp [hcap]
    rw [capableBelow, List.mem_append, ih (by omega), hlast, ← or_and_right]
    exact and_congr_left fun _ => Nat.lt_succ_iff_lt_or_eq.symm

theorem pairwise_capableBelow (c : Config) {n : Nat} (hn : n ≤ 256) :
    (capableBelow c n).Pairwise fun t t' => t.toNat < t'.toNat := by
  induction n with
  | zero => exact List.Pairwise.nil
  | succ n ih =>
    rw [capableBelow]
    split
    · refine List.pairwise_append.2 ⟨ih (by omega), List.pairwise_singleton _ _, fun t ht t' ht' => ?_⟩
      obtain rfl := List.mem_singleton.1 ht'
      obtain ⟨hlt, -⟩ := (mem_capableBelow c (by omega) t).1 ht
      rwa [BitVec.toNat_ofNat, Nat.mod_eq_of_lt (by omega)]
    · rw [List.append_nil]
      exact ih (by omega)

/-- The tiers of `INITALL`: tier 0, then the capable ones above it, ascending (R98). -/
def initAllTiers (c : Config) : List Byte := 0 :: (capableBelow c c.nt).filter fun t => t ≠ 0

theorem initAllCommands_eq_map (c : Config) : initAllCommands c = (initAllTiers c).map fun t => encode (.init t) := rfl

/-- They are all the capable tiers that exist, since an admissible configuration has tier 0 capable (R203). -/
theorem mem_initAllTiers {c : Config} (hnt : 1 ≤ c.nt) (hnt' : c.nt ≤ 256) (hcap : capable c 0 = true) (t : Byte) :
    t ∈ initAllTiers c ↔ t.toNat < c.nt ∧ capable c t = true := by
  rw [initAllTiers, List.mem_cons, List.mem_filter, mem_capableBelow c hnt', decide_eq_true_iff]
  constructor
  · rintro (rfl | ⟨h, -⟩)
    · exact ⟨hnt, hcap⟩
    · exact h
  · intro h
    by_cases ht : t = 0
    · exact .inl ht
    · exact .inr ⟨h, ht⟩

theorem pairwise_initAllTiers {c : Config} (hnt : c.nt ≤ 256) :
    (initAllTiers c).Pairwise fun t t' => t.toNat < t'.toNat := by
  refine List.pairwise_cons.2 ⟨fun t ht => ?_, (pairwise_capableBelow c hnt).filter _⟩
  obtain ⟨-, hfilter⟩ := List.mem_filter.1 ht
  have hne : t ≠ 0 := of_decide_eq_true hfilter
  exact Nat.pos_of_ne_zero fun h => hne (BitVec.eq_of_toNat_eq h)

/-- The last tier of a rising list is the largest. -/
theorem le_getLast?_of_rising {ts : List Byte} (h : ts.Pairwise fun t t' => t.toNat < t'.toNat) {t : Byte}
    (hlast : ts.getLast? = some t) : ∀ t' ∈ ts, t'.toNat ≤ t.toNat := by
  obtain ⟨rest, rfl⟩ := List.getLast?_eq_some_iff.1 hlast
  obtain ⟨-, -, hlt⟩ := List.pairwise_append.1 h
  intro t' ht'
  rcases List.mem_append.1 ht' with ht' | ht'
  · exact (hlt t' ht' t (List.mem_singleton_self t)).le
  · rw [List.mem_singleton.1 ht']

/-- What of an admissible configuration concerns the tiers (R8, R203). -/
theorem tiers_of_admissible {c : Config} (h : c.admissible = true) : 1 ≤ c.nt ∧ c.nt ≤ 256 ∧ capable c 0 = true := by
  simp only [Config.admissible, Bool.and_eq_true, decide_eq_true_iff] at h
  obtain ⟨⟨⟨⟨⟨⟨-, hnt⟩, hnt'⟩, hcap⟩, -⟩, -⟩, -⟩ := h
  exact ⟨hnt, hnt', hcap⟩

/-- Settles O18: `INITALL` is the list of the capable tiers, rising. -/
theorem initAllEndsWithTheBestTier : Obligations.InitAllEndsWithTheBestTier := by
  intro c hadm
  obtain ⟨hnt, hnt', hcap⟩ := tiers_of_admissible hadm
  obtain ⟨t, hlast⟩ := Option.ne_none_iff_exists'.1 (fun h : (initAllTiers c).getLast? = none =>
    List.cons_ne_nil _ _ (List.getLast?_eq_none_iff.1 h))
  obtain ⟨htier, hcapable⟩ := (mem_initAllTiers hnt hnt' hcap t).1 (List.mem_of_getLast? hlast)
  refine ⟨t, by rw [initAllCommands_eq_map, List.getLast?_map, hlast]; rfl, htier, hcapable, fun t' htier' hcap' => ?_⟩
  exact le_getLast?_of_rising (pairwise_initAllTiers hnt') hlast t' ((mem_initAllTiers hnt hnt' hcap t').2 ⟨htier', hcap'⟩)

end Sys2Proof.Machine
end
